-- ==== Sys2Proof/Word.lean ====
section
/-! DEFINITION. The two plain word types of the block: 32-bit words (every register, command word and
sample) and 8-bit bytes (the cells of the two memories). -/

namespace Sys2Proof

/-- A 32-bit word: a register, a command word, a phase word or a binary32 sample (R9, R10, R18). -/
abbrev Word := BitVec 32

/-- One byte lane of a word (R72). -/
abbrev Byte := BitVec 8

end Sys2Proof
end

