-- ==== Sys2Proof/Syntax.lean ====
section
/-! DEFINITION. The thirteen commands of R103, one constructor per row of the opcode table. -/

namespace Sys2Proof

/-- The voice field `V` (R101): 0 is the source's Voice 1, 1 is Voice 2. -/
inductive Voice where
  | one
  | two
deriving DecidableEq, Repr

/-- A decoded command. `ch` is the field `CH`, `n` the field `N` read as a block length (0 means
`BLOCK_SIZE`), `i` the field `N` read as a sample index (R101, R102). -/
inductive Instr where
  | nop
  | prepare
  | apply
  | process (n : Nat)
  | dlWrite (n : Nat)
  | dlRead (ch i : Nat)
  | phSetfreq (v : Voice) (ch : Nat)
  | phAdvance (v : Voice) (ch : Nat)
  | phReset (v : Voice) (ch : Nat)
  | grainEval
  | grainRead (ch i : Nat)
  | voiceSample (v : Voice) (ch i : Nat)
  | mixSample (ch i : Nat)
deriving DecidableEq, Repr

end Sys2Proof
end

