-- ==== Sys2Proof/WellFormed.lean ====
section
/-! DEFINITION. Which commands the format can write down: a channel fits the four bits of `CH` and a
length or index the sixteen bits of `N` (R101). Values the format admits but a session does not (a channel
at or above `C`, an index at or beyond `LASTLEN`) are well formed: the command's rule checks them (R103). -/

namespace Sys2Proof

/-- The channel field is four bits wide. -/
def chFits (ch : Nat) : Bool := ch < 16

/-- The length or index field is sixteen bits wide. -/
def nFits (n : Nat) : Bool := n < 65536

/-- Every operand fits its field. -/
def Instr.wf : Instr → Bool
  | .nop | .prepare | .apply | .grainEval => true
  | .process n | .dlWrite n => nFits n
  | .dlRead ch i | .grainRead ch i | .mixSample ch i => chFits ch && nFits i
  | .phSetfreq _ ch | .phAdvance _ ch | .phReset _ ch => chFits ch
  | .voiceSample _ ch i => chFits ch && nFits i

end Sys2Proof
end

