-- ==== Sys2Proof/Decode.lean ====
section
/-! DEFINITION. The command word: its fields (R101), the opcode map (R103), decoding as a total function
(R104, R105), and the encoder written from the same tables (R101, R109). -/

namespace Sys2Proof

/-- `OPC`, bits 31:24 (R101). -/
def opcOf (w : Word) : Nat := (w.extractLsb' 24 8).toNat

/-- `V`, bit 20 (R101). -/
def vOf (w : Word) : Voice := if w.getLsbD 20 then .two else .one

/-- `CH`, bits 19:16, zero-extended (R101, R102). -/
def chOf (w : Word) : Nat := (w.extractLsb' 16 4).toNat

/-- `N`, bits 15:0, zero-extended (R101, R102). -/
def nOf (w : Word) : Nat := (w.extractLsb' 0 16).toNat

/-- One row of the opcode map (R103): a word encodes the command when `(w and mask) = bits`. -/
structure OpRow where
  bits : Word
  mask : Word
  build : Voice → Nat → Nat → Instr

/-- The thirteen rows of R103, in the table's order. -/
def opRows : List OpRow :=
  [ ⟨0x00000000#32, 0xFFFFFFFF#32, fun _ _ _ => .nop⟩,
    ⟨0x01000000#32, 0xFFFFFFFF#32, fun _ _ _ => .prepare⟩,
    ⟨0x02000000#32, 0xFFFFFFFF#32, fun _ _ _ => .apply⟩,
    ⟨0x03000000#32, 0xFFFF0000#32, fun _ _ n => .process n⟩,
    ⟨0x10000000#32, 0xFFFF0000#32, fun _ _ n => .dlWrite n⟩,
    ⟨0x11000000#32, 0xFFF00000#32, fun _ ch n => .dlRead ch n⟩,
    ⟨0x20000000#32, 0xFFE0FFFF#32, fun v ch _ => .phSetfreq v ch⟩,
    ⟨0x21000000#32, 0xFFE0FFFF#32, fun v ch _ => .phAdvance v ch⟩,
    ⟨0x22000000#32, 0xFFE0FFFF#32, fun v ch _ => .phReset v ch⟩,
    ⟨0x30000000#32, 0xFFFFFFFF#32, fun _ _ _ => .grainEval⟩,
    ⟨0x31000000#32, 0xFFF00000#32, fun _ ch n => .grainRead ch n⟩,
    ⟨0x40000000#32, 0xFFE00000#32, fun v ch n => .voiceSample v ch n⟩,
    ⟨0x41000000#32, 0xFFF00000#32, fun _ ch n => .mixSample ch n⟩ ]

/-- Does the word match the row (R103)? -/
def OpRow.hit (r : OpRow) (w : Word) : Bool := (w &&& r.mask) == r.bits

/-- Why a word is illegal (R104): its `OPC` is none of the thirteen, or a bit the command does not use is set.
Anything but four byte lanes is no command word (R100). -/
inductive DecodeError where
  | notOneWord (lanes : Nat)
  | unknownOpcode (opc : Nat)
  | unusedBitSet (opc : Nat)
deriving DecidableEq, Repr

/-- R105: the command of the first (and only) row the word matches, or the reason it is illegal. -/
def decode (w : Word) : Except DecodeError Instr :=
  match opRows.find? (fun r => r.hit w) with
  | some r => .ok (r.build (vOf w) (chOf w) (nOf w))
  | none =>
    if opRows.any (fun r => opcOf r.bits == opcOf w) then .error (.unusedBitSet (opcOf w))
    else .error (.unknownOpcode (opcOf w))

/-- The decoder on the four byte lanes of a word as a byte-addressed host lays them out, the lowest first (R72). -/
def decodeBytes : List Byte → Except DecodeError Instr
  | [b0, b1, b2, b3] => decode (b3 ++ b2 ++ b1 ++ b0)
  | l => .error (.notOneWord l.length)

/-- `{OPC, 000, v, ch, n}` (R109). -/
def cmdWord (opc : Nat) (v : Voice) (ch n : Nat) : Word :=
  BitVec.ofNat 8 opc ++ (0#3) ++ BitVec.ofBool (v == .two) ++ BitVec.ofNat 4 ch ++ BitVec.ofNat 16 n

/-- The opcode of each command (R103). -/
def Instr.opcode : Instr → Nat
  | .nop => 0x00
  | .prepare => 0x01
  | .apply => 0x02
  | .process _ => 0x03
  | .dlWrite _ => 0x10
  | .dlRead _ _ => 0x11
  | .phSetfreq _ _ => 0x20
  | .phAdvance _ _ => 0x21
  | .phReset _ _ => 0x22
  | .grainEval => 0x30
  | .grainRead _ _ => 0x31
  | .voiceSample _ _ _ => 0x40
  | .mixSample _ _ => 0x41

/-- The word of a command (R101, R103, R109); a field the command does not use is zero. -/
def encode : Instr → Word
  | .nop => cmdWord 0x00 .one 0 0
  | .prepare => cmdWord 0x01 .one 0 0
  | .apply => cmdWord 0x02 .one 0 0
  | .process n => cmdWord 0x03 .one 0 n
  | .dlWrite n => cmdWord 0x10 .one 0 n
  | .dlRead ch i => cmdWord 0x11 .one ch i
  | .phSetfreq v ch => cmdWord 0x20 v ch 0
  | .phAdvance v ch => cmdWord 0x21 v ch 0
  | .phReset v ch => cmdWord 0x22 v ch 0
  | .grainEval => cmdWord 0x30 .one 0 0
  | .grainRead ch i => cmdWord 0x31 .one ch i
  | .voiceSample v ch i => cmdWord 0x40 v ch i
  | .mixSample ch i => cmdWord 0x41 .one ch i

/-- The four byte lanes of a 32-bit number, the lowest first (R72). -/
def lanes (w : Nat) : List Byte :=
  [BitVec.ofNat 8 w, BitVec.ofNat 8 (w / 2 ^ 8), BitVec.ofNat 8 (w / 2 ^ 16), BitVec.ofNat 8 (w / 2 ^ 24)]

/-- The instruction the decoder reads from the `nbits` low bits of `w`, the rest of the word being zero. -/
def decodeTableWord (nbits w : Nat) : Option Instr :=
  match decodeBytes (lanes (w % 2 ^ nbits)) with
  | .ok i => some i
  | .error _ => none

end Sys2Proof
end

