-- ==== Sys2Proof/Config.lean ====
section
/-! DEFINITION. What an implementation of the block fixes (R6): the parameters a model takes as
arguments, and the values the model leaves free. -/

namespace Sys2Proof

/-- Which function an implementation uses for `ENV_FN` or `MAP_FREQ` (R6, R24, R25): the spec's default,
or one of its own, named by a number. -/
inductive FnChoice where
  | default
  | custom (k : Nat)
deriving DecidableEq, Repr

/-- The implementation parameters of R6. They never change while the machine runs. `T_PROC` and `BASE` are
not here: no rule depends on the first (R262), and every offset is relative to the second (R71). -/
structure Params where
  /-- `C`, the number of channels. -/
  nch : Nat
  /-- `N_MAX`, the delay RAM's depth per channel. -/
  nmax : Nat
  /-- `BMAX`, the largest block and the I/O buffer's depth per channel. -/
  bmax : Nat
  /-- `ENV_FN`. -/
  env : FnChoice
  /-- `MAP_FREQ`. -/
  map : FnChoice
deriving DecidableEq, Repr

/-- The default column of R6. -/
def Params.spec : Params :=
  { nch := 2, nmax := 131072, bmax := 4096, env := .default, map := .default }

/-- The legal ranges of R6 and the window constraint of R8. -/
def Params.legal (p : Params) : Bool :=
  1 ≤ p.nch && p.nch ≤ 16 && 1 ≤ p.bmax && p.bmax ≤ 65535 && p.bmax + 1 ≤ p.nmax &&
    p.nmax ≤ 2 ^ 24 && 0x10000 + 4 * p.nch * p.bmax ≤ 0x1000000

/-- Free value (log entry 5): the magnitudes of an implementation's own `ENV_FN`, number `k`, by phase word. R24 makes it
non-decreasing, so it is any monotone function. -/
opaque Config.envCustom : Nat → OrderHom Nat Nat

/-- Free value (log entry 5): is a zero of an implementation's own `ENV_FN`, number `k`, at a phase word `-0`? -/
opaque Config.envZeroSign : Nat → Word → Bool

/-- Free value (log entry 5): the magnitudes of an implementation's own `MAP_FREQ`, number `k`, by the sign of the
transposition, the window word and the size of the transposition. R25 makes the mapping non-decreasing through 0 at
unison, so on either side its magnitude is any function that is monotone in the size. -/
opaque Config.mapCustom : Nat → Bool → Word → OrderHom Nat Nat

/-- Free value (log entry 5): is a zero of an implementation's own `MAP_FREQ`, number `k`, away from unison `-0`? -/
opaque Config.mapZeroSign : Nat → Word → Word → Bool

end Sys2Proof
end

