-- ==== Sys2Proof/Machine/State.lean ====
section
/-! DEFINITION. The state of the block (10_state.md), the reasons a host access or a step can stop, and
the machine after reset (R250). -/

namespace Sys2Proof.Machine

/-- Why an access stops. Raised by `memRead` and `memWrite` (Machine/Bus.lean) only. -/
inductive Fault where
  /-- A bus error at window offset `off` (R74): an access of another width, a misaligned or unmapped
  offset, or the I/O buffer while BUSY. Safe: the spec's own response. It ends that one host access and
  changes no state of the block (R225); `step` delivers it to the host as the access's response. -/
  | busError (off : Nat)
deriving DecidableEq, Repr

/-- Why an instruction has no meaning in the model. -/
inductive Refusal where
  /-- An arm of `exec` that has no meaning yet. Safe. No arm of this model answers it. -/
  | notModelled (mnemonic : String)
deriving DecidableEq, Repr

/-- The error codes a command or a `CMD` write records (R221). -/
inductive ErrCode where
  | illegalCmd
  | busy
  | notPrepared
  | cfgSampleRate
  | cfgBlockSize
  | blockLen
  | argRange
deriving DecidableEq, Repr

/-- The stored fields of `STATUS` (R35). `BUSY` is not stored: it is 1 exactly when `PENDING` is full
(R49); the reserved bits read 0 (R51). -/
structure Status where
  done : Bool
  err : Bool
  prepared : Bool
  clampWin : Bool
  clampSemi : Bool
  clampDelay : Bool
  clampCap : Bool
  errcode : BitVec 8
deriving DecidableEq, Repr

/-- The fields of `IRQ_EN` (R36). -/
structure IrqEn where
  doneIe : Bool
  errIe : Bool
deriving DecidableEq, Repr

/-- `ARG0`, `ARG1`, `ARG2`, or the copies of them that a command took when it was accepted (R38, R76). -/
structure Args where
  a0 : Word
  a1 : Word
  a2 : Word
deriving DecidableEq, Repr

/-- An accepted command (R49a): its word and its argument copies. -/
structure Pending where
  word : Word
  args : Args
deriving DecidableEq, Repr

/-- One phasor (R45, R150): phase word and increment word. -/
structure Phasor where
  ph : Word
  inc : Word
deriving DecidableEq, Repr

/-- A memory of bytes: pairs of address and byte, in the canonical form of `Memory.wf` (Machine/Ops.lean). -/
abbrev Memory := List Host.Cell

/-- One host bus access (R240): an offset in the window, how many bytes wide, and for a write the value. -/
inductive Access where
  | read (off size : Nat)
  | write (off size : Nat) (value : Word)
deriving DecidableEq, Repr

/-- One input of the block from outside, in the order in which they take effect (R30, R81, R240, R250). The
list of them in `State` is both the host agent's coming accesses and the interleaving of the two agents. -/
inductive Event where
  /-- A host access takes effect. -/
  | access (a : Access)
  /-- The host polls `STATUS` until `BUSY` reads 0 (R110). -/
  | wait
  /-- The engine takes its step here, if a command is pending (R106). -/
  | engine
  /-- The platform asserts reset (R250). -/
  | reset
  /-- The platform asserts reset during a host access, which ends with no effect (R251). -/
  | resetDuring (a : Access)
deriving DecidableEq, Repr

/-- The response the host got to its last access (R74, R75). -/
inductive BusResponse where
  | none
  | data (w : Word)
  | written
  | fault (f : Fault)
deriving DecidableEq, Repr

structure State where
  /-- The parameters of R6; `HW_NCH`, `HW_NMAX` and `HW_BMAX` read three of them (R33). -/
  hw : Params
  /-- `STATUS` (R35), less `BUSY`. -/
  status : Status
  /-- `IRQ_EN` (R36). -/
  irqEn : IrqEn
  /-- `BLKCNT` (R37). -/
  blkcnt : Word
  /-- `ARG0` to `ARG2` (R38). -/
  args : Args
  /-- `RES0` (R39). -/
  res0 : Word
  /-- `RES1` (R39). -/
  res1 : Word
  /-- `RES2` (R39). -/
  res2 : Word
  /-- `SR` (R40). -/
  sr : Word
  /-- `BLOCK_SIZE` (R40). -/
  blockSize : Word
  /-- `CAP` (R40). -/
  cap : Word
  /-- `WIDX` (R41). -/
  widx : Word
  /-- `LASTLEN` (R41). -/
  lastlen : Word
  /-- `WIN_SAMPLES` (R42). -/
  winSamples : Word
  /-- `WINDOW_MS` (R43). -/
  windowMs : Word
  /-- `SEMI1` (R43). -/
  semi1 : Word
  /-- `SEMI2` (R43). -/
  semi2 : Word
  /-- `FREQ1` (R44). -/
  freq1 : Word
  /-- `FREQ2` (R44). -/
  freq2 : Word
  /-- `MS_EFF` (R44). -/
  msEff : Word
  /-- `SEMI1_EFF` (R44). -/
  semi1Eff : Word
  /-- `SEMI2_EFF` (R44). -/
  semi2Eff : Word
  /-- `PH[0][c]` and `INC[0][c]` for `c` in `[0, C)` (R45). -/
  phasors1 : List Phasor
  /-- `PH[1][c]` and `INC[1][c]` for `c` in `[0, C)` (R45). -/
  phasors2 : List Phasor
  /-- `IOBUF` (R47), at its window offsets. -/
  iobuf : Memory
  /-- `DL` (R48), in an address space of its own. -/
  dl : Memory
  /-- `PENDING` (R49a). -/
  pending : Option Pending
  /-- The model's own: the inputs still to come, first the next. -/
  events : List Event
  /-- The model's own: what the host's last access was answered. -/
  response : BusResponse
deriving DecidableEq, Repr

/-- The values of R250 for an implementation with parameters `p`; the two memories list nothing (log entry 1). -/
def State.resetOf (p : Params) : State :=
  { hw := p
    status := ⟨false, false, false, false, false, false, false, 0#8⟩
    irqEn := ⟨false, false⟩
    blkcnt := 0#32
    args := ⟨0#32, 0#32, 0#32⟩
    res0 := 0#32
    res1 := 0#32
    res2 := 0#32
    sr := 0#32
    blockSize := 0#32
    cap := 0#32
    widx := 0#32
    lastlen := 0#32
    winSamples := 0#32
    windowMs := 0x42480000#32
    semi1 := 0#32
    semi2 := 0#32
    freq1 := 0#32
    freq2 := 0#32
    msEff := 0#32
    semi1Eff := 0#32
    semi2Eff := 0#32
    phasors1 := List.replicate p.nch ⟨0#32, 0#32⟩
    phasors2 := List.replicate p.nch ⟨0#32, 0#32⟩
    iobuf := []
    dl := []
    pending := Option.none
    events := []
    response := .none }

/-- The machine right after reset (R250), with the default parameters of R6. -/
def State.reset : State := State.resetOf Params.spec

end Sys2Proof.Machine
end

