-- ==== Sys2Proof/Machine/Ops.lean ====
section
/-! DEFINITION. The named operations over memory and registers that the commands share, recording an
error (R222) and its clearing (R228), accepting a command (R76) and completing one (R106). -/

namespace Sys2Proof.Machine

/-! ### Byte memories -/

/-- What an unlisted address reads as: zero (log entry 1; after PREPARE it is the delay RAM's `+0.0`, R203). -/
def unlistedByte : Byte := 0#8

/-- The canonical form: addresses strictly rising, and no entry equal to what an unlisted address reads as. -/
abbrev Memory.wf (m : Memory) : Prop :=
  m.Pairwise (fun x y => x.1 < y.1) ∧ ∀ x ∈ m, x.2 ≠ unlistedByte

def Memory.readByte : Memory → Nat → Byte
  | [], _ => unlistedByte
  | (k, b) :: r, a => if k = a then b else Memory.readByte r a

/-- The cells with byte `b` put in at address `a`: listed only if it differs from an unlisted byte. -/
def Memory.consByte (a : Nat) (b : Byte) (m : Memory) : Memory :=
  if b = unlistedByte then m else (a, b) :: m

def Memory.writeByte : Memory → Nat → Byte → Memory
  | [], a, b => Memory.consByte a b []
  | (k, x) :: r, a, b =>
    if a < k then Memory.consByte a b ((k, x) :: r)
    else if a = k then Memory.consByte a b r
    else (k, x) :: Memory.writeByte r a b

/-- The word whose byte lanes are at `a` to `a + 3`, the lowest lane first (R72). -/
def Memory.readWord (m : Memory) (a : Nat) : Word :=
  m.readByte (a + 3) ++ m.readByte (a + 2) ++ m.readByte (a + 1) ++ m.readByte a

/-- Byte lane `j` of a word (R72). -/
def laneOf (w : Word) (j : Nat) : Byte := w.extractLsb' (8 * j) 8

def Memory.writeWord (m : Memory) (a : Nat) (w : Word) : Memory :=
  (((m.writeByte a (laneOf w 0)).writeByte (a + 1) (laneOf w 1)).writeByte (a + 2) (laneOf w 2)).writeByte
    (a + 3) (laneOf w 3)

/-! ### The I/O buffer and the delay RAM -/

/-- The window offset where the I/O buffer begins (R47). -/
def iobufBase : Nat := 0x10000

/-- The window offset of `IOBUF[c][i]` (R47). -/
def iobufAddr (p : Params) (c i : Nat) : Nat := iobufBase + 4 * (c * p.bmax + i)

/-- The address of `DL[c][k]` in the delay RAM's own space (R48, log entry 2). -/
def dlAddr (p : Params) (c k : Nat) : Nat := 4 * (c * p.nmax + k)

def State.iobufAt (s : State) (c i : Nat) : Word := s.iobuf.readWord (iobufAddr s.hw c i)

def State.dlAt (s : State) (c k : Nat) : Word := s.dl.readWord (dlAddr s.hw c k)

def State.putIobuf (s : State) (c i : Nat) (w : Word) : State :=
  { s with iobuf := s.iobuf.writeWord (iobufAddr s.hw c i) w }

/-! ### The phasor file and the per-voice registers -/

def State.phasors (s : State) : Voice → List Phasor
  | .one => s.phasors1
  | .two => s.phasors2

/-- The phasor of voice `v`, channel `c`; no rule reads one at `c >= C` (R45). -/
def State.phasorAt (s : State) (v : Voice) (c : Nat) : Phasor := (s.phasors v).getD c ⟨0#32, 0#32⟩

def State.setPhasors (s : State) (v : Voice) (l : List Phasor) : State :=
  match v with
  | .one => { s with phasors1 := l }
  | .two => { s with phasors2 := l }

/-- `PH[v][c] <- w` -/
def State.setPh (s : State) (v : Voice) (c : Nat) (w : Word) : State :=
  s.setPhasors v ((s.phasors v).set c { s.phasorAt v c with ph := w })

/-- `INC[v][c] <- w` -/
def State.setInc (s : State) (v : Voice) (c : Nat) (w : Word) : State :=
  s.setPhasors v ((s.phasors v).set c { s.phasorAt v c with inc := w })

/-- `for c in [0, C): INC[v][c] <- w` (R208) -/
def State.setIncAll (s : State) (v : Voice) (w : Word) : State :=
  s.setPhasors v ((s.phasors v).map fun p => { p with inc := w })

/-- `for c in [0, C): PH[v][c] <- 0` (R203) -/
def zeroPhases (l : List Phasor) : List Phasor := l.map fun p => { p with ph := 0#32 }

/-- `FREQ1` for voice 0, `FREQ2` for voice 1 (R44, R204). -/
def State.freq (s : State) : Voice → Word
  | .one => s.freq1
  | .two => s.freq2

def State.setFreq (s : State) (v : Voice) (w : Word) : State :=
  match v with
  | .one => { s with freq1 := w }
  | .two => { s with freq2 := w }

/-- `SEMI1` for voice 0, `SEMI2` for voice 1 (R43, R204). -/
def State.semi (s : State) : Voice → Word
  | .one => s.semi1
  | .two => s.semi2

/-- `SEMI1_EFF` for voice 0, `SEMI2_EFF` for voice 1 (R44, R204). -/
def State.semiEff (s : State) : Voice → Word
  | .one => s.semi1Eff
  | .two => s.semi2Eff

/-! ### Errors -/

/-- The code of each error in `STATUS.ERRCODE` (R221). -/
def ErrCode.code : ErrCode → BitVec 8
  | .illegalCmd => 0x01#8
  | .busy => 0x02#8
  | .notPrepared => 0x03#8
  | .cfgSampleRate => 0x04#8
  | .cfgBlockSize => 0x05#8
  | .blockLen => 0x06#8
  | .argRange => 0x07#8

/-- `record Error(code)` (R222): the block's whole way of taking an exception (R220, R227). The first error
since `ERR` was cleared is kept. -/
def State.recordError (s : State) (e : ErrCode) : State :=
  { s with status := { s.status with
      errcode := if s.status.err then s.status.errcode else e.code
      err := true } }

/-- The only recovery from an error (R228): the host's write of 1 to `STATUS.ERR` clears `ERR` and `ERRCODE`. -/
def Status.clearError (t : Status) : Status := { t with err := false, errcode := 0x00#8 }

/-- A command's checks come before its first state change: with an error it has no effect but recording that
error, and otherwise the whole of its pseudocode runs (R107, R222). -/
def guarded (check : Option ErrCode) (body : State) (s : State) : Host.Outcome State Fault Refusal :=
  match check with
  | some e => .next (s.recordError e)
  | none => .next body

/-! ### The command handshake -/

/-- `STATUS.BUSY` (R35, R49): 1 exactly when `PENDING` is full. -/
def State.busy (s : State) : Bool := s.pending.isSome

/-- A `CMD` write of word `w` (R76): refused with `E_BUSY` while a command is pending, else accepted with
copies of `ARG0` to `ARG2`. Acceptance does not look at the word. -/
def State.issue (s : State) (w : Word) : State :=
  if s.busy then s.recordError .busy
  else { s with pending := some ⟨w, s.args⟩, status := { s.status with done := false } }

/-- The end of the engine step (R106): `PENDING <- empty`, `BUSY <- 0`, `DONE <- 1`. -/
def State.complete (s : State) : State :=
  { s with pending := none, status := { s.status with done := true } }

/-- The argument copies a command works on: those of the pending command (R38, R76). With none pending no
command runs; the live registers stand in (log entry 4). -/
def State.cmdArgs (s : State) : Args :=
  match s.pending with
  | some p => p.args
  | none => s.args

end Sys2Proof.Machine
end

