-- ==== Sys2Proof/Machine/Flags.lean ====
section
/-! DEFINITION. `STATUS` and `IRQ_EN` as words (R35, R36), the host's write-1-to-clear (R35, R50), the
sticky clamp flags (R209) and the interrupt output (R226). -/

namespace Sys2Proof.Machine

/-- `STATUS` as the host reads it (R35); bits 31:16 read 0. -/
def State.statusWord (s : State) : Word :=
  0#16 ++ s.status.errcode ++ BitVec.ofBool s.status.clampCap ++ BitVec.ofBool s.status.clampDelay ++
    BitVec.ofBool s.status.clampSemi ++ BitVec.ofBool s.status.clampWin ++ BitVec.ofBool s.status.prepared ++
    BitVec.ofBool s.status.err ++ BitVec.ofBool s.status.done ++ BitVec.ofBool s.busy

/-- A host write of `w` to `STATUS` (R35): each W1C bit whose written bit is 1 is cleared, `ERRCODE` goes with
`ERR`, and `BUSY` and `PREPARED` stay. -/
def Status.hostWrite (t : Status) (w : Word) : Status :=
  let u : Status := { t with
    done := t.done && !w.getLsbD 1
    clampWin := t.clampWin && !w.getLsbD 4
    clampSemi := t.clampSemi && !w.getLsbD 5
    clampDelay := t.clampDelay && !w.getLsbD 6
    clampCap := t.clampCap && !w.getLsbD 7 }
  if w.getLsbD 2 then u.clearError else u

/-- `IRQ_EN` as the host reads it (R36); every other bit reads 0. -/
def IrqEn.word (q : IrqEn) : Word :=
  0#29 ++ BitVec.ofBool q.errIe ++ BitVec.ofBool q.doneIe ++ 0#1

/-- A host write of `w` to `IRQ_EN` (R36). -/
def IrqEn.ofWord (w : Word) : IrqEn := ⟨w.getLsbD 1, w.getLsbD 2⟩

/-- The interrupt output (R49b, R226): a level signal, a function of the flags and their enables. -/
def State.irq (s : State) : Bool :=
  (s.status.done && s.irqEn.doneIe) || (s.status.err && s.irqEn.errIe)

/-- `if cw: STATUS.CLAMP_WIN <- 1; if cs: STATUS.CLAMP_SEMI <- 1` (R204, R209) -/
def Status.noteParams (t : Status) (cw cs : Bool) : Status :=
  { t with clampWin := t.clampWin || cw, clampSemi := t.clampSemi || cs }

/-- `if cl: STATUS.CLAMP_DELAY <- 1` (R142) -/
def Status.noteDelay (t : Status) (cl : Bool) : Status := { t with clampDelay := t.clampDelay || cl }

/-- `STATUS.PREPARED <- 1; if cc: STATUS.CLAMP_CAP <- 1` (R201) -/
def Status.notePrepared (t : Status) (cc : Bool) : Status :=
  { t with prepared := true, clampCap := t.clampCap || cc }

end Sys2Proof.Machine
end

