-- ==== Sys2Proof/Machine/Bus.lean ====
section
/-! DEFINITION. The host's bus accesses (20_memory.md): the register map (R32, R45, R47), which accesses are
legal (R73, R74, R78), what a read returns and what a write does (R50, R76, R77). -/

namespace Sys2Proof.Machine

/-- The registers of R32, but for the phasor file. -/
inductive Reg where
  | id | version | hwNch | hwNmax | hwBmax | cmd | status | irqEn | blkcnt
  | arg0 | arg1 | arg2 | res0 | res1 | res2
  | sr | blockSize | cap | widx | lastlen | winSamples
  | windowMs | semi1 | semi2 | freq1 | freq2 | msEff | semi1Eff | semi2Eff
deriving DecidableEq, Repr

/-- The register map (R32). -/
def regMap : List (Nat × Reg) :=
  [(0x000, .id), (0x004, .version), (0x008, .hwNch), (0x00C, .hwNmax), (0x010, .hwBmax), (0x014, .cmd),
   (0x018, .status), (0x01C, .irqEn), (0x020, .blkcnt), (0x024, .arg0), (0x028, .arg1), (0x02C, .arg2),
   (0x030, .res0), (0x034, .res1), (0x038, .res2)] ++
  [(0x040, .sr), (0x044, .blockSize), (0x048, .cap), (0x04C, .widx), (0x050, .lastlen), (0x054, .winSamples),
   (0x060, .windowMs), (0x064, .semi1), (0x068, .semi2), (0x070, .freq1), (0x074, .freq2), (0x078, .msEff),
   (0x07C, .semi1Eff), (0x080, .semi2Eff)]

/-- The register at an offset, if there is one. -/
def regAt (off : Nat) : Option Reg := (regMap.find? (fun x => x.1 == off)).map (·.2)

/-- What stands at a mapped offset. -/
inductive Loc where
  | reg (r : Reg)
  | ph (v : Voice) (c : Nat)
  | inc (v : Voice) (c : Nat)
  | buffer (off : Nat)
deriving DecidableEq, Repr

/-- The phasor file (R45): `PH[v][c]` at `0x100 + 0x80*v + 8*c`, `INC[v][c]` four bytes on. -/
def phasorLoc (off : Nat) : Loc :=
  let v := if off < 0x180 then Voice.one else Voice.two
  let c := (off % 0x80) / 8
  if off % 8 = 0 then .ph v c else .inc v c

/-- What stands at an aligned offset: nothing where `c >= C`, beyond the I/O buffer, or between the regions
(R32, R45, R47, R74). -/
def locate (p : Params) (off : Nat) : Option Loc :=
  if 0x100 ≤ off ∧ off < 0x200 then
    if (off % 0x80) / 8 < p.nch then some (phasorLoc off) else none
  else if iobufBase ≤ off then
    if off < iobufBase + 4 * p.nch * p.bmax then some (.buffer off) else none
  else (regAt off).map .reg

/-- Is the location in the I/O buffer region? -/
def Loc.isBuffer : Loc → Bool
  | .buffer _ => true
  | _ => false

/-- The location a legal access reaches (R73), else a bus error (R74): a full aligned word at a mapped offset,
and not in the I/O buffer while BUSY (R78). -/
def State.target (s : State) (off size : Nat) : Except Fault Loc :=
  if size = 4 ∧ off % 4 = 0 then
    match locate s.hw off with
    | none => .error (.busError off)
    | some l => if l.isBuffer && s.busy then .error (.busError off) else .ok l
  else .error (.busError off)

/-- What a host read of a register returns (R32, R33, R34). -/
def State.readReg (s : State) : Reg → Word
  | .id => 0x50534831#32
  | .version => 0x00000001#32
  | .hwNch => BitVec.ofNat 32 s.hw.nch
  | .hwNmax => BitVec.ofNat 32 s.hw.nmax
  | .hwBmax => BitVec.ofNat 32 s.hw.bmax
  | .cmd => 0x00000000#32
  | .status => s.statusWord
  | .irqEn => s.irqEn.word
  | .blkcnt => s.blkcnt
  | .arg0 => s.args.a0
  | .arg1 => s.args.a1
  | .arg2 => s.args.a2
  | .res0 => s.res0
  | .res1 => s.res1
  | .res2 => s.res2
  | .sr => s.sr
  | .blockSize => s.blockSize
  | .cap => s.cap
  | .widx => s.widx
  | .lastlen => s.lastlen
  | .winSamples => s.winSamples
  | .windowMs => s.windowMs
  | .semi1 => s.semi1
  | .semi2 => s.semi2
  | .freq1 => s.freq1
  | .freq2 => s.freq2
  | .msEff => s.msEff
  | .semi1Eff => s.semi1Eff
  | .semi2Eff => s.semi2Eff

/-- What a host read of a location returns; it has no side effect (R77). -/
def State.readLoc (s : State) : Loc → Word
  | .reg r => s.readReg r
  | .ph v c => (s.phasorAt v c).ph
  | .inc v c => (s.phasorAt v c).inc
  | .buffer off => s.iobuf.readWord off

/-- What a host write to a register does (R50): `CMD` issues a command (R76), `STATUS` clears flags (R35), the RW
registers take the value (R36, R38, R43), and every other register ignores it. -/
def State.writeReg (s : State) (w : Word) : Reg → State
  | .cmd => s.issue w
  | .status => { s with status := s.status.hostWrite w }
  | .irqEn => { s with irqEn := IrqEn.ofWord w }
  | .arg0 => { s with args := { s.args with a0 := w } }
  | .arg1 => { s with args := { s.args with a1 := w } }
  | .arg2 => { s with args := { s.args with a2 := w } }
  | .windowMs => { s with windowMs := w }
  | .semi1 => { s with semi1 := w }
  | .semi2 => { s with semi2 := w }
  | .id | .version | .hwNch | .hwNmax | .hwBmax | .blkcnt | .res0 | .res1 | .res2 | .sr | .blockSize | .cap
  | .widx | .lastlen | .winSamples | .freq1 | .freq2 | .msEff | .semi1Eff | .semi2Eff => s

/-- What a host write to a location does; the phasor file is read-only (R45). -/
def State.writeLoc (s : State) (w : Word) : Loc → State
  | .reg r => s.writeReg w r
  | .ph _ _ | .inc _ _ => s
  | .buffer off => { s with iobuf := s.iobuf.writeWord off w }

/-- `MemRead(off, size)` (R9). -/
def memRead (off size : Nat) (s : State) : Except Fault Word :=
  match s.target off size with
  | .ok l => .ok (s.readLoc l)
  | .error f => .error f

/-- `MemWrite(off, size, w)` (R9). -/
def memWrite (off size : Nat) (w : Word) (s : State) : Except Fault State :=
  match s.target off size with
  | .ok l => .ok (s.writeLoc w l)
  | .error f => .error f

/-- One host access takes effect and the host gets its response; a bus error is a fault of that access and
changes nothing else (R74, R225). -/
def hostAccess : Access → State → State
  | .read off size, s =>
    match memRead off size s with
    | .ok w => { s with response := .data w }
    | .error f => { s with response := .fault f }
  | .write off size w, s =>
    match memWrite off size w s with
    | .ok t => { t with response := .written }
    | .error f => { s with response := .fault f }

end Sys2Proof.Machine
end

