-- ==== Sys2Proof/Machine/Binary32.lean ====
section
/-! DEFINITION. The sample format and its arithmetic (R10 to R17, R19). Every finite binary32 value is a
whole number of units of 2^-149, so exact rationals are kept as an integer over a natural number and
rounded once. -/

namespace Sys2Proof.Machine

/-! ### The format (R10, R19) -/

def signBit (b : Word) : Bool := b.getLsbD 31

def expField (b : Word) : Nat := (b.extractLsb' 23 8).toNat

def fracField (b : Word) : Nat := (b.extractLsb' 0 23).toNat

def isNaN (b : Word) : Bool := expField b == 255 && fracField b != 0

def isInf (b : Word) : Bool := expField b == 255 && fracField b == 0

def isZero (b : Word) : Bool := expField b == 0 && fracField b == 0

def isFinite (b : Word) : Bool := expField b != 255

/-- `|val(b)| * 2^149` of a finite `b` (R10). -/
def magUnits (b : Word) : Nat :=
  if expField b = 0 then fracField b else (2 ^ 23 + fracField b) * 2 ^ (expField b - 1)

/-- `val(b) * 2^149` of a finite `b`, an integer (R10). -/
def units (b : Word) : Int := if signBit b then -(magUnits b : Int) else magUnits b

/-- One, in the units of `units`. -/
def unitsOne : Nat := 2 ^ 149

/-- Neither NaN nor infinite, and `val(b) > 0` (R19). -/
def isFinitePos (b : Word) : Bool := isFinite b && !signBit b && !isZero b

/-- The canonical quiet NaN (R14). -/
def canonNaN : Word := 0x7FC00000#32

def infinity (sign : Bool) : Word := if sign then 0xFF800000#32 else 0x7F800000#32

def zeroWord (sign : Bool) : Word := if sign then 0x80000000#32 else 0x00000000#32

/-! ### Rounding rationals to integers (R17) -/

def roundHalfEvenNat (n d : Nat) : Nat :=
  let q := n / d
  let r := n % d
  if 2 * r < d then q else if d < 2 * r then q + 1 else q + q % 2

/-- `roundHalfEven(n / d)` -/
def roundHalfEven (n : Int) (d : Nat) : Int :=
  if n < 0 then -(roundHalfEvenNat n.natAbs d : Int) else roundHalfEvenNat n.natAbs d

/-- `roundHalfAway(n / d)` -/
def roundHalfAway (n : Int) (d : Nat) : Int :=
  let m : Int := ((2 * n.natAbs + d) / (2 * d) : Nat)
  if n < 0 then -m else m

/-- `ceil(n / d)` of a non-negative rational. -/
def ceilNat (n d : Nat) : Nat := (n + d - 1) / d

/-! ### Rounding rationals to binary32 (R11, R12) -/

/-- `floor(log2(n / d))` for `n, d > 0`. -/
def log2Frac (n d : Nat) : Int :=
  let k : Int := (Nat.log2 n : Int) - Nat.log2 d
  if d * 2 ^ k.toNat ≤ n * 2 ^ (-k).toNat then k else k - 1

/-- The exponent of the last place binary32 has for the magnitude `n / d`: 23 below its leading bit, and never
below -149. -/
def quantum (n d : Nat) : Int := max (log2Frac n d - 23) (-149)

/-- The 31 magnitude bits of a binary32 number with significand `m` at quantum `t`: a significand that fills up
carries into the exponent. -/
def magBits (t : Int) (m : Nat) : Nat := (t + 149).toNat * 2 ^ 23 + m

/-- The magnitude bits nearest `n / d`, ties to even; at or above `2^128 - 2^103` those of infinity (R11). -/
def rneMag (n d : Nat) : Nat :=
  let t := quantum n d
  min (magBits t (roundHalfEvenNat (n * 2 ^ (-t).toNat) (d * 2 ^ t.toNat))) 0x7F800000

/-- The largest magnitude bits whose value is not greater than `n / d`, the largest finite one if need be (R12). -/
def rtzMag (n d : Nat) : Nat :=
  let t := quantum n d
  min (magBits t (n * 2 ^ (-t).toNat / (d * 2 ^ t.toNat))) 0x7F7FFFFF

/-- The sign bit put on magnitude bits. -/
def withSign (sign : Bool) (mag : Nat) : Word := BitVec.ofBool sign ++ BitVec.ofNat 31 mag

/-- `rne32(n / d)` (R11); `rne32(0)` is `+0`. -/
def rne32 (n : Int) (d : Nat) : Word :=
  if n = 0 then 0x00000000#32 else withSign (n < 0) (rneMag n.natAbs d)

/-- `rtz32(n / d)` for a positive rational (R12). -/
def rtz32 (n d : Nat) : Word := withSign false (rtzMag n d)

/-! ### Arithmetic (R13) -/

def add32 (a b : Word) : Word :=
  if isNaN a || isNaN b then canonNaN
  else if isInf a && isInf b then (if signBit a == signBit b then a else canonNaN)
  else if isInf a then a
  else if isInf b then b
  else if units a + units b = 0 then
    zeroWord (isZero a && isZero b && signBit a && signBit b)
  else rne32 (units a + units b) unitsOne

def sub32 (a b : Word) : Word :=
  if isNaN a || isNaN b then canonNaN else add32 a (b ^^^ 0x80000000#32)

def mul32 (a b : Word) : Word :=
  if isNaN a || isNaN b then canonNaN
  else
    let s := signBit a ^^ signBit b
    if isInf a || isInf b then (if isZero a || isZero b then canonNaN else infinity s)
    else if units a * units b = 0 then zeroWord s
    else rne32 (units a * units b) (unitsOne * unitsOne)

/-! ### Comparison (R16) -/

/-- `a < b` for words that are not NaN, an infinity lying beyond every finite value of its sign (R16, R205, R207). -/
def lt32 (a b : Word) : Bool :=
  if isInf a then signBit a && !(isInf b && signBit b)
  else if isInf b then !signBit b
  else units a < units b

end Sys2Proof.Machine
end

