-- ==== Sys2Proof/Machine/Functions.lean ====
section
/-! DEFINITION. The functions an implementation chooses: the envelope `ENV_FN` (R24) and the
transposition-to-frequency mapping `MAP_FREQ` (R25), each with the spec's default computed, and the output
trim (R26). A default is an exact real rounded once. The model encloses that real between rationals and answers
where every bound of the enclosure rounds alike; where they do not, it compares the real with the boundaries
between neighbouring words, which is exact but slow (log entry 6). -/

namespace Sys2Proof.Machine

/-- A non-negative rational as numerator and denominator, not reduced. -/
structure Frac where
  num : Nat
  den : Nat
deriving DecidableEq, Repr

/-- The one word all bounds round to, if they do. -/
def agreed : List Word → Option Word
  | [] => none
  | w :: r => if r.all (· == w) then some w else none

/-- `floor(π * 2^128)` -/
def piFloor : Nat := 0x3243f6a8885a308d313198a2e03707344

/-- `floor(ln 2 * 2^128)` -/
def ln2Floor : Nat := 0xb17217f7d1cf79abc9e3b39803f2f6af

/-! ### Rounding a positive real that can be compared with rationals -/

/-- Does a positive real round to the magnitude bits `k > 0` or above? `cmp n d` compares the real with `n / d`. The boundary
lies halfway between the magnitude and the one before it, and belongs to the even one of the two (R11). -/
def reaches (cmp : Nat → Nat → Ordering) (k : Nat) : Bool :=
  match cmp (magUnits (withSign false (k - 1)) + magUnits (withSign false k)) (2 * unitsOne) with
  | .lt => false
  | .eq => k % 2 == 0
  | .gt => true

/-- The largest magnitude bits in `[m, m + 2^j)` that are reached, up to infinity's, one binary digit after another. -/
def searchMag (up : Nat → Bool) : Nat → Nat → Nat
  | 0, m => m
  | j + 1, m => searchMag up j (if m + 2 ^ j ≤ 0x7F800000 ∧ up (m + 2 ^ j) then m + 2 ^ j else m)

/-- The magnitude bits a positive real rounds to (R11). -/
def roundMag (cmp : Nat → Nat → Ordering) : Nat := searchMag (reaches cmp) 31 0

/-! ### The default envelope -/

/-- `1 - x²/((2j)(2j+1)) * (1 - x²/((2j+2)(2j+3)) * ( … tail))` with `k` brackets, for `x = n/d`. The exact infinite
nest lies between the values for `tail = 0` and `tail = 1` while `0 <= x <= π/2`. -/
def sinNest (n d tail : Nat) : Nat → Nat → Frac
  | 0, _ => ⟨tail, 1⟩
  | k + 1, j =>
    let f := sinNest n d tail k (j + 1)
    let c := d * d * (2 * j * (2 * j + 1))
    ⟨c * f.den - n * n * f.num, c * f.den⟩

/-- A bound of `sin(π P / 2^32)`, with `p` for `π * 2^128`. -/
def sinBound (p tail P : Nat) : Frac :=
  let n := p * P
  let d := 2 ^ 160
  let f := sinNest n d tail 20 1
  ⟨n * f.num, d * f.den⟩

def Frac.rne (f : Frac) : Word := rne32 f.num f.den

/-- `rne32(sin(π P / 2^32))` for `0 < P <= 2^31` (R24). -/
def sinRounded (P : Nat) : Option Word :=
  agreed [(sinBound piFloor 0 P).rne, (sinBound piFloor 1 P).rne,
    (sinBound (piFloor + 1) 0 P).rne, (sinBound (piFloor + 1) 1 P).rne]

/-- Compares `cos(π a / 2^32)` with `n / d`, for `0 < a < 2^32`: the cosine of an angle and that of its supplement differ
in sign, and `cos 2x = 2 cos² x - 1` doubles an acute angle. At `a = 2^31` the cosine is 0, and `f` doublings reach
it where `2^(31 - f)` divides `a`. -/
def cmpCos : Nat → Nat → Int → Nat → Ordering
  | 0, _, n, _ => compare 0 n
  | f + 1, a, n, d =>
    if a = 2 ^ 31 then compare 0 n
    else if a < 2 ^ 31 then
      if n < 0 then .gt else cmpCos f (2 * a) (2 * n * n - d * d) (d * d)
    else
      if 0 < n then .lt else (cmpCos f (2 * (2 ^ 32 - a)) (2 * n * n - d * d) (d * d)).swap

/-- `rne32(sin(π P / 2^32))` for `0 < P < 2^31`, by comparison. -/
def sinExact (P : Nat) : Word := withSign false (roundMag fun n d => cmpCos 31 (2 ^ 31 - P) n d)

/-- The default `ENV_FN` for `0 < P < 2^31` (R24). -/
def sinDefault (P : Nat) : Word := (sinRounded P).getD (sinExact P)

/-- An implementation's own `ENV_FN` for `0 < P < 2^31`: non-decreasing and within `[0, 1]` (R24). -/
def envOwn (k : Nat) (P : Word) : Word :=
  let mag := min (Config.envCustom k P.toNat) 0x3F800000
  withSign (mag == 0 && Config.envZeroSign k P) mag

/-- `ENV_FN(P)` for `0 < P < 2^31`. -/
def envRaw (f : FnChoice) (P : Word) : Word :=
  match f with
  | .default => sinDefault P.toNat
  | .custom k => envOwn k P

/-- `ENV_FN(P)` (R24, R170): 0 at phase 0, 1.0 at half a cycle, and the same on both sides of it. -/
def envFn (f : FnChoice) (P : Word) : Word :=
  if P = 0#32 then 0x00000000#32
  else if P = 0x80000000#32 then 0x3F800000#32
  else envRaw f (if P.toNat < 2 ^ 31 then P else 0#32 - P)

/-! ### The default mapping -/

/-- `1 + t/(j+1) * (1 + t/(j+2) * ( … tail))` with `k` brackets, for `t = n/d`. The exact infinite nest lies between
the values for `tail = 1` and `tail = 2` while `0 <= t <= 1`. -/
def expNest (n d tail : Nat) : Nat → Nat → Frac
  | 0, _ => ⟨tail, 1⟩
  | k + 1, j =>
    let f := expNest n d tail k (j + 1)
    let c := d * (j + 1)
    ⟨c * f.den + n * f.num, c * f.den⟩

/-- `1 - t/(j+1) * (1 - t/(j+2) * ( … tail))` with `k` brackets, for `t = n/d`. The exact infinite nest lies between
the values for `tail = 0` and `tail = 1` while `0 <= t <= 1`. -/
def expNegNest (n d tail : Nat) : Nat → Nat → Frac
  | 0, _ => ⟨tail, 1⟩
  | k + 1, j =>
    let f := expNegNest n d tail k (j + 1)
    let c := d * (j + 1)
    ⟨c * f.den - n * f.num, c * f.den⟩

/-- A bound of `|2^(x/12) - 1|` for the semitones `x`, `|x| = mag * 2^-149`, with `l` for `ln 2 * 2^128`. -/
def semiBound (neg : Bool) (l tail mag : Nat) : Frac :=
  let n := mag * l
  let d := 12 * unitsOne * 2 ^ 128
  let f := if neg then expNegNest n d tail 32 1 else expNest n d tail 32 1
  ⟨n * f.num, d * f.den⟩

/-- `rne32(± f * 1000 / val(m))` -/
def freqOf (neg : Bool) (f : Frac) (m : Word) : Word :=
  let n : Int := (f.num * 1000 * unitsOne : Nat)
  rne32 (if neg then -n else n) (f.den * (units m).natAbs)

/-- `rne32((2^(val(s)/12) - 1) * 1000 / val(m))` for `val(s) ≠ 0` (R25). At a whole octave the real is rational. -/
def mapRounded (s m : Word) : Option Word :=
  let neg := signBit s
  let mag := magUnits s
  if mag = 12 * unitsOne then some (freqOf neg (if neg then ⟨1, 2⟩ else ⟨1, 1⟩) m)
  else
    let t := if neg then 0 else 1
    agreed [freqOf neg (semiBound neg ln2Floor t mag) m, freqOf neg (semiBound neg ln2Floor (t + 1) mag) m,
      freqOf neg (semiBound neg (ln2Floor + 1) t mag) m, freqOf neg (semiBound neg (ln2Floor + 1) (t + 1) mag) m]

/-- Compares `|2^(x/12) - 1| * 1000 / val(m)` with `n / d`, for the semitones `x`, `|x| = mag * 2^-149`, and
`val(m) = mu * 2^-149 > 0`: both sides raised to the power `12 * 2^149`, the comparison is one of integers. -/
def cmpSemi (neg : Bool) (mag mu n d : Nat) : Ordering :=
  let c := d * 1000 * unitsOne
  let q := n * mu
  let e := 12 * unitsOne
  if neg then
    if c ≤ q then .lt else compare ((c - q) ^ e * 2 ^ mag) (c ^ e)
  else compare (2 ^ mag * c ^ e) ((c + q) ^ e)

/-- `rne32((2^(val(s)/12) - 1) * 1000 / val(m))` for `val(s) ≠ 0`, by comparison. -/
def mapExact (s m : Word) : Word :=
  withSign (signBit s) (roundMag (cmpSemi (signBit s) (magUnits s) (magUnits m)))

/-- The default `MAP_FREQ` away from unison (R25). -/
def mapDefault (s m : Word) : Word := (mapRounded s m).getD (mapExact s m)

/-- An implementation's own `MAP_FREQ` away from unison: finite and non-decreasing in `val(s)`, so of the sign of `s`
(R25). -/
def mapOwn (k : Nat) (s m : Word) : Word :=
  let mag := min (Config.mapCustom k (signBit s) m (magUnits s)) 0x7F7FFFFF
  withSign (if mag = 0 then Config.mapZeroSign k s m else signBit s) mag

/-- `MAP_FREQ(s, m)` (R25): `+0` at unison. -/
def mapFreq (f : FnChoice) (s m : Word) : Word :=
  if isZero s then 0x00000000#32
  else
    match f with
    | .default => mapDefault s m
    | .custom k => mapOwn k s m

/-! ### The trim -/

/-- The binary32 value nearest `10^(-3/20)` (R26). -/
def trim : Word := 0x3F353BEF#32

end Sys2Proof.Machine
end

