-- ==== Sys2Proof/Machine/Operands.lean ====
section
/-! DEFINITION. The operand forms of the commands: the length operand (R102), the delay operand and its
clamp (R140), the two requested parameters and their clamps (R205, R207), the frequency operand (R155), and
the checks a command makes on its operands, in the order of R224. -/

namespace Sys2Proof.Machine

/-- `L = n` if `n != 0`, and `L = BLOCK_SIZE` if `n = 0` (R102). -/
def State.blockLen (s : State) (n : Nat) : Nat := if n = 0 then s.blockSize.toNat else n

/-! ### Checks (R221, R224) -/

/-- `E_NOT_PREPARED`, for every command except NOP and PREPARE. -/
def State.notPrepared (s : State) : Option ErrCode :=
  if s.status.prepared then none else some .notPrepared

/-- `E_BLOCK_LEN` if `L > BLOCK_SIZE`. -/
def State.badLen (s : State) (n : Nat) : Option ErrCode :=
  if s.blockSize.toNat < s.blockLen n then some .blockLen else none

/-- `E_ARG_RANGE` if `ch >= C`. -/
def State.badCh (s : State) (ch : Nat) : Option ErrCode :=
  if s.hw.nch ≤ ch then some .argRange else none

/-- `E_ARG_RANGE` if `ch >= C` or `i >= LASTLEN`. -/
def State.badChIdx (s : State) (ch i : Nat) : Option ErrCode :=
  if s.hw.nch ≤ ch ∨ s.lastlen.toNat ≤ i then some .argRange else none

/-! ### The delay operand (R140) -/

/-- `dmax(i) = CAP - LASTLEN + i` -/
def State.dmax (s : State) (i : Nat) : Nat := s.cap.toNat + i - s.lastlen.toNat

/-- A read delay: whole samples, a binary32 fraction, and whether it was clamped. -/
structure Delay where
  d : Nat
  fr : Word
  clamped : Bool
deriving DecidableEq, Repr

/-- `clampDelay(x, i)` (R140). -/
def State.clampDelay (s : State) (x : Word) (i : Nat) : Delay :=
  if isNaN x then ⟨0, 0#32, true⟩
  else if isZero x then ⟨0, 0#32, false⟩
  else if signBit x then ⟨0, 0#32, true⟩
  else if isInf x ∨ s.dmax i * unitsOne < magUnits x then ⟨s.dmax i, 0#32, true⟩
  else
    ⟨magUnits x / unitsOne, rne32 (magUnits x % unitsOne : Nat) unitsOne, false⟩

/-! ### The frequency operand (R155, R156) -/

/-- `incOf(f)` at the sample rate `SR`. -/
def incOf (sr f : Word) : Word :=
  if isNaN f || isInf f then 0#32
  else BitVec.ofInt 32 (roundHalfEven (units f * 2 ^ 32) (magUnits sr))

/-! ### The requested parameters (R205, R207) -/

/-- `clampMs(x, msCap)` (R205), and whether it clamped. -/
def clampMs (x msCap : Word) : Word × Bool :=
  let five := 0x40A00000#32
  let hi := if lt32 msCap 0x43960000#32 then msCap else 0x43960000#32
  if lt32 msCap five then (msCap, x != msCap)
  else if isNaN x then (five, true)
  else if lt32 x five then (five, true)
  else if lt32 hi x then (hi, true)
  else (x, false)

/-- `clampSemi(x)` (R207), and whether it clamped. -/
def clampSemi (x : Word) : Word × Bool :=
  if isNaN x then (0x00000000#32, true)
  else if lt32 x 0xC1400000#32 then (0xC1400000#32, true)
  else if lt32 0x41400000#32 x then (0x41400000#32, true)
  else (x, false)

end Sys2Proof.Machine
end

