-- ==== Sys2Proof/Machine/Control.lean ====
section
/-! DEFINITION. Engine control (46_engine_control.md): the parameter latch and NOP, PREPARE, APPLY. -/

namespace Sys2Proof.Machine

/-! ### The parameter latch (R204) -/

/-- `CAP - BLOCK_SIZE`, the samples one block leaves of the capacity. -/
def State.room (s : State) : Nat := s.cap.toNat - s.blockSize.toNat

/-- `msCap = rtz32((CAP - BLOCK_SIZE) * 1000 / val(SR))` (R205) -/
def State.msCap (s : State) : Word := rtz32 (s.room * 1000 * unitsOne) (magUnits s.sr)

/-- The effective window in milliseconds, and whether `clampMs` clamped (R205). -/
def State.msIn (s : State) : Word × Bool := clampMs s.windowMs s.msCap

/-- The effective transposition of a voice, and whether `clampSemi` clamped (R207). -/
def State.semiIn (s : State) (v : Voice) : Word × Bool := clampSemi (s.semi v)

/-- `roundHalfAway(val(ms) * val(SR) / 1000)` (R206) -/
def windowRaw (ms sr : Word) : Nat :=
  (roundHalfAway (units ms * magUnits sr) (1000 * unitsOne * unitsOne)).toNat

/-- A window bounded to `[1, room]`, and whether a bound took effect (R206). -/
def boundWindow (ws room : Nat) : Nat × Bool :=
  let lo := if ws < 1 then 1 else ws
  if room < lo then (room, true) else (lo, decide (ws < 1))

/-- `WIN_SAMPLES` as an APPLY in this state sets it, and whether a bound took effect (R206). -/
def State.windowIn (s : State) : Nat × Bool := boundWindow (windowRaw s.msIn.1 s.sr) s.room

/-- `FREQv <- f`, and every increment of voice `v` follows it (R208). -/
def State.retune (s : State) (v : Voice) (f : Word) : State :=
  (s.setFreq v f).setIncAll v (incOf s.sr f)

/-- Voice `v`'s frequency is recomputed when forced, or when the effective window or the voice's effective
transposition differs bit for bit from the one last latched (R208). -/
def State.latchVoice (s : State) (force : Bool) (v : Voice) (ms semi : Word) : State :=
  if force || ms != s.msEff || semi != s.semiEff v then s.retune v (mapFreq s.hw.map semi ms) else s

/-- `applyParams(force)` (R204). Each parameter register is read once, in this one step (R210). -/
def State.applyParams (s : State) (force : Bool) : State :=
  let ms := s.msIn
  let t1 := s.semiIn .one
  let t2 := s.semiIn .two
  let ws := s.windowIn
  let u := (s.latchVoice force .one ms.1 t1.1).latchVoice force .two ms.1 t2.1
  { u with
    winSamples := BitVec.ofNat 32 ws.1
    msEff := ms.1
    semi1Eff := t1.1
    semi2Eff := t2.1
    status := s.status.noteParams (ms.2 || ws.2) (t1.2 || t2.2) }

/-! ### PREPARE (R201 to R203) -/

/-- The capacity for a sample rate, a block size and a maximum window in seconds, and whether it was adjusted
(R202). -/
def capacity (nmax : Nat) (rate : Word) (bs : Nat) (maxSec : Word) : Nat × Bool :=
  let m := if isFinitePos maxSec then maxSec else 0x3F800000#32
  let c0 := ceilNat (magUnits m * magUnits rate) (unitsOne * unitsOne)
  let c1 := if c0 < bs + 1 then bs + 1 else c0
  let c2 := if nmax < c1 then nmax else c1
  (c2, !isFinitePos maxSec || decide (c0 < bs + 1) || decide (nmax < c1))

/-- `E_CFG_SAMPLE_RATE`, then `E_CFG_BLOCK_SIZE` (R201, R224). -/
def State.badConfig (s : State) (rate bs : Word) : Option ErrCode :=
  if !isFinitePos rate then some .cfgSampleRate
  else if bs = 0#32 ∨ s.hw.bmax < bs.toNat then some .cfgBlockSize
  else none

/-- PREPARE up to its `applyParams`: the configuration set, the delay RAM all `+0.0`, the stream state and every
phase zero (R201, R203). -/
def State.openSession (s : State) (a : Args) : State :=
  let c := capacity s.hw.nmax a.a0 a.a1.toNat a.a2
  { s with
    sr := a.a0
    blockSize := a.a1
    cap := BitVec.ofNat 32 c.1
    dl := []
    widx := 0#32
    lastlen := 0#32
    blkcnt := 0#32
    phasors1 := zeroPhases s.phasors1
    phasors2 := zeroPhases s.phasors2
    status := s.status.notePrepared c.2 }

/-! ### The commands -/

/-- NOP (R200): no effect beyond the handshake. -/
def execNop (s : State) : Host.Outcome State Fault Refusal := .next s

/-- PREPARE (R201). -/
def execPrepare (s : State) : Host.Outcome State Fault Refusal :=
  guarded (s.badConfig s.cmdArgs.a0 s.cmdArgs.a1) ((s.openSession s.cmdArgs).applyParams true) s

/-- APPLY (R204). -/
def execApply (s : State) : Host.Outcome State Fault Refusal :=
  guarded s.notPrepared (s.applyParams false) s

end Sys2Proof.Machine
end

