-- ==== Sys2Proof/Machine/DelayBuffer.lean ====
section
/-! DEFINITION. The circular delay buffer (41_circular_delay_buffer.md): the block write and DL_WRITE. -/

namespace Sys2Proof.Machine

/-- `(WIDX + k) mod CAP`: the slot that takes sample `k` of a block (R131). -/
def State.writeSlot (s : State) (k : Nat) : Nat := (s.widx.toNat + k) % s.cap.toNat

/-- `DL[c][(WIDX + k) mod CAP] <- IOBUF[c][k]` for `k` in `[0, L)`, on the delay RAM `m` (R131). -/
def State.copyChannel (s : State) (L c : Nat) (m : Memory) : Memory :=
  (List.range L).foldl (fun m k => m.writeWord (dlAddr s.hw c (s.writeSlot k)) (s.iobufAt c k)) m

/-- The delay RAM after a block of length `L` was copied in, channel by channel (R131). -/
def State.copyBlock (s : State) (L : Nat) : Memory :=
  (List.range s.hw.nch).foldl (fun m c => s.copyChannel L c m) s.dl

/-- The block write: the copy, then `WIDX` and `LASTLEN` (R131, R184). -/
def State.writeBlock (s : State) (L : Nat) : State :=
  { s with
    dl := s.copyBlock L
    widx := BitVec.ofNat 32 (s.writeSlot L)
    lastlen := BitVec.ofNat 32 L }

/-- DL_WRITE (R131). -/
def execDlWrite (n : Nat) (s : State) : Host.Outcome State Fault Refusal :=
  guarded (s.notPrepared.or (s.badLen n)) (s.writeBlock (s.blockLen n)) s

end Sys2Proof.Machine
end

