-- ==== Sys2Proof/Machine/Interpolator.lean ====
section
/-! DEFINITION. The fractional delay interpolator (42_fractional_delay_interpolator.md): interpolated reads
and DL_READ. -/

namespace Sys2Proof.Machine

/-- The slot `d` samples behind sample `i` of the block just written:
`((WIDX - LASTLEN + i) - d) mod CAP` (R141). -/
def State.readSlot (s : State) (i d : Nat) : Nat :=
  (((s.widx.toNat : Int) - s.lastlen.toNat + i - d) % s.cap.toNat).toNat

/-- `interp(c, i, d, fr)` (R141). -/
def State.interp (s : State) (c i d : Nat) (fr : Word) : Word :=
  let s0 := s.dlAt c (s.readSlot i d)
  if isZero fr then s0
  else
    let s1 := s.dlAt c (s.readSlot i (d + 1))
    add32 s0 (mul32 fr (sub32 s1 s0))

/-- DL_READ's effect (R142): the sample, and the clamp flag. -/
def State.delayRead (s : State) (ch i : Nat) (x : Word) : State :=
  let t := s.clampDelay x i
  { s with res0 := s.interp ch i t.d t.fr, status := s.status.noteDelay t.clamped }

/-- DL_READ (R142). -/
def execDlRead (ch i : Nat) (s : State) : Host.Outcome State Fault Refusal :=
  guarded (s.notPrepared.or (s.badChIdx ch i)) (s.delayRead ch i s.cmdArgs.a0) s

end Sys2Proof.Machine
end

