-- ==== Sys2Proof/Machine/Grain.lean ====
section
/-! DEFINITION. The grain envelope shaper (44_grain_envelope_shaper.md): the grain's read delay, one grain
sample, GRAIN_EVAL and GRAIN_READ. -/

namespace Sys2Proof.Machine

/-- `D = WS * (2^32 - P)` (R171). -/
def State.grainD (s : State) (P : Word) : Nat := s.winSamples.toNat * (2 ^ 32 - P.toNat)

/-- `dInt = floor(D / 2^32)` (R171). -/
def State.grainInt (s : State) (P : Word) : Nat := s.grainD P / 2 ^ 32

/-- `fracW = D mod 2^32` (R171). -/
def State.grainFrac (s : State) (P : Word) : Nat := s.grainD P % 2 ^ 32

/-- `fr = rne32(fracW / 2^32)` (R172). -/
def fracWord (fracW : Nat) : Word := rne32 fracW (2 ^ 32)

/-- `ENV_FN(P)` of this implementation (R170). -/
def State.env (s : State) (P : Word) : Word := envFn s.hw.env P

/-- `grain(c, i, P)` (R173). -/
def State.grain (s : State) (c i : Nat) (P : Word) : Word :=
  mul32 (s.interp c i (s.grainInt P) (fracWord (s.grainFrac P))) (s.env P)

/-- GRAIN_EVAL's effect (R174): the envelope and the two parts of the read delay. -/
def State.evalGrain (s : State) (P : Word) : State :=
  { s with
    res0 := s.env P
    res1 := BitVec.ofNat 32 (s.grainInt P)
    res2 := BitVec.ofNat 32 (s.grainFrac P) }

/-- GRAIN_EVAL (R174). -/
def execGrainEval (s : State) : Host.Outcome State Fault Refusal :=
  guarded s.notPrepared (s.evalGrain s.cmdArgs.a0) s

/-- GRAIN_READ (R175). -/
def execGrainRead (ch i : Nat) (s : State) : Host.Outcome State Fault Refusal :=
  guarded (s.notPrepared.or (s.badChIdx ch i)) { s with res0 := s.grain ch i s.cmdArgs.a0 } s

end Sys2Proof.Machine
end

