-- ==== Sys2Proof/Machine/PhasorUnit.lean ====
section
/-! DEFINITION. The phase accumulator (43_phase_accumulator_phasor.md): the phasor step and PH_SETFREQ,
PH_ADVANCE, PH_RESET. -/

namespace Sys2Proof.Machine

/-- `PH[v][c] <- (P + INC[v][c]) mod 2^32` (R151). -/
def State.stepPhase (s : State) (v : Voice) (c : Nat) : State :=
  s.setPh v c ((s.phasorAt v c).ph + (s.phasorAt v c).inc)

/-- PH_SETFREQ's effect (R152): the increment, and `RES0` with it. -/
def State.setFrequency (s : State) (v : Voice) (ch : Nat) (hz : Word) : State :=
  { s.setInc v ch (incOf s.sr hz) with res0 := incOf s.sr hz }

/-- PH_ADVANCE's effect (R153): one phasor step, the phase before it in `RES0` and the one after it in `RES1`. -/
def State.advancePhase (s : State) (v : Voice) (ch : Nat) : State :=
  let t := s.stepPhase v ch
  { t with res0 := (s.phasorAt v ch).ph, res1 := (t.phasorAt v ch).ph }

/-- PH_SETFREQ (R152). -/
def execPhSetfreq (v : Voice) (ch : Nat) (s : State) : Host.Outcome State Fault Refusal :=
  guarded (s.notPrepared.or (s.badCh ch)) (s.setFrequency v ch s.cmdArgs.a0) s

/-- PH_ADVANCE (R153). -/
def execPhAdvance (v : Voice) (ch : Nat) (s : State) : Host.Outcome State Fault Refusal :=
  guarded (s.notPrepared.or (s.badCh ch)) (s.advancePhase v ch) s

/-- PH_RESET (R154): any word is a legal phase. -/
def execPhReset (v : Voice) (ch : Nat) (s : State) : Host.Outcome State Fault Refusal :=
  guarded (s.notPrepared.or (s.badCh ch)) (s.setPh v ch s.cmdArgs.a0) s

end Sys2Proof.Machine
end

