-- ==== Sys2Proof/Machine/Mixer.lean ====
section
/-! DEFINITION. The dual-grain mixer (45_dual_grain_mixer.md): one voice's contribution, one output sample,
the block process, and VOICE_SAMPLE, MIX_SAMPLE, PROCESS. -/

namespace Sys2Proof.Machine

/-- Grain B's phase, half a cycle from grain A's and not stored (R46, R180). -/
def mirror (P : Word) : Word := P + 0x80000000#32

/-- The value of `voiceSample(v, c, i)` (R180), taken at the phase before the step. -/
def State.voiceValue (s : State) (v : Voice) (c i : Nat) : Word :=
  let P := (s.phasorAt v c).ph
  add32 (s.grain c i P) (s.grain c i (mirror P))

/-- The value of `mixSample(c, i)` (R182): both voices, then the trim. The first voice's phasor step changes
nothing the second voice reads. -/
def State.mixValue (s : State) (c i : Nat) : Word :=
  mul32 (add32 (s.voiceValue .one c i) ((s.stepPhase .one c).voiceValue .two c i)) trim

/-- The phasor steps of `mixSample(c, i)` (R182). -/
def State.stepBoth (s : State) (c : Nat) : State := (s.stepPhase .one c).stepPhase .two c

/-- `IOBUF[c][i] <- mixSample(c, i)` (R184). -/
def State.mixInto (s : State) (c i : Nat) : State := (s.stepBoth c).putIobuf c i (s.mixValue c i)

/-- `for c in [0, C): IOBUF[c][i] <- mixSample(c, i)` (R184). -/
def State.mixFrame (s : State) (i : Nat) : State :=
  (List.range s.hw.nch).foldl (fun t c => t.mixInto c i) s

/-- `for i in [0, L), for c in [0, C): IOBUF[c][i] <- mixSample(c, i)` (R184). -/
def State.mixBlock (s : State) (L : Nat) : State :=
  (List.range L).foldl (fun t i => t.mixFrame i) s

/-- `BLKCNT <- (BLKCNT + 1) mod 2^32` (R37, R184). -/
def State.countBlock (s : State) : State := { s with blkcnt := s.blkcnt + 1#32 }

/-- PROCESS's effect on a block of length `L` (R184): the parameter latch, the block write, the mix, the count.
Every read sees the block being processed (R89). -/
def State.processBlock (s : State) (L : Nat) : State :=
  (((s.applyParams false).writeBlock L).mixBlock L).countBlock

/-- VOICE_SAMPLE's effect (R181). -/
def State.sampleVoice (s : State) (v : Voice) (ch i : Nat) : State :=
  { s.stepPhase v ch with res0 := s.voiceValue v ch i, res1 := (s.phasorAt v ch).ph }

/-- MIX_SAMPLE's effect (R183). -/
def State.sampleMix (s : State) (ch i : Nat) : State :=
  { s.stepBoth ch with res0 := s.mixValue ch i }

/-- VOICE_SAMPLE (R181). -/
def execVoiceSample (v : Voice) (ch i : Nat) (s : State) : Host.Outcome State Fault Refusal :=
  guarded (s.notPrepared.or (s.badChIdx ch i)) (s.sampleVoice v ch i) s

/-- MIX_SAMPLE (R183). -/
def execMixSample (ch i : Nat) (s : State) : Host.Outcome State Fault Refusal :=
  guarded (s.notPrepared.or (s.badChIdx ch i)) (s.sampleMix ch i) s

/-- PROCESS (R184). -/
def execProcess (n : Nat) (s : State) : Host.Outcome State Fault Refusal :=
  guarded (s.notPrepared.or (s.badLen n)) (s.processBlock (s.blockLen n)) s

end Sys2Proof.Machine
end

