-- ==== Sys2Proof/Machine/Dispatch.lean ====
section
/-! DEFINITION. One arm per command: the meaning it has (30_encoding.md R103, R106). -/

namespace Sys2Proof.Machine

/-- What a command does (the line `perform c with A0, A1, A2` of R106), its argument copies being those of the
pending command. -/
def exec (i : Instr) (s : State) : Host.Outcome State Fault Refusal :=
  match i with
  | .nop => Sys2Proof.Machine.execNop s
  | .prepare => Sys2Proof.Machine.execPrepare s
  | .apply => Sys2Proof.Machine.execApply s
  | .process n => Sys2Proof.Machine.execProcess n s
  | .dlWrite n => Sys2Proof.Machine.execDlWrite n s
  | .dlRead ch k => Sys2Proof.Machine.execDlRead ch k s
  | .phSetfreq v ch => Sys2Proof.Machine.execPhSetfreq v ch s
  | .phAdvance v ch => Sys2Proof.Machine.execPhAdvance v ch s
  | .phReset v ch => Sys2Proof.Machine.execPhReset v ch s
  | .grainEval => Sys2Proof.Machine.execGrainEval s
  | .grainRead ch k => Sys2Proof.Machine.execGrainRead ch k s
  | .voiceSample v ch k => Sys2Proof.Machine.execVoiceSample v ch k s
  | .mixSample ch k => Sys2Proof.Machine.execMixSample ch k s

end Sys2Proof.Machine
end

