-- ==== Sys2Proof/Machine/Engine.lean ====
section
/-! DEFINITION. The two agents as the step runs them (R30, R106, R240), and the platform's reset (R250, R251). -/

namespace Sys2Proof.Machine

/-- The engine step's outcome after its command was performed: the handshake of R106. -/
def finish : Host.Outcome State Fault Refusal → Host.Outcome State Fault Refusal
  | .next s => .next s.complete
  | .fault f => .fault f
  | .refused r => .refused r

/-- `EngineStep` (R106) on the pending command `p`: the word is decoded only now (R104). -/
def engineStep (p : Pending) (s : State) : Host.Outcome State Fault Refusal :=
  match decode p.word with
  | .ok i => finish (exec i s)
  | .error _ => .next (s.recordError .illegalCmd).complete

/-- The engine takes a step exactly when a command is pending (R30, R240); else it is idle and all state is kept
(R236). -/
def engineTurn (s : State) : Host.Outcome State Fault Refusal :=
  match s.pending with
  | some p => engineStep p s
  | none => .next s

/-- The platform's reset (R250, R251): a pending command is abandoned. The two memories, unspecified after it, keep
what they held (log entry 3), and the inputs still to come are the platform's, not the block's. -/
def State.afterReset (s : State) : State :=
  { State.resetOf s.hw with iobuf := s.iobuf, dl := s.dl, events := s.events }

/-- The host's last poll of a `wait`: the read of `STATUS` that sees `BUSY = 0` (R110). -/
def pollStatus (s : State) : State := hostAccess (.read 0x018 4) s

/-- One input takes effect (R81, R240). While a command is pending a `wait` goes on and the engine has its turn:
the polls that read `BUSY = 1` have no effect (R77, R110). -/
def takeEvent (e : Event) (rest : List Event) (s : State) : Host.Outcome State Fault Refusal :=
  match e with
  | .access a => .next (hostAccess a { s with events := rest })
  | .engine => engineTurn { s with events := rest }
  | .reset => .next ({ s with events := rest } : State).afterReset
  | .resetDuring _ => .next ({ s with events := rest } : State).afterReset
  | .wait => if s.busy then engineTurn s else .next (pollStatus { s with events := rest })

/-- One step of the machine: the next input takes effect, and with none to come the engine has its turn. -/
def stepMachine (s : State) : Host.Outcome State Fault Refusal :=
  match s.events with
  | [] => engineTurn s
  | e :: rest => takeEvent e rest s

/-- The instruction whose bits are `w` made the pending command, with the argument registers copied, and the
engine's step made the next event: the state an accepted `CMD` write leaves (R76). -/
def State.withCommand (s : State) (w : Word) : State :=
  { s with
    pending := some ⟨w, s.args⟩
    status := { s.status with done := false }
    events := .engine :: s.events }

end Sys2Proof.Machine
end

