-- ==== Sys2Proof/Machine/Step.lean ====
section
/-! DEFINITION. The step of the machine, and the way an instruction is placed for its next step. -/

namespace Sys2Proof.Machine

/-- One step (R30, R81, R106, R240). -/
def step (s : State) : Host.Outcome State Fault Refusal := stepMachine s

/-- `s` with the instruction whose low `nbits` bits are those of `w` as the pending command, its engine step
next (log entry 7). -/
def State.withFetchWord (s : State) (nbits w : Nat) : State :=
  s.withCommand (BitVec.ofNat 32 (w % 2 ^ nbits))

end Sys2Proof.Machine
end

