-- ==== Sys2Proof/Safety.lean ====
section
/-! DEFINITION. The terms claims are made in: the exact value of a binary32 word, a real rounded
to binary32, the invariant of the
machine, and when a step is safe. -/

namespace Sys2Proof.Machine

/-- `val(b)`, the exact rational of a finite binary32 word (R10). -/
def val (b : Word) : ℚ := units b / 2 ^ 149

/-- `w` is the exact real `y` rounded once to binary32, as R11 rounds a rational: infinity from `2^128 - 2^103` on, else
the nearest value, of two equally near the one with an even fraction; the sign is that of `y`. -/
structure RoundsTo (y : ℝ) (w : Word) : Prop where
  zero : y = 0 → w = 0x00000000#32
  sign : y ≠ 0 → (signBit w = true ↔ y < 0)
  beyond : 2 ^ 128 - 2 ^ 103 ≤ |y| → w = infinity (signBit w)
  finite : |y| < 2 ^ 128 - 2 ^ 103 → isFinite w = true
  nearest : |y| < 2 ^ 128 - 2 ^ 103 → ∀ b, isFinite b = true → |(val w : ℝ) - y| ≤ |(val b : ℝ) - y|
  even : |y| < 2 ^ 128 - 2 ^ 103 → ∀ b, isFinite b = true → val b ≠ val w →
    |(val b : ℝ) - y| = |(val w : ℝ) - y| → w.getLsbD 0 = false

/-- The ranges the session registers keep while prepared (R40, R41, R42, R54). -/
structure State.SessionOk (s : State) : Prop where
  rate : isFinitePos s.sr = true
  blockPos : 1 ≤ s.blockSize.toNat
  blockMax : s.blockSize.toNat ≤ s.hw.bmax
  capMin : s.blockSize.toNat + 1 ≤ s.cap.toNat
  capMax : s.cap.toNat ≤ s.hw.nmax
  index : s.widx.toNat < s.cap.toNat
  last : s.lastlen.toNat ≤ s.blockSize.toNat
  winMin : 1 ≤ s.winSamples.toNat
  winMax : s.winSamples.toNat ≤ s.cap.toNat - s.blockSize.toNat

/-- Before the first PREPARE the session registers, the latched parameters and the phasor file are 0 (R40, R44,
R45, R250). -/
structure State.SessionBlank (s : State) : Prop where
  session : s.sr = 0#32 ∧ s.blockSize = 0#32 ∧ s.cap = 0#32 ∧ s.widx = 0#32 ∧ s.lastlen = 0#32 ∧ s.winSamples = 0#32
  latched : s.freq1 = 0#32 ∧ s.freq2 = 0#32 ∧ s.msEff = 0#32 ∧ s.semi1Eff = 0#32 ∧ s.semi2Eff = 0#32
  phases : ∀ v c, s.phasorAt v c = ⟨0#32, 0#32⟩
  count : s.blkcnt = 0#32

/-- `ERRCODE` is 0 exactly while `ERR` is 0, and never a reserved code (R35, R221, R222). -/
structure Status.ErrOk (t : Status) : Prop where
  zero : t.err = false ↔ t.errcode = 0#8
  known : t.errcode.toNat ≤ 7

/-- Both memories are in canonical form and list only bytes that exist (R47, R48). -/
structure State.StoresOk (s : State) : Prop where
  iobufWf : s.iobuf.wf
  iobufIn : ∀ x ∈ s.iobuf, iobufBase ≤ x.1 ∧ x.1 < iobufBase + 4 * s.hw.nch * s.hw.bmax
  dlWf : s.dl.wf
  dlIn : ∀ x ∈ s.dl, x.1 < 4 * s.hw.nch * s.hw.nmax

/-- The invariant of the machine. -/
structure State.Inv (s : State) : Prop where
  params : s.hw.legal = true
  file1 : s.phasors1.length = s.hw.nch
  file2 : s.phasors2.length = s.hw.nch
  stores : s.StoresOk
  errors : s.status.ErrOk
  session : s.status.prepared = true → s.SessionOk
  blank : s.status.prepared = false → s.SessionBlank

/-- A safe step goes on to a next state: it neither faults nor refuses. -/
def SafeStep (s : State) : Prop := ∃ t, step s = .next t

end Sys2Proof.Machine
end

