-- ==== Sys2Proof/Certificates/Slice0/Obligations.lean ====
section
/-! DEFINITION. The statements for the provers, in the order of the spec's files: the format and its
arithmetic, encoding, the bus, the command handshake and errors, the commands family by family, reset, and
the whole machine. The predicates they share stand first. -/

open Sys2Proof Sys2Proof.Machine

namespace Sys2Proof.Claims

/-- The engine has the next turn, and `rest` are the inputs after it: by its own event, with no input to come, or while
the host waits for a pending command, where the wait stays (log entries 8 and 9). -/
def EngineNext (s : State) (rest : List Event) : Prop :=
  s.events = .engine :: rest ∨ (s.events = [] ∧ rest = []) ∨
    (s.busy = true ∧ (∃ r, s.events = .wait :: r) ∧ rest = s.events)

/-- The error R224 says a command reports in a state, if any, written out from R221 and R224. -/
def commandError (i : Instr) (s : State) : Option ErrCode :=
  match i with
  | .nop => none
  | .prepare =>
    if isFinitePos s.cmdArgs.a0 = false then some .cfgSampleRate
    else if s.cmdArgs.a1.toNat = 0 ∨ s.cmdArgs.a1.toNat > s.hw.bmax then some .cfgBlockSize
    else none
  | .apply | .grainEval => if s.status.prepared = false then some .notPrepared else none
  | .process n | .dlWrite n =>
    if s.status.prepared = false then some .notPrepared
    else if (if n ≠ 0 then n else s.blockSize.toNat) > s.blockSize.toNat then some .blockLen
    else none
  | .dlRead ch k | .grainRead ch k | .voiceSample _ ch k | .mixSample ch k =>
    if s.status.prepared = false then some .notPrepared
    else if ch ≥ s.hw.nch ∨ k ≥ s.lastlen.toNat then some .argRange
    else none
  | .phSetfreq _ ch | .phAdvance _ ch | .phReset _ ch =>
    if s.status.prepared = false then some .notPrepared
    else if ch ≥ s.hw.nch then some .argRange
    else none

/-- `s` after `record Error(e)` (R222), written out. -/
def errored (s : State) (e : ErrCode) : State :=
  { s with status := { s.status with
      err := true, errcode := if s.status.err = true then s.status.errcode else e.code } }

/-- A prepared session in which channel `ch` and index `k` are in range (R221). -/
structure Indexed (s : State) (ch k : Nat) : Prop where
  inv : s.Inv
  prepared : s.status.prepared = true
  channel : ch < s.hw.nch
  index : k < s.lastlen.toNat

/-- A prepared session that admits a block of the length that `n` asks for, which is `L` (R102, R224). -/
structure BlockFits (s : State) (n L : Nat) : Prop where
  inv : s.Inv
  prepared : s.status.prepared = true
  length : L = if n ≠ 0 then n else s.blockSize.toNat
  fits : L ≤ s.blockSize.toNat

/-- The parameters requested in `s` are latched in `t`, clamped for `t`'s own session (R204 to R207). -/
structure Latched (s t : State) : Prop where
  window : t.msEff = (clampMs s.windowMs t.msCap).1
  semi : ∀ v, t.semiEff v = (clampSemi (s.semi v)).1
  samples : t.winSamples.toNat = min (t.cap.toNat - t.blockSize.toNat) (max 1 (windowRaw t.msEff t.sr))
  clampWin : t.status.clampWin = (s.status.clampWin || (clampMs s.windowMs t.msCap).2 ||
    decide (t.winSamples.toNat ≠ windowRaw t.msEff t.sr))
  clampSemi : t.status.clampSemi = (s.status.clampSemi || (clampSemi s.semi1).2 || (clampSemi s.semi2).2)

/-- Voice `v`'s frequency and every increment of the voice are those of the latched parameters (R208). -/
def Tuned (t : State) (v : Voice) : Prop :=
  t.freq v = mapFreq t.hw.map (t.semiEff v) t.msEff ∧
    ∀ c < t.hw.nch, (t.phasorAt v c).inc = incOf t.sr (t.freq v)

end Sys2Proof.Claims

open Sys2Proof.Claims

/-! ### The format and its arithmetic (00_scope.md) -/

/-- R11. -/
def Obligations.RoundToNearestTiesToEven : Prop :=
  ∀ (n : ℤ) (d : ℕ), 0 < d →
    (n = 0 → rne32 n d = 0x00000000#32) ∧
    (n ≠ 0 → (2 ^ 128 - 2 ^ 103 : ℚ) ≤ |(n : ℚ) / d| → rne32 n d = infinity (decide (n < 0))) ∧
    (n ≠ 0 → |(n : ℚ) / d| < 2 ^ 128 - 2 ^ 103 →
      isFinite (rne32 n d) = true ∧ signBit (rne32 n d) = decide (n < 0) ∧
      (∀ w, isFinite w = true → |val (rne32 n d) - n / d| ≤ |val w - n / d|) ∧
      (∀ w, isFinite w = true → val w ≠ val (rne32 n d) → |val w - n / d| = |val (rne32 n d) - n / d| →
        (rne32 n d).getLsbD 0 = false))

/-- R12. -/
def Obligations.RoundTowardZeroIsLargestBelow : Prop :=
  ∀ n d : ℕ, 0 < n → 0 < d →
    isFinite (rtz32 n d) = true ∧ signBit (rtz32 n d) = false ∧ val (rtz32 n d) ≤ (n : ℚ) / d ∧
    ∀ w, isFinite w = true → val w ≤ (n : ℚ) / d → val w ≤ val (rtz32 n d)

/-- R13: each finite result is the exact sum or product rounded once, however that rational is written. -/
def Obligations.SampleArithmeticRoundsOnce : Prop :=
  ∀ a b : Word,
    ((isNaN a = true ∨ isNaN b = true) →
      add32 a b = canonNaN ∧ sub32 a b = canonNaN ∧ mul32 a b = canonNaN) ∧
    (isNaN a = false → isNaN b = false →
      sub32 a b = add32 a (b ^^^ 0x80000000#32) ∧
      (isInf a = true → isInf b = true → add32 a b = if signBit a = signBit b then a else canonNaN) ∧
      (isInf a = true → isInf b = false → add32 a b = a) ∧
      (isInf a = false → isInf b = true → add32 a b = b) ∧
      ((isInf a = true ∨ isInf b = true) → mul32 a b =
        if isZero a = true ∨ isZero b = true then canonNaN else infinity (signBit a != signBit b))) ∧
    (isFinite a = true → isFinite b = true →
      (val a + val b = 0 → add32 a b =
        if isZero a = true ∧ isZero b = true ∧ signBit a = true ∧ signBit b = true then 0x80000000#32
        else 0x00000000#32) ∧
      (val a + val b ≠ 0 → ∀ (n : ℤ) (d : ℕ), 0 < d → (n : ℚ) / d = val a + val b → add32 a b = rne32 n d) ∧
      (val a * val b = 0 → mul32 a b = zeroWord (signBit a != signBit b)) ∧
      (val a * val b ≠ 0 → ∀ (n : ℤ) (d : ℕ), 0 < d → (n : ℚ) / d = val a * val b → mul32 a b = rne32 n d))

/-- The contracts of R24 and R25 for every implementation's functions, but for one exception: the default mapping is
stated finite only while `1000 / val(m)`, its value an octave up, stays below the overflow threshold of R11 (log entry 12).
An implementation's own mapping is finite everywhere. -/
def Obligations.FunctionsMeetTheirContracts : Prop :=
  ∀ f : FnChoice,
    (envFn f 0#32 = 0x00000000#32 ∧ envFn f 0x80000000#32 = 0x3F800000#32 ∧
      (∀ P, P ≠ 0#32 → envFn f P = envFn f (0#32 - P)) ∧
      (∀ P, isFinite (envFn f P) = true ∧ 0 ≤ val (envFn f P) ∧ val (envFn f P) ≤ 1) ∧
      ∀ P Q : Word, P.toNat ≤ Q.toNat → Q.toNat ≤ 2 ^ 31 → val (envFn f P) ≤ val (envFn f Q)) ∧
    (∀ s m, isZero s = true → mapFreq f s m = 0x00000000#32) ∧
    (∀ s t m, isFinite s = true → isFinite t = true → |val s| ≤ 12 → |val t| ≤ 12 → isFinitePos m = true →
      val s ≤ val t → isFinite (mapFreq f s m) = true → isFinite (mapFreq f t m) = true →
      val (mapFreq f s m) ≤ val (mapFreq f t m)) ∧
    (∀ k s m, f = .custom k → isFinite (mapFreq f s m) = true) ∧
    ∀ s m, isFinite s = true → |val s| ≤ 12 → isFinitePos m = true → 1000 / val m < (2 ^ 128 - 2 ^ 103 : ℚ) →
      isFinite (mapFreq f s m) = true

/-- The defaults of R24 and R25 are the exact reals rounded once, `sin(π P / 2^32)` and `(2^(s/12) - 1) * 1000 / m`,
however the model computes them (log entry 6). `RoundsTo` rounds a real as R11 rounds a rational; that the default mapping
is infinite from `2^128 - 2^103` on is that formula's, against R25's finiteness, and the model's choice (log entry 12). -/
def Obligations.DefaultFunctionsRoundTheExactReals : Prop :=
  (∀ P : Word, P ≠ 0#32 → RoundsTo (Real.sin (Real.pi * P.toNat / 2 ^ 32)) (envFn .default P)) ∧
  (∀ s m : Word, isFinite s = true → isZero s = false → |val s| ≤ 12 → isFinitePos m = true →
    RoundsTo (((2 : ℝ) ^ ((val s : ℝ) / 12) - 1) * 1000 / (val m : ℝ)) (mapFreq .default s m))

/-! ### The command word (30_encoding.md) -/

/-- No operand of a well-formed command is lost in its word (R101, R103, R109). -/
def Obligations.DecodeOfEncodeIsTheCommand : Prop :=
  ∀ i : Instr, i.wf = true → decode (encode i) = .ok i

/-- Every word that is a command is that command's one word: no bit of it is ignored (R104). -/
def Obligations.EncodeOfDecodeIsTheWord : Prop :=
  ∀ (w : Word) (i : Instr), decode w = .ok i → i.wf = true ∧ encode i = w

/-- R105: the matching row's command with the fields `w[20]`, `w[19:16]`, `w[15:0]`; at most one row matches; with no
match the word is illegal. -/
def Obligations.DecodeFollowsTheOneMatchingRow : Prop :=
  ∀ w : Word,
    (∀ r ∈ opRows, (w &&& r.mask) = r.bits →
      decode w = .ok (r.build (if w.getLsbD 20 = true then .two else .one) ((w >>> 16) &&& 0xF#32).toNat
        (w &&& 0xFFFF#32).toNat)) ∧
    opRows.Pairwise (fun r q => ¬((w &&& r.mask) = r.bits ∧ (w &&& q.mask) = q.bits)) ∧
    ((∀ r ∈ opRows, (w &&& r.mask) ≠ r.bits) → ∃ e, decode w = .error e)

/-- Words written out from R101 and R103: one of each family, and three illegal ones (R104). -/
def Obligations.WrittenOutWordsDecode : Prop :=
  decode 0x01000000#32 = .ok .prepare ∧ decode 0x03000004#32 = .ok (.process 4) ∧
  decode 0x10000000#32 = .ok (.dlWrite 0) ∧ decode 0x11010003#32 = .ok (.dlRead 1 3) ∧
  decode 0x21110000#32 = .ok (.phAdvance .two 1) ∧ decode 0x31000003#32 = .ok (.grainRead 0 3) ∧
  decode 0x401F0002#32 = .ok (.voiceSample .two 15 2) ∧
  decode 0x03100004#32 = .error (.unusedBitSet 3) ∧ decode 0x41200000#32 = .error (.unusedBitSet 0x41) ∧
  decode 0x05000000#32 = .error (.unknownOpcode 5)

/-! ### The host's bus (10_state.md, 20_memory.md) -/

/-- R74 with R73: which accesses are bus errors, and that one changes nothing but the response the host gets. A legal read
changes nothing else either (R77), and a legal write is its register's or buffer word's effect and the response. The mapped
register offsets are written out from R32. -/
def Obligations.HostAccessIsAnsweredOrIsABusError : Prop :=
  ∀ (s : State) (off size : Nat) (w : Word),
    let mapped : Prop :=
      off ∈ [0x000, 0x004, 0x008, 0x00C, 0x010, 0x014, 0x018, 0x01C, 0x020, 0x024, 0x028, 0x02C, 0x030, 0x034,
        0x038] ∨
      off ∈ [0x040, 0x044, 0x048, 0x04C, 0x050, 0x054, 0x060, 0x064, 0x068, 0x070, 0x074, 0x078, 0x07C, 0x080] ∨
      (0x100 ≤ off ∧ off ≤ 0x1FF ∧ (off % 0x80) / 8 < s.hw.nch) ∨
      (0x10000 ≤ off ∧ off < 0x10000 + 4 * s.hw.nch * s.hw.bmax ∧ s.pending = none)
    let legal : Prop := size = 4 ∧ off % 4 = 0 ∧ mapped
    (legal →
      (∃ v, memRead off size s = .ok v ∧ hostAccess (.read off size) s = { s with response := .data v }) ∧
      ∃ t, memWrite off size w s = .ok t ∧ hostAccess (.write off size w) s = { t with response := .written }) ∧
    (¬legal → memRead off size s = .error (.busError off) ∧ memWrite off size w s = .error (.busError off) ∧
      hostAccess (.read off size) s = { s with response := .fault (.busError off) } ∧
      hostAccess (.write off size w) s = { s with response := .fault (.busError off) })

/-- R78, with the read-back of a buffer entry: every other entry reads as before, and nothing else changes. -/
def Obligations.BufferIsTheHostsExactlyWhileIdle : Prop :=
  ∀ (s : State) (off : Nat) (w : Word), s.Inv → 0x10000 ≤ off →
    (s.busy = true → memRead off 4 s = .error (.busError off) ∧ memWrite off 4 w s = .error (.busError off)) ∧
    (s.busy = false → off % 4 = 0 → off < 0x10000 + 4 * s.hw.nch * s.hw.bmax →
      ∃ t, memWrite off 4 w s = .ok t ∧ t = { s with iobuf := t.iobuf } ∧ memRead off 4 t = .ok w ∧
        ∀ a, a < off ∨ off + 4 ≤ a → t.iobuf.readByte a = s.iobuf.readByte a)

/-- What a host read of each register returns, by its offset in R32, but for `CMD`, `STATUS` and `IRQ_EN`, which have
statements of their own; that a write to a read-only one is ignored (R50); and that no step changes the five constants
(R33). -/
def Obligations.RegistersReadTheirStateAndReadOnlyOnesIgnoreWrites : Prop :=
  ∀ s : State,
    memRead 0x000 4 s = .ok 0x50534831#32 ∧ memRead 0x004 4 s = .ok 0x00000001#32 ∧
    memRead 0x008 4 s = .ok (BitVec.ofNat 32 s.hw.nch) ∧ memRead 0x00C 4 s = .ok (BitVec.ofNat 32 s.hw.nmax) ∧
    memRead 0x010 4 s = .ok (BitVec.ofNat 32 s.hw.bmax) ∧ memRead 0x020 4 s = .ok s.blkcnt ∧
    memRead 0x024 4 s = .ok s.args.a0 ∧ memRead 0x028 4 s = .ok s.args.a1 ∧ memRead 0x02C 4 s = .ok s.args.a2 ∧
    memRead 0x030 4 s = .ok s.res0 ∧ memRead 0x034 4 s = .ok s.res1 ∧ memRead 0x038 4 s = .ok s.res2 ∧
    memRead 0x040 4 s = .ok s.sr ∧ memRead 0x044 4 s = .ok s.blockSize ∧ memRead 0x048 4 s = .ok s.cap ∧
    memRead 0x04C 4 s = .ok s.widx ∧ memRead 0x050 4 s = .ok s.lastlen ∧ memRead 0x054 4 s = .ok s.winSamples ∧
    memRead 0x060 4 s = .ok s.windowMs ∧ memRead 0x064 4 s = .ok s.semi1 ∧ memRead 0x068 4 s = .ok s.semi2 ∧
    memRead 0x070 4 s = .ok s.freq1 ∧ memRead 0x074 4 s = .ok s.freq2 ∧ memRead 0x078 4 s = .ok s.msEff ∧
    memRead 0x07C 4 s = .ok s.semi1Eff ∧ memRead 0x080 4 s = .ok s.semi2Eff ∧
    (∀ off ∈ [0x000, 0x004, 0x008, 0x00C, 0x010, 0x020, 0x030, 0x034, 0x038, 0x040, 0x044, 0x048, 0x04C, 0x050, 0x054,
      0x070, 0x074, 0x078, 0x07C, 0x080], ∀ w, memWrite off 4 w s = .ok s) ∧
    ∀ t, step s = .next t → t.hw = s.hw

/-- The phasor file's place in the register window, and that a host write there is ignored (R45). -/
def Obligations.PhasorFileIsReadableAndReadOnly : Prop :=
  ∀ (s : State) (v : Voice) (c : Nat), s.hw.legal = true → c < s.hw.nch →
    let at0 := 0x100 + 0x80 * (if v = .two then 1 else 0) + 8 * c
    memRead at0 4 s = .ok (s.phasorAt v c).ph ∧ memRead (at0 + 4) 4 s = .ok (s.phasorAt v c).inc ∧
    ∀ w, memWrite at0 4 w s = .ok s ∧ memWrite (at0 + 4) 4 w s = .ok s

/-- Where each flag stands in the word the host reads from `STATUS`, and what a write of `w` to it clears (R35). -/
def Obligations.StatusReadsFlagsAndWriteOneClears : Prop :=
  ∀ (s : State) (w : Word),
    ∃ r t, memRead 0x018 4 s = .ok r ∧ memWrite 0x018 4 w s = .ok t ∧
      r.getLsbD 0 = s.pending.isSome ∧ r.getLsbD 1 = s.status.done ∧ r.getLsbD 2 = s.status.err ∧
      r.getLsbD 3 = s.status.prepared ∧ r.getLsbD 4 = s.status.clampWin ∧ r.getLsbD 5 = s.status.clampSemi ∧
      r.getLsbD 6 = s.status.clampDelay ∧ r.getLsbD 7 = s.status.clampCap ∧
      r.extractLsb' 8 8 = s.status.errcode ∧ r.extractLsb' 16 16 = 0#16 ∧
      t = { s with status := t.status } ∧
      t.status =
        { done := s.status.done && !w.getLsbD 1
          err := s.status.err && !w.getLsbD 2
          prepared := s.status.prepared
          clampWin := s.status.clampWin && !w.getLsbD 4
          clampSemi := s.status.clampSemi && !w.getLsbD 5
          clampDelay := s.status.clampDelay && !w.getLsbD 6
          clampCap := s.status.clampCap && !w.getLsbD 7
          errcode := if w.getLsbD 2 = true then 0#8 else s.status.errcode }

/-- R36. -/
def Obligations.IrqEnableKeepsItsTwoBits : Prop :=
  (∀ (s : State) (w : Word), ∃ t, memWrite 0x01C 4 w s = .ok t ∧ memRead 0x01C 4 t = .ok (w &&& 0x00000006#32) ∧
    t = { s with irqEn := t.irqEn } ∧ t.irqEn.doneIe = w.getLsbD 1 ∧ t.irqEn.errIe = w.getLsbD 2) ∧
  memRead 0x01C 4 State.reset = .ok 0#32

/-- R79: these writes are accepted whether or not a command is pending, take the value, change nothing else, and leave
the pending command with its own argument copies. The parameter and argument registers read back what was written (R38,
R43). -/
def Obligations.ParameterAndArgumentWritesAlwaysTaken : Prop :=
  ∀ (s : State) (w : Word),
    memWrite 0x060 4 w s = .ok { s with windowMs := w } ∧ memWrite 0x064 4 w s = .ok { s with semi1 := w } ∧
    memWrite 0x068 4 w s = .ok { s with semi2 := w } ∧
    memWrite 0x024 4 w s = .ok { s with args := ⟨w, s.args.a1, s.args.a2⟩ } ∧
    memWrite 0x028 4 w s = .ok { s with args := ⟨s.args.a0, w, s.args.a2⟩ } ∧
    memWrite 0x02C 4 w s = .ok { s with args := ⟨s.args.a0, s.args.a1, w⟩ } ∧
    (∃ t, memWrite 0x01C 4 w s = .ok t) ∧ (∃ t, memWrite 0x018 4 w s = .ok t) ∧
    (∀ off ∈ [0x060, 0x064, 0x068, 0x024, 0x028, 0x02C], ∀ t, memWrite off 4 w s = .ok t → memRead off 4 t = .ok w) ∧
    ∀ (p : Pending) (off : Nat) (t : State), s.pending = some p → memWrite off 4 w s = .ok t →
      t.pending = some p ∧ t.cmdArgs = p.args

/-- R76 and R223: a `CMD` write is accepted while no command is pending, whatever the word, and refused with
`E_BUSY` while one is. -/
def Obligations.CommandWriteAcceptsOrReportsBusy : Prop :=
  ∀ (s : State) (w : Word),
    (s.pending = none → memWrite 0x014 4 w s = .ok
      { s with pending := some ⟨w, ⟨s.args.a0, s.args.a1, s.args.a2⟩⟩
               status := { s.status with done := false } }) ∧
    (∀ p, s.pending = some p → memWrite 0x014 4 w s = .ok (errored s .busy) ∧
      (errored s .busy).pending = some p ∧ (errored s .busy).status.done = s.status.done) ∧
    memRead 0x014 4 s = .ok 0#32

/-- R87, with what else a host access may change while a command is pending: nothing that the engine owns. -/
def Obligations.HostCannotTouchAPendingCommand : Prop :=
  ∀ (s : State) (p : Pending) (a : Access), s.pending = some p →
    let t := hostAccess a s
    t = { s with status := t.status, irqEn := t.irqEn, args := t.args, windowMs := t.windowMs, semi1 := t.semi1
                 semi2 := t.semi2, response := t.response } ∧
    t.cmdArgs = p.args

/-! ### Errors and the interrupt (60_exceptions.md) -/

/-- R222: an erring command has no effect but the record of its error, the first error is kept, and the host's write of
1 to bit 2 of `STATUS` clears both fields. -/
def Obligations.ErringCommandOnlyRecordsItsError : Prop :=
  (∀ (i : Instr) (s : State) (e : ErrCode), commandError i s = some e →
    exec i s = .next (errored s e) ∧
    (errored s e).status.err = true ∧
    (s.status.err = false → (errored s e).status.errcode = e.code) ∧
    (s.status.err = true → (errored s e).status.errcode = s.status.errcode)) ∧
  ∀ (s : State) (w : Word), w.getLsbD 2 = true → ∃ t, memWrite 0x018 4 w s = .ok t ∧
    t.status.err = false ∧ t.status.errcode = 0#8

/-- R221's codes, and that a command with no error of R224 leaves `ERR` and `ERRCODE` as they were. -/
def Obligations.ErrorCodesAreTheTableAndNoOthersAreReported : Prop :=
  (ErrCode.illegalCmd.code = 0x01#8 ∧ ErrCode.busy.code = 0x02#8 ∧ ErrCode.notPrepared.code = 0x03#8 ∧
    ErrCode.cfgSampleRate.code = 0x04#8 ∧ ErrCode.cfgBlockSize.code = 0x05#8 ∧ ErrCode.blockLen.code = 0x06#8 ∧
    ErrCode.argRange.code = 0x07#8) ∧
  ∀ (i : Instr) (s : State), commandError i s = none →
    ∃ t, exec i s = .next t ∧ t.status.err = s.status.err ∧ t.status.errcode = s.status.errcode ∧
      t.status.done = s.status.done

/-- R226: the level, its two sources, its reset value and what takes it away; the clamp flags do not drive it. -/
def Obligations.InterruptIsTheEnabledFlags : Prop :=
  (∀ s : State,
    (s.irq = true ↔ (s.status.done = true ∧ s.irqEn.doneIe = true) ∨ (s.status.err = true ∧ s.irqEn.errIe = true)) ∧
    s.complete.status.done = true ∧ (∀ e, (s.recordError e).status.err = true) ∧
    (∀ cw cs cl cc, ({ s with status := { s.status with
      clampWin := cw, clampSemi := cs, clampDelay := cl, clampCap := cc } } : State).irq = s.irq) ∧
    (∃ t, memWrite 0x018 4 0x00000006#32 s = .ok t ∧ t.irq = false) ∧
    (∃ t, memWrite 0x01C 4 0x00000000#32 s = .ok t ∧ t.irq = false) ∧
    (∀ w t, s.pending = none → memWrite 0x014 4 w s = .ok t → t.status.done = false)) ∧
  State.reset.irq = false

/-! ### The step (30_encoding.md section 4) -/

/-- A step in which the engine has its turn performs the decoded command and then the handshake of R106, and nothing
else. -/
def Obligations.StepRunsTheDecodedCommand : Prop :=
  ∀ (s : State) (rest : List Event) (p : Pending) (i : Instr) (t : State),
    EngineNext s rest → s.pending = some p → decode p.word = .ok i → exec i { s with events := rest } = .next t →
    step s = .next { t with pending := none, status := { t.status with done := true } }

/-- R104 at execution, with the acceptance of R76: an illegal word is accepted like any other, and its engine step records
`E_ILLEGAL_CMD` and completes. -/
def Obligations.IllegalWordIsFoundAtExecution : Prop :=
  (∀ w : Word, (∃ e, decode w = .error e) ↔ ∀ r ∈ opRows, (w &&& r.mask) ≠ r.bits) ∧
  (∀ (s : State) (w : Word), s.pending = none →
    ∃ t, memWrite 0x014 4 w s = .ok t ∧ t.pending = some ⟨w, s.args⟩ ∧ t.status.err = s.status.err) ∧
  ∀ (s : State) (rest : List Event) (p : Pending) (e : DecodeError),
    EngineNext s rest → s.pending = some p → decode p.word = .error e →
    step s = .next { s with
      events := rest
      pending := none
      status := { s.status with
        done := true, err := true, errcode := if s.status.err = true then s.status.errcode else 0x01#8 } }

/-- A `CMD` write and a `wait` end with the command completed and the host having read `BUSY = 0` and `DONE = 1` (R83,
R106, R110). That the wait ends, and after three steps, is the model's own: the polls that read `BUSY = 1` are left out (log
entry 9), the engine takes the turns of a waiting host (log entry 8), and R106 and R262 bound nothing. -/
def Obligations.WaitReturnsAfterTheCommand : Prop :=
  ∀ (s : State) (w : Word), s.pending = none →
    s.events = [.access (.write 0x014 4 w), .wait] →
    ∃ a b c r, step s = .next a ∧ step a = .next b ∧ step b = .next c ∧ c.events = [] ∧ c.pending = none ∧
      c.response = .data r ∧ r.getLsbD 0 = false ∧ r.getLsbD 1 = true

/-- R84 (a) and (b), for `SEMI1` and APPLY: a write before the engine step is seen by it, one after it is not. -/
def Obligations.ParameterSeenExactlyIfWrittenBeforeTheStep : Prop :=
  ∀ (s : State) (p : Pending) (w : Word), s.status.prepared = true → s.pending = some p →
    decode p.word = .ok .apply →
    (s.events = [.access (.write 0x064 4 w), .engine] →
      ∃ a b, step s = .next a ∧ step a = .next b ∧ b.semi1 = w ∧ b.semi1Eff = (clampSemi w).1) ∧
    (s.events = [.engine, .access (.write 0x064 4 w)] →
      ∃ a b, step s = .next a ∧ step a = .next b ∧ b.semi1 = w ∧ b.semi1Eff = (clampSemi s.semi1).1)

/-! ### Engine control (46_engine_control.md) -/

/-- R200: NOP is legal in every state and does nothing but the handshake. -/
def Obligations.NopOnlyCompletesTheHandshake : Prop :=
  decode 0x00000000#32 = .ok .nop ∧ (∀ s : State, exec .nop s = .next s) ∧
  ∀ (s : State) (rest : List Event) (p : Pending), EngineNext s rest → s.pending = some p → p.word = 0x00000000#32 →
    step s = .next { s with events := rest, pending := none, status := { s.status with done := true } }

/-- PREPARE with a legal configuration opens a session (R201 to R203): the configuration and the capacity, silence,
the stream state and every phase zero, the parameters latched and both voices tuned; nothing else changes. -/
def Obligations.PrepareOpensASession : Prop :=
  ∀ s : State, s.Inv → isFinitePos s.cmdArgs.a0 = true → 1 ≤ s.cmdArgs.a1.toNat → s.cmdArgs.a1.toNat ≤ s.hw.bmax →
    let sec := if isFinitePos s.cmdArgs.a2 = true then s.cmdArgs.a2 else 0x3F800000#32
    let want : ℤ := ⌈val sec * val s.cmdArgs.a0⌉
    ∃ t, exec .prepare s = .next t ∧
      t.sr = s.cmdArgs.a0 ∧ t.blockSize = s.cmdArgs.a1 ∧
      (t.cap.toNat : ℤ) = min (s.hw.nmax : ℤ) (max (s.cmdArgs.a1.toNat + 1) want) ∧
      t.status.clampCap = (s.status.clampCap || !isFinitePos s.cmdArgs.a2 || decide ((t.cap.toNat : ℤ) ≠ want)) ∧
      (∀ c k, t.dlAt c k = 0x00000000#32) ∧ t.widx = 0#32 ∧ t.lastlen = 0#32 ∧ t.blkcnt = 0#32 ∧
      (∀ v c, (t.phasorAt v c).ph = 0#32) ∧ t.status.prepared = true ∧
      Latched s t ∧ Tuned t .one ∧ Tuned t .two ∧
      t = { s with
        sr := t.sr, blockSize := t.blockSize, cap := t.cap, dl := t.dl, widx := t.widx, lastlen := t.lastlen
        blkcnt := t.blkcnt, phasors1 := t.phasors1, phasors2 := t.phasors2, winSamples := t.winSamples
        msEff := t.msEff, semi1Eff := t.semi1Eff, semi2Eff := t.semi2Eff, freq1 := t.freq1, freq2 := t.freq2
        status := { s.status with
          prepared := true, clampCap := t.status.clampCap, clampWin := t.status.clampWin
          clampSemi := t.status.clampSemi } }

/-- APPLY latches the parameters (R204) and tunes a voice exactly when its effective window or transposition changed
bit for bit (R208); no phase moves, and nothing else changes. -/
def Obligations.ApplyLatchesAndRetunesChangedVoices : Prop :=
  ∀ s : State, s.Inv → s.status.prepared = true →
    ∃ t, exec .apply s = .next t ∧ Latched s t ∧
      (∀ v, (t.msEff ≠ s.msEff ∨ t.semiEff v ≠ s.semiEff v) → Tuned t v) ∧
      (∀ v, t.msEff = s.msEff → t.semiEff v = s.semiEff v →
        t.freq v = s.freq v ∧ ∀ c, (t.phasorAt v c).inc = (s.phasorAt v c).inc) ∧
      (∀ v c, (t.phasorAt v c).ph = (s.phasorAt v c).ph) ∧
      t = { s with
        winSamples := t.winSamples, msEff := t.msEff, semi1Eff := t.semi1Eff, semi2Eff := t.semi2Eff
        freq1 := t.freq1, freq2 := t.freq2, phasors1 := t.phasors1, phasors2 := t.phasors2
        status := { s.status with clampWin := t.status.clampWin, clampSemi := t.status.clampSemi } }

/-- R205: `msCap` is the largest binary32 window the room allows, and a request is clamped to `[5, min(300, msCap)]`, or
to `msCap` where that lies below 5. -/
def Obligations.WindowRequestIsClampedToTheRoom : Prop :=
  ∀ (s : State) (x : Word), s.Inv → s.status.prepared = true →
    let cap := s.msCap
    let hi : ℚ := min (val cap) 300
    let room : ℚ := ((s.cap.toNat - s.blockSize.toNat : ℕ) : ℚ) * 1000 / val s.sr
    isFinitePos cap = true ∧ val cap ≤ room ∧ (∀ w, isFinite w = true → val w ≤ room → val w ≤ val cap) ∧
    (val cap < 5 → clampMs x cap = (cap, x != cap)) ∧
    (5 ≤ val cap →
      (isNaN x = true → clampMs x cap = (0x40A00000#32, true)) ∧
      (isInf x = true → signBit x = true → clampMs x cap = (0x40A00000#32, true)) ∧
      (isInf x = true → signBit x = false →
        clampMs x cap = (if val cap < 300 then cap else 0x43960000#32, true)) ∧
      (isFinite x = true → val x < 5 → clampMs x cap = (0x40A00000#32, true)) ∧
      (isFinite x = true → hi < val x → clampMs x cap = (if val cap < 300 then cap else 0x43960000#32, true)) ∧
      (isFinite x = true → 5 ≤ val x → val x ≤ hi → clampMs x cap = (x, false)))

/-- R206: at every APPLY the window in samples is the exact product rounded half away from zero, bounded to
`[1, CAP - BLOCK_SIZE]`; the lower bound sets `CLAMP_WIN`, and the upper one never takes effect. -/
def Obligations.WindowSamplesRoundHalfAway : Prop :=
  ∀ s : State, s.Inv → s.status.prepared = true →
    let ms := (clampMs s.windowMs s.msCap).1
    let exact : ℚ := val ms * val s.sr / 1000
    let raw := windowRaw ms s.sr
    exact - 1 / 2 < raw ∧ (raw : ℚ) ≤ exact + 1 / 2 ∧ raw ≤ s.cap.toNat - s.blockSize.toNat ∧
    ∀ force, (s.applyParams force).winSamples.toNat = max 1 raw ∧
      (s.applyParams force).status.clampWin =
        (s.status.clampWin || (clampMs s.windowMs s.msCap).2 || decide (raw < 1))

/-- R207. -/
def Obligations.TranspositionIsClamped : Prop :=
  ∀ x : Word,
    (isNaN x = true → clampSemi x = (0x00000000#32, true)) ∧
    (isInf x = true → clampSemi x = (if signBit x = true then 0xC1400000#32 else 0x41400000#32, true)) ∧
    (isFinite x = true →
      (val x < -12 → clampSemi x = (0xC1400000#32, true)) ∧ (12 < val x → clampSemi x = (0x41400000#32, true)) ∧
      (-12 ≤ val x → val x ≤ 12 → clampSemi x = (x, false)))

/-! ### The delay buffer and the interpolator (41, 42) -/

/-- DL_WRITE (R131): the block bit for bit into the `L` slots from `WIDX`, in every channel; no other byte of the delay
RAM changes, and no other state but `WIDX` and `LASTLEN`. -/
def Obligations.DelayWriteStoresTheBlock : Prop :=
  ∀ (s : State) (n L : Nat), BlockFits s n L →
    ∃ t, exec (.dlWrite n) s = .next t ∧
      t = { s with dl := t.dl, widx := t.widx, lastlen := t.lastlen } ∧
      t.widx.toNat = (s.widx.toNat + L) % s.cap.toNat ∧ t.lastlen.toNat = L ∧
      (∀ c < s.hw.nch, ∀ k < L,
        t.dl.readWord (4 * (c * s.hw.nmax + (s.widx.toNat + k) % s.cap.toNat)) =
          s.iobuf.readWord (0x10000 + 4 * (c * s.hw.bmax + k))) ∧
      ∀ a, (∀ c < s.hw.nch, ∀ k < L, a < dlAddr s.hw c (s.writeSlot k) ∨ dlAddr s.hw c (s.writeSlot k) + 4 ≤ a) →
        t.dl.readByte a = s.dl.readByte a

/-- R140. -/
def Obligations.DelayOperandIsClampedToTheWindow : Prop :=
  ∀ (s : State) (x : Word) (i : Nat), s.lastlen.toNat ≤ s.cap.toNat →
    let t := s.clampDelay x i
    let dmax : ℕ := s.cap.toNat - s.lastlen.toNat + i
    (isNaN x = true → t = ⟨0, 0#32, true⟩) ∧
    (isZero x = true → t = ⟨0, 0#32, false⟩) ∧
    (isNaN x = false → isZero x = false → signBit x = true → t = ⟨0, 0#32, true⟩) ∧
    (isInf x = true → signBit x = false → t = ⟨dmax, 0#32, true⟩) ∧
    (isFinite x = true → (dmax : ℚ) < val x → t = ⟨dmax, 0#32, true⟩) ∧
    (isFinite x = true → 0 < val x → val x ≤ dmax →
      t.clamped = false ∧ (t.d : ℤ) = ⌊val x⌋ ∧ isFinite t.fr = true ∧ signBit t.fr = false ∧
        val t.fr = val x - ⌊val x⌋)

/-- DL_READ (R142) reads the interpolated sample at the clamped delay, sets `CLAMP_DELAY` when the delay was clamped, and
changes nothing else. -/
def Obligations.DelayReadReturnsTheInterpolatedSample : Prop :=
  ∀ (s : State) (ch k : Nat), Indexed s ch k →
    let t := s.clampDelay s.cmdArgs.a0 k
    let slot : ℕ → ℕ := fun d => (((s.widx.toNat : ℤ) - s.lastlen.toNat + k - d) % s.cap.toNat).toNat
    let s0 := s.dlAt ch (slot t.d)
    let s1 := s.dlAt ch (slot (t.d + 1))
    exec (.dlRead ch k) s = .next { s with
      res0 := if isZero t.fr = true then s0 else add32 s0 (mul32 t.fr (sub32 s1 s0))
      status := { s.status with clampDelay := s.status.clampDelay || t.clamped } }

/-- R144: at an integral delay within the window the stored word comes back exactly. -/
def Obligations.IntegralDelayReadsTheStoredWord : Prop :=
  ∀ (s : State) (ch k d : Nat), Indexed s ch k → isFinite s.cmdArgs.a0 = true → val s.cmdArgs.a0 = d →
    d ≤ s.cap.toNat - s.lastlen.toNat + k →
    exec (.dlRead ch k) s = .next { s with
      res0 := s.dl.readWord (4 * (ch * s.hw.nmax +
        (s.widx.toNat + 2 * s.cap.toNat - s.lastlen.toNat + k - d) % s.cap.toNat)) }

/-- R134: a DL_WRITE and then a DL_READ at delay `+0.0` or `-0.0` returns the sample just written, bit for bit. -/
def Obligations.ReadAtZeroDelayReturnsTheSampleJustWritten : Prop :=
  ∀ (s : State) (n L c k : Nat) (w : Word) (q : Args), BlockFits s n L → c < s.hw.nch → k < L → isZero q.a0 = true →
    ∃ t u, exec (.dlWrite n) s = .next t ∧
      t.dlAt c ((t.widx.toNat + s.cap.toNat - L + k) % s.cap.toNat) = s.iobufAt c k ∧
      exec (.dlRead c k) { t with pending := some ⟨w, q⟩ } = .next u ∧ u.res0 = s.iobufAt c k

/-- R143: the slot a read addresses at delay `d <= dmax(i)` is that of a sample of the valid window, `age` samples
behind the newest one. -/
def Obligations.ReadsStayInTheValidWindow : Prop :=
  ∀ (s : State) (k d : Nat), s.Inv → s.status.prepared = true → k < s.lastlen.toNat →
    d ≤ s.cap.toNat - s.lastlen.toNat + k →
    let age := s.lastlen.toNat - 1 - k + d
    age < s.cap.toNat ∧ s.readSlot k d = (s.widx.toNat + s.cap.toNat - 1 - age) % s.cap.toNat

/-! ### The phasor (43) -/

/-- R155, with the negative, whole and non-finite frequencies of R156. -/
def Obligations.IncrementIsTheRoundedFrequency : Prop :=
  ∀ sr f : Word, isFinitePos sr = true →
    ((isNaN f = true ∨ isInf f = true) → incOf sr f = 0#32) ∧
    (isFinite f = true →
      (∃ z : ℤ, incOf sr f = BitVec.ofInt 32 z ∧ |(z : ℚ) - val f / val sr * 2 ^ 32| ≤ 1 / 2 ∧
        (|(z : ℚ) - val f / val sr * 2 ^ 32| = 1 / 2 → Even z)) ∧
      incOf sr (f ^^^ 0x80000000#32) = 0#32 - incOf sr f ∧
      (∀ k : ℤ, val f = k * val sr → incOf sr f = 0#32) ∧
      (val f = 3 / 2 * val sr → incOf sr f = 0x80000000#32))

/-- PH_SETFREQ (R152): the one increment, and `RES0` with it; no phase, no other phasor, no flag and no `FREQ` changes. -/
def Obligations.SetFrequencyChangesOneIncrement : Prop :=
  ∀ (s : State) (v : Voice) (ch : Nat), s.Inv → s.status.prepared = true → ch < s.hw.nch →
    ∃ t, exec (.phSetfreq v ch) s = .next t ∧ t.res0 = incOf s.sr s.cmdArgs.a0 ∧
      t.phasorAt v ch = ⟨(s.phasorAt v ch).ph, incOf s.sr s.cmdArgs.a0⟩ ∧
      (∀ u c, (u, c) ≠ (v, ch) → t.phasorAt u c = s.phasorAt u c) ∧
      t = { s with phasors1 := t.phasors1, phasors2 := t.phasors2, res0 := t.res0 }

/-- PH_ADVANCE (R153): the phase before the step in `RES0`, the phase after it, modulo 2^32, in `RES1` and in the phasor;
nothing else changes. -/
def Obligations.AdvanceStepsOnePhase : Prop :=
  ∀ (s : State) (v : Voice) (ch : Nat), s.Inv → s.status.prepared = true → ch < s.hw.nch →
    let P := (s.phasorAt v ch).ph
    let I := (s.phasorAt v ch).inc
    ∃ t, exec (.phAdvance v ch) s = .next t ∧ t.res0 = P ∧ t.res1.toNat = (P.toNat + I.toNat) % 2 ^ 32 ∧
      t.phasorAt v ch = ⟨t.res1, I⟩ ∧ (∀ u c, (u, c) ≠ (v, ch) → t.phasorAt u c = s.phasorAt u c) ∧
      t = { s with phasors1 := t.phasors1, phasors2 := t.phasors2, res0 := t.res0, res1 := t.res1 }

/-- PH_RESET (R154): the one phase becomes the argument; nothing else changes. -/
def Obligations.PhaseResetSetsOnePhase : Prop :=
  ∀ (s : State) (v : Voice) (ch : Nat), s.Inv → s.status.prepared = true → ch < s.hw.nch →
    ∃ t, exec (.phReset v ch) s = .next t ∧ t.phasorAt v ch = ⟨s.cmdArgs.a0, (s.phasorAt v ch).inc⟩ ∧
      (∀ u c, (u, c) ≠ (v, ch) → t.phasorAt u c = s.phasorAt u c) ∧
      t = { s with phasors1 := t.phasors1, phasors2 := t.phasors2 }

/-- The first two sentences of R158: the phase after `k` steps, and when it is back. -/
def Obligations.PhaseAfterManySteps : Prop :=
  ∀ (s : State) (v : Voice) (c k : Nat), s.Inv → c < s.hw.nch →
    let P := (s.phasorAt v c).ph
    let I := (s.phasorAt v c).inc
    let t := (fun u : State => u.stepPhase v c)^[k] s
    (t.phasorAt v c).ph.toNat = (P.toNat + k * I.toNat) % 2 ^ 32 ∧ (t.phasorAt v c).inc = I ∧
    ((k * I.toNat) % 2 ^ 32 = 0 → t.phasorAt v c = s.phasorAt v c)

/-! ### The grain (44) -/

/-- GRAIN_EVAL (R174) with R171: the envelope, and the exact read delay `WS * (2^32 - P)` in two parts; nothing else
changes. -/
def Obligations.GrainEvalReportsTheExactDelay : Prop :=
  ∀ s : State, s.status.prepared = true →
    ∃ t, exec .grainEval s = .next t ∧ t.res0 = envFn s.hw.env s.cmdArgs.a0 ∧
      t.res1.toNat * 2 ^ 32 + t.res2.toNat = s.winSamples.toNat * (2 ^ 32 - s.cmdArgs.a0.toNat) ∧
      t.res1.toNat ≤ s.winSamples.toNat ∧
      t = { s with res0 := t.res0, res1 := t.res1, res2 := t.res2 }

/-- R176: a grain's read meets the preconditions of `interp`. -/
def Obligations.GrainReadsStayInTheWindow : Prop :=
  ∀ (s : State) (P : Word) (k : Nat), s.Inv → s.status.prepared = true →
    let dmax := s.cap.toNat - s.lastlen.toNat + k
    let fr := fracWord (s.grainFrac P)
    s.grainInt P ≤ s.winSamples.toNat ∧ (0 < s.grainFrac P → s.grainInt P < s.winSamples.toNat) ∧
    s.winSamples.toNat ≤ s.cap.toNat - s.blockSize.toNat ∧
    s.cap.toNat - s.blockSize.toNat ≤ s.cap.toNat - s.lastlen.toNat ∧ s.cap.toNat - s.lastlen.toNat ≤ dmax ∧
    s.grainInt P ≤ dmax ∧ isFinite fr = true ∧ 0 ≤ val fr ∧ val fr ≤ 1 ∧ (0 < val fr → s.grainInt P < dmax)

/-- GRAIN_READ (R175): the interpolated sample at the grain's delay times the envelope, in `RES0`; nothing else changes. -/
def Obligations.GrainReadReturnsTheShapedSample : Prop :=
  ∀ (s : State) (ch k : Nat), Indexed s ch k →
    let P := s.cmdArgs.a0
    let D := s.winSamples.toNat * (2 ^ 32 - P.toNat)
    exec (.grainRead ch k) s = .next { s with
      res0 := mul32 (s.interp ch k (D / 2 ^ 32) (rne32 ((D % 2 ^ 32 : ℕ) : ℤ) (2 ^ 32))) (envFn s.hw.env P) }

/-! ### The mixer (45) -/

/-- VOICE_SAMPLE (R181): the two grains half a cycle apart at the phase before the step, that phase in `RES1`, and one
step of that phasor; nothing else changes. -/
def Obligations.VoiceSampleSumsTwoGrains : Prop :=
  ∀ (s : State) (v : Voice) (ch k : Nat), Indexed s ch k →
    let P := (s.phasorAt v ch).ph
    ∃ t, exec (.voiceSample v ch k) s = .next t ∧
      t.res0 = add32 (s.grain ch k P) (s.grain ch k (P + 0x80000000#32)) ∧ t.res1 = P ∧
      t.phasorAt v ch = ⟨P + (s.phasorAt v ch).inc, (s.phasorAt v ch).inc⟩ ∧
      (∀ u c, (u, c) ≠ (v, ch) → t.phasorAt u c = s.phasorAt u c) ∧
      t = { s with phasors1 := t.phasors1, phasors2 := t.phasors2, res0 := t.res0, res1 := t.res1 }

/-- MIX_SAMPLE (R183): both voices' contributions added and trimmed, in `RES0`, and one step of each voice's phasor of the
channel; nothing else changes. -/
def Obligations.MixSampleTrimsTheSumOfTheVoices : Prop :=
  ∀ (s : State) (ch k : Nat), Indexed s ch k →
    let y : Voice → Word := fun v =>
      add32 (s.grain ch k (s.phasorAt v ch).ph) (s.grain ch k ((s.phasorAt v ch).ph + 0x80000000#32))
    ∃ t, exec (.mixSample ch k) s = .next t ∧ t.res0 = mul32 (add32 (y .one) (y .two)) 0x3F353BEF#32 ∧
      (∀ v, t.phasorAt v ch = ⟨(s.phasorAt v ch).ph + (s.phasorAt v ch).inc, (s.phasorAt v ch).inc⟩) ∧
      (∀ v c, c ≠ ch → t.phasorAt v c = s.phasorAt v c) ∧
      t = { s with phasors1 := t.phasors1, phasors2 := t.phasors2, res0 := t.res0 }

/-- PROCESS (R184): after the parameter latch and the block write, output sample `k` of a channel is the mix taken after
`k` steps of that channel's phasors; each phasor has stepped `L` times, `BLKCNT` has counted one, no byte of the I/O
buffer outside the block changes, and no other state does. -/
def Obligations.ProcessMixesTheBlockInPlace : Prop :=
  ∀ (s : State) (n L : Nat), BlockFits s n L →
    let u := (s.applyParams false).writeBlock L
    ∃ t, exec (.process n) s = .next t ∧
      t = { u with iobuf := t.iobuf, phasors1 := t.phasors1, phasors2 := t.phasors2, blkcnt := s.blkcnt + 1#32 } ∧
      (∀ v, ∀ c < s.hw.nch, t.phasorAt v c =
        ⟨(u.phasorAt v c).ph + BitVec.ofNat 32 L * (u.phasorAt v c).inc, (u.phasorAt v c).inc⟩) ∧
      (∀ c < s.hw.nch, ∀ k < L,
        t.iobufAt c k = ((fun x : State => x.stepBoth c)^[k] u).mixValue c k) ∧
      ∀ a, (∀ c < s.hw.nch, ∀ k < L, a < iobufAddr s.hw c k ∨ iobufAddr s.hw c k + 4 ≤ a) →
        t.iobuf.readByte a = s.iobuf.readByte a

/-- R185: any order that visits each channel's samples in increasing index gives the same block. -/
def Obligations.MixOrderDoesNotMatter : Prop :=
  ∀ (s : State) (L : Nat) (order : List (Nat × Nat)), s.Inv → L ≤ s.hw.bmax →
    (∀ x ∈ order, x.1 < s.hw.nch) →
    (∀ c < s.hw.nch, (order.filter (fun x => x.1 == c)).map Prod.snd = List.range L) →
    order.foldl (fun t x => t.mixInto x.1 x.2) s = s.mixBlock L

/-- R241: whatever the samples and the parameters hold, a PROCESS within `BLOCK_SIZE` completes without error. -/
def Obligations.PreparedProcessNeverErrs : Prop :=
  ∀ (s : State) (rest : List Event) (p : Pending) (n : Nat), s.status.prepared = true → n ≤ s.blockSize.toNat →
    EngineNext s rest → s.pending = some p → decode p.word = .ok (.process n) →
    ∃ t, step s = .next t ∧ t.status.err = s.status.err ∧ t.status.errcode = s.status.errcode ∧
      t.status.done = true ∧ t.pending = none

/-- A channel whose delay RAM holds only `+0.0` in the session's `CAP` slots gives only zeros, whatever the other channels
hold (R186). -/
def Obligations.SilentRamGivesSilentOutput : Prop :=
  ∀ (s : State) (c k : Nat), s.Inv → s.status.prepared = true → (∀ j < s.cap.toNat, s.dlAt c j = 0x00000000#32) →
    isZero (s.mixValue c k) = true

/-- Unison (R187): both phases 0, an even window and a finite grain A sample give twice the sample half a window behind,
trimmed; a zero sample gives a zero. -/
def Obligations.UnisonIsTwiceTheSampleHalfAWindowBehind : Prop :=
  ∀ (s : State) (c k : Nat), (∀ v, (s.phasorAt v c).ph = 0#32) → s.winSamples.toNat % 2 = 0 →
    isFinite (s.dlAt c (s.readSlot k s.winSamples.toNat)) = true →
    let x := s.dlAt c (s.readSlot k (s.winSamples.toNat / 2))
    (isZero x = false → s.mixValue c k = mul32 (add32 x x) 0x3F353BEF#32) ∧
    (isZero x = true → isZero (s.mixValue c k) = true)

/-! ### Reset (70_reset_and_hazards.md) -/

/-- R250, but for the contents of `DL` and `IOBUF`, which the rule leaves unspecified: the state after power-on, and after
a reset from any state. -/
def Obligations.ResetValuesAreTheTable : Prop :=
  let table : State → Prop := fun t =>
    memRead 0x000 4 t = .ok 0x50534831#32 ∧ memRead 0x004 4 t = .ok 1#32 ∧
    memRead 0x008 4 t = .ok (BitVec.ofNat 32 t.hw.nch) ∧ memRead 0x00C 4 t = .ok (BitVec.ofNat 32 t.hw.nmax) ∧
    memRead 0x010 4 t = .ok (BitVec.ofNat 32 t.hw.bmax) ∧
    t.statusWord = 0#32 ∧ t.irqEn.word = 0#32 ∧ t.irq = false ∧ t.blkcnt = 0#32 ∧ t.args = ⟨0#32, 0#32, 0#32⟩ ∧
    t.res0 = 0#32 ∧ t.res1 = 0#32 ∧ t.res2 = 0#32 ∧ t.sr = 0#32 ∧ t.blockSize = 0#32 ∧ t.cap = 0#32 ∧
    t.widx = 0#32 ∧ t.lastlen = 0#32 ∧ t.winSamples = 0#32 ∧ t.windowMs = 0x42480000#32 ∧ t.semi1 = 0#32 ∧
    t.semi2 = 0#32 ∧ t.freq1 = 0#32 ∧ t.freq2 = 0#32 ∧ t.msEff = 0#32 ∧ t.semi1Eff = 0#32 ∧ t.semi2Eff = 0#32 ∧
    (∀ v c, t.phasorAt v c = ⟨0#32, 0#32⟩) ∧ t.pending = none
  table State.reset ∧
  ∀ (s : State) (rest : List Event), s.events = .reset :: rest → ∃ t, step s = .next t ∧ table t ∧ t.hw = s.hw

/-- R251: a reset abandons the pending command, and a reset during a host access ends that access with no effect. -/
def Obligations.ResetAbandonsCommandAndAccess : Prop :=
  ∀ (s : State) (rest : List Event) (p : Option Pending) (a : Access),
    step { s with events := .reset :: rest, pending := p } =
      step { s with events := .reset :: rest, pending := none } ∧
    step { s with events := .resetDuring a :: rest, pending := p } =
      step { s with events := .reset :: rest, pending := none } ∧
    ∃ t, step { s with events := .reset :: rest, pending := p } = .next t ∧ t.pending = none ∧ t.events = rest ∧
      t.irqEn = ⟨false, false⟩

/-! ### The whole machine -/

/-- The invariant holds after reset. -/
def Obligations.InvariantHoldsAtReset : Prop := State.reset.Inv

/-- Every step keeps the invariant: the session's registers stay in their ranges (R40, R41, R42, R54), the session is
blank until PREPARE, `ERRCODE` goes with `ERR`, the phasor file has one phasor per voice and channel, and both memories
keep their canonical form and their bounds. -/
def Obligations.StepKeepsTheInvariant : Prop :=
  ∀ s t : State, s.Inv → step s = .next t → t.Inv

/-- No step of the machine stops: no command, no input and no data value ends a run (R220, R241). R225 calls a bus error a
fault of the one access that caused it; that the machine gives it to the host as that access's response and goes on is the
model's choice (log entry 10), and so is what a step does with no input to come (log entry 8). -/
def Obligations.EveryStepGoesOn : Prop :=
  (∀ (i : Instr) (s : State), ∃ t, exec i s = .next t) ∧ ∀ s : State, SafeStep s

/-- Which commands write what (R38, R39, R43, R45, R47, R48): every other command leaves it. -/
def Obligations.OnlyTheNamedCommandsWriteEachStore : Prop :=
  ∀ (i : Instr) (s t : State), exec i s = .next t →
    (t.hw = s.hw ∧ t.args = s.args ∧ t.irqEn = s.irqEn ∧ t.windowMs = s.windowMs ∧ t.semi1 = s.semi1 ∧
      t.semi2 = s.semi2 ∧ t.pending = s.pending ∧ t.events = s.events ∧ t.response = s.response) ∧
    ((∀ ch k, i ≠ .dlRead ch k ∧ i ≠ .grainRead ch k ∧ i ≠ .mixSample ch k) → i ≠ .grainEval →
      (∀ v ch k, i ≠ .phSetfreq v ch ∧ i ≠ .phAdvance v ch ∧ i ≠ .voiceSample v ch k) →
      t.res0 = s.res0 ∧ t.res1 = s.res1 ∧ t.res2 = s.res2) ∧
    (i ≠ .prepare → (∀ n, i ≠ .process n) → (∀ ch k, i ≠ .mixSample ch k) →
      (∀ v ch k, i ≠ .phReset v ch ∧ i ≠ .phAdvance v ch ∧ i ≠ .voiceSample v ch k) →
      ∀ v c, (t.phasorAt v c).ph = (s.phasorAt v c).ph) ∧
    (i ≠ .prepare → i ≠ .apply → (∀ n, i ≠ .process n) → (∀ v ch, i ≠ .phSetfreq v ch) →
      ∀ v c, (t.phasorAt v c).inc = (s.phasorAt v c).inc) ∧
    (i ≠ .prepare → (∀ n, i ≠ .process n ∧ i ≠ .dlWrite n) → t.dl = s.dl) ∧
    ((∀ n, i ≠ .process n) → t.iobuf = s.iobuf)

/-- R37: a PROCESS without error counts one modulo 2^32, a successful PREPARE and reset give 0, and nothing else changes
the count. -/
def Obligations.BlockCounterCountsCompletedBlocks : Prop :=
  (∀ (i : Instr) (s t : State), exec i s = .next t →
    (∀ n, i = .process n → commandError i s = none → t.blkcnt.toNat = (s.blkcnt.toNat + 1) % 2 ^ 32) ∧
    (i = .prepare → commandError i s = none → t.blkcnt = 0#32) ∧
    ((commandError i s ≠ none ∨ (i ≠ .prepare ∧ ∀ n, i ≠ .process n)) → t.blkcnt = s.blkcnt)) ∧
  (∀ (a : Access) (s : State), (hostAccess a s).blkcnt = s.blkcnt) ∧ State.reset.blkcnt = 0#32

/-- `STATUS.PREPARED` is set only by a PREPARE that succeeds and cleared only by reset (R35). -/
def Obligations.OnlyPreparePreparesAndOnlyResetUnprepares : Prop :=
  ∀ s t : State, step s = .next t →
    (s.status.prepared = false → t.status.prepared = true →
      ∃ p, s.pending = some p ∧ decode p.word = .ok .prepare ∧ commandError .prepare s = none) ∧
    (s.status.prepared = true → t.status.prepared = false →
      ∃ rest, s.events = .reset :: rest ∨ ∃ a, s.events = .resetDuring a :: rest)
end

