-- ==== Sys2Proof/Laws/Binary32.lean ====
section
/-! SUPPORT. What the two roundings to binary32 and the classification of words say, on magnitudes in units of
2^-149. -/

namespace Sys2Proof.Machine

/-- `magUnits` as a function of the 31 magnitude bits. -/
def magVal (k : Nat) : Nat := if k / 2^23 = 0 then k else (2^23 + k % 2^23) * 2^(k / 2^23 - 1)

theorem magUnits_eq (w : Word) : magUnits w = magVal (w.toNat % 2^31) := by
  have h1 : expField w = (w.toNat % 2^31) / 2^23 := by
    simp [expField, BitVec.extractLsb'_toNat, Nat.shiftRight_eq_div_pow]; omega
  have h2 : fracField w = (w.toNat % 2^31) % 2^23 := by
    simp [fracField, BitVec.extractLsb'_toNat]
  unfold magUnits magVal
  rw [h1, h2]
  split
  · omega
  · rfl

/-- Magnitude bits split into a scale and a significand. -/
theorem magVal_cases (k : Nat) : ∃ T m, k = T * 2^23 + m ∧ magVal k = m * 2^T ∧ (T = 0 ∧ m < 2^24 ∨ 2^23 ≤ m ∧ m < 2^24) := by
  by_cases h : k / 2^23 = 0
  · exact ⟨0, k, by omega, by rw [magVal, if_pos h]; simp, .inl ⟨rfl, by omega⟩⟩
  · refine ⟨k/2^23 - 1, 2^23 + k%2^23, by omega, by rw [magVal, if_neg h], .inr (by omega)⟩

theorem magVal_of (T m : Nat) (h : T = 0 ∨ 2^23 ≤ m) (hm : m ≤ 2^24) : magVal (T*2^23+m) = m * 2^T := by
  unfold magVal
  by_cases hm24 : m = 2^24
  · subst hm24
    rw [show (T*2^23+2^24)/2^23 = T+2 by omega, show (T*2^23+2^24)%2^23 = 0 by omega]
    simp [pow_succ]; ring
  · by_cases hlt : m < 2^23
    · obtain rfl : T = 0 := by omega
      rw [if_pos (by omega)]; simp
    · rw [if_neg (by omega), show (T*2^23+m)%2^23 = m - 2^23 by omega, show (T*2^23+m)/2^23 -1 = T by omega, show 2^23+(m-2^23)=m by omega]

theorem roundHalfEvenNat_near (n d : Nat) (hd : 0 < d) : 
   2 * roundHalfEvenNat n d * d ≤ 2*n + d ∧ 2*n ≤ 2 * roundHalfEvenNat n d * d + d ∧
   ((2 * roundHalfEvenNat n d * d = 2*n+d ∨ 2*n = 2*roundHalfEvenNat n d * d + d) → roundHalfEvenNat n d % 2 = 0) := by
  unfold roundHalfEvenNat
  have h := Nat.div_add_mod n d
  have hr := Nat.mod_lt n hd
  set q := n/d; set r := n % d
  have e : n = q*d + r := by rw [← h]; ring
  simp only
  split
  · refine ⟨by nlinarith, by nlinarith, ?_⟩
    rintro (h | h) <;> exfalso <;> nlinarith
  · split
    · refine ⟨by nlinarith, by nlinarith, ?_⟩
      rintro (h | h) <;> exfalso <;> nlinarith
    · have : 2*r = d := by omega
      rcases Nat.mod_two_eq_zero_or_one q with h0 | h1
      · rw [h0]; exact ⟨by nlinarith, by nlinarith, fun _ => by omega⟩
      · rw [h1]; exact ⟨by nlinarith, by nlinarith, fun _ => by omega⟩

/-- No integer is nearer to `n / d`. -/
theorem roundHalfEvenNat_best (n d : Nat) (hd : 0 < d) (z : ℤ) : |(roundHalfEvenNat n d : ℤ) * d - n| ≤ |z*d - n| := by
  obtain ⟨h1, h2, -⟩ := roundHalfEvenNat_near n d hd
  zify at h1 h2 hd
  set q : ℤ := (roundHalfEvenNat n d : ℤ)
  rcases lt_trichotomy z q with h | h | h
  · have : z*d ≤ (q-1)*d := mul_le_mul_of_nonneg_right (by omega) hd.le
    rw [abs_le]; constructor
    · have := abs_nonneg (z*d-n); rw [le_abs'] at *; nlinarith [neg_abs_le (z*d-n), le_abs_self (z*d-n)]
    · nlinarith [neg_abs_le (z*d-n), le_abs_self (z*d-n)]
  · rw [h]
  · have : (q+1)*d ≤ z*d := mul_le_mul_of_nonneg_right (by omega) hd.le
    rw [abs_le]; constructor <;> nlinarith [neg_abs_le (z*d-n), le_abs_self (z*d-n)]

/-- A power of two below `n / d`, in whole numbers. -/
theorem pow_frac (n d : ℕ) (hd : 0 < d) (k : ℤ) :
    (d * 2^k.toNat ≤ n * 2^(-k).toNat ↔ (2:ℚ)^k ≤ (n:ℚ)/d) := by
  have hdq : (0:ℚ) < d := by exact_mod_cast hd
  rw [le_div_iff₀ hdq]
  rcases le_total 0 k with h | h
  · obtain ⟨m, rfl⟩ := Int.eq_ofNat_of_zero_le h
    simp only [zpow_natCast, Int.toNat_natCast, Int.toNat_neg_natCast, pow_zero, mul_one]
    rw [← Nat.cast_le (α := ℚ)]; push_cast; constructor <;> intro h <;> linarith
  · obtain ⟨m, hm⟩ := Int.eq_ofNat_of_zero_le (show 0 ≤ -k by omega)
    obtain rfl : k = -(m:ℤ) := by omega
    simp only [neg_neg, zpow_neg, zpow_natCast, Int.toNat_natCast, Int.toNat_neg_natCast, pow_zero, mul_one]
    rw [← Nat.cast_le (α := ℚ)]; push_cast
    have : (0:ℚ) < 2^m := by positivity
    rw [inv_mul_le_iff₀ this]; constructor <;> intro h <;> linarith

theorem log2Frac_spec (n d : Nat) (hn : 0 < n) (hd : 0 < d) :
   let k := log2Frac n d
   d * 2^k.toNat ≤ n * 2^(-k).toNat ∧ n * 2^(-(k+1)).toNat < d * 2^(k+1).toNat := by
  have a1 := Nat.log2_self_le (n := n) (by omega)
  have a2 := Nat.lt_log2_self (n := n)
  have b1 := Nat.log2_self_le (n := d) (by omega)
  have b2 := Nat.lt_log2_self (n := d)
  set a := Nat.log2 n; set b := Nat.log2 d
  have key := pow_frac n d hd
  have na : (2:ℚ)^(a:ℤ) ≤ n := by rw [zpow_natCast]; exact_mod_cast a1
  have na' : (n:ℚ) < 2^((a:ℤ)+1) := by rw [show ((a:ℤ)+1) = ((a+1:ℕ):ℤ) by push_cast; ring, zpow_natCast]; exact_mod_cast a2
  have nb : (2:ℚ)^(b:ℤ) ≤ d := by rw [zpow_natCast]; exact_mod_cast b1
  have nb' : (d:ℚ) < 2^((b:ℤ)+1) := by rw [show ((b:ℤ)+1) = ((b+1:ℕ):ℤ) by push_cast; ring, zpow_natCast]; exact_mod_cast b2
  have hdq : (0:ℚ) < d := by exact_mod_cast hd
  have lo : (2:ℚ)^((a:ℤ)-b-1) ≤ (n:ℚ)/d := by
    rw [le_div_iff₀ hdq]
    calc (2:ℚ)^((a:ℤ)-b-1) * d ≤ 2^((a:ℤ)-b-1) * 2^((b:ℤ)+1) := by gcongr
      _ = 2^(a:ℤ) := by rw [← zpow_add₀ (by norm_num)]; congr 1; ring
      _ ≤ n := na
  have hi : (n:ℚ)/d < (2:ℚ)^((a:ℤ)-b+1) := by
    rw [div_lt_iff₀ hdq]
    calc (n:ℚ) < 2^((a:ℤ)+1) := na'
      _ = 2^((a:ℤ)-b+1) * 2^(b:ℤ) := by rw [← zpow_add₀ (by norm_num)]; congr 1; ring
      _ ≤ _ := by gcongr
  have key2 : ∀ k : ℤ, (n * 2^(-k).toNat < d * 2^k.toNat ↔ (n:ℚ)/d < (2:ℚ)^k) := by
    intro k; have := key k; constructor <;> intro h
    · by_contra hc; have := this.2 (not_lt.1 hc); omega
    · by_contra hc; have := this.1 (not_lt.1 hc); linarith
  simp only
  unfold log2Frac
  simp only
  change _ ∧ _
  split
  · rename_i h
    refine ⟨h, ?_⟩
    rw [key2]; convert hi using 2
  · rename_i h
    refine ⟨?_, ?_⟩
    · rw [key]; exact lo
    · rw [show ((n.log2:ℤ)-d.log2)-1+1 = (n.log2:ℤ)-d.log2 by ring]; omega

theorem quantum_ge (n d : Nat) : -149 ≤ quantum n d := le_max_right _ _

/-- Where `n / d` stands on the grid that `quantum` chooses. -/
theorem quantum_spec (n d : Nat) (hn : 0 < n) (hd : 0 < d) :
   let T := (quantum n d + 149).toNat
   n * 2^149 < d * 2^(T+24) ∧ (T = 0 ∨ d * 2^(T+23) ≤ n * 2^149) := by
  obtain ⟨h1,h2⟩ := log2Frac_spec n d hn hd
  simp only at h1 h2 ⊢
  unfold quantum
  set k := log2Frac n d
  have up : ∀ j : Int, k ≤ j → -149 ≤ j+1 → n * 2^149 < d * 2^(j+1+149).toNat := by
    intro j hj hj2
    rcases le_total 0 (k+1) with h | h
    · rw [show (-(k+1)).toNat = 0 by omega, pow_zero, mul_one] at h2
      calc n*2^149 < d*2^(k+1).toNat*2^149 := by omega
        _ = d*2^((k+1).toNat+149) := by rw [pow_add]; ring
        _ ≤ _ := by gcongr <;> omega
    · rw [show (k+1).toNat = 0 by omega, pow_zero, mul_one] at h2
      rcases le_total (-149) (k+1) with h3 | h3
      · calc n*2^149 = n * 2^(-(k+1)).toNat * 2^(149-(-(k+1)).toNat) := by rw [mul_assoc, ← pow_add]; congr 2; omega
          _ < d * 2^(149-(-(k+1)).toNat) := by gcongr
          _ ≤ _ := by gcongr <;> omega
      · calc n*2^149 ≤ n * 2^(-(k+1)).toNat := by gcongr <;> omega
          _ < d := h2
          _ ≤ _ := Nat.le_mul_of_pos_right _ (by positivity)
  refine ⟨?_, ?_⟩
  · convert up (max k (-150+24)) (le_max_left _ _) (by omega) using 3
    omega
  · by_cases hT : k - 23 ≤ -149
    · left; omega
    · right
      have : (max (k-23) (-149)+149).toNat + 23 = (k+149).toNat := by omega
      rw [this]
      rcases le_total 0 k with h | h
      · rw [show (-k).toNat = 0 by omega, pow_zero, mul_one] at h1
        calc d*2^(k+149).toNat = d*2^k.toNat*2^149 := by rw [mul_assoc, ← pow_add]; congr 2; omega
          _ ≤ _ := by gcongr
      · rw [show k.toNat = 0 by omega, pow_zero, mul_one] at h1
        calc d*2^(k+149).toNat ≤ n * 2^(-k).toNat * 2^(k+149).toNat := by gcongr
          _ = n*2^149 := by rw [mul_assoc, ← pow_add]; congr 2; omega

/-- The rounding's scaled difference and the difference in units of 2^-149 agree up to a positive factor. -/
theorem quantum_scale (n d : Nat) (t : Int) (ht : -149 ≤ t) (z : ℤ) : ∃ c : ℕ, 0 < c ∧ c = 2^(149 - (-t).toNat) ∧
   (z * 2^(t+149).toNat * d - n*2^149 : ℤ) = c * (z * (d*2^t.toNat : ℕ) - (n*2^(-t).toNat : ℕ)) := by
  refine ⟨2^(149-(-t).toNat), by positivity, rfl, ?_⟩
  rw [Nat.cast_mul, Nat.cast_mul, Nat.cast_pow, Nat.cast_pow, Nat.cast_pow, Nat.cast_ofNat]
  have e1 : (2:ℤ)^149 = 2^(149-(-t).toNat) * 2^(-t).toNat := by rw [← pow_add]; congr 1; omega
  have e2 : (2:ℤ)^(t+149).toNat = 2^(149-(-t).toNat) * 2^t.toNat := by rw [← pow_add]; congr 1; omega
  rw [e1, e2]; ring

/-- A magnitude is on the grid of scale `T`, or below its full significands. -/
theorem magVal_grid (T j : Nat) : (∃ z : ℕ, magVal j = z * 2^T) ∨ magVal j < 2^(T+23) := by
  obtain ⟨S, m, -, hv, h⟩ := magVal_cases j
  by_cases hST : T ≤ S
  · left; refine ⟨m * 2^(S-T), ?_⟩; rw [hv, mul_assoc, ← pow_add]; congr 2; omega
  · right
    rw [hv]
    calc m * 2^S < 2^24*2^S := by gcongr; omega
      _ = 2^(24+S) := by rw [pow_add]
      _ ≤ _ := Nat.pow_le_pow_right (by norm_num) (by omega)

theorem rounded_core (n d N D T c U : ℤ) (q : ℕ) (hD : 0 < D) (hc : 0 < c)
  (hs : ∀ z : ℤ, z * T * d - n*U = c * (z * D - N))
  (best : ∀ z : ℤ, |q * D - N| ≤ |z*D - N|)
  (r1 : 2 * q * D ≤ 2*N + D) (r2 : 2*N ≤ 2*q*D + D) (r3 : 2*q*D = 2*N+D ∨ 2*N = 2*q*D+D → q % 2 = 0)
  (hb1 : n*U < d * (T * 2^24)) :
  q ≤ 2^24 ∧ (d * (T*2^23) ≤ n*U → 2^23 ≤ q) ∧ (∀ z : ℤ, |q * T * d - n*U| ≤ |z * T * d - n*U|) ∧
   (∀ z : ℤ, z ≠ q → |q * T * d - n*U| = |z * T * d - n*U| → q % 2 = 0) := by
  have hN24 : N < 2^24 * D := by
    have h := hs (2^24)
    have h' : (0:ℤ) < c * (2^24*D - N) := by rw [← h]; linarith [mul_comm d (T*2^24)]
    have := (mul_pos_iff_of_pos_left hc).1 h'
    linarith
  refine ⟨?_, ?_, ?_, ?_⟩
  · by_contra hc'
    have : (2^24 + 1 : ℤ) ≤ q := by push_cast at *; omega
    have : (2^24+1)*D ≤ q * D := mul_le_mul_of_nonneg_right this hD.le
    linarith
  · intro h
    have hN23 : 2^23 * D ≤ N := by
      have e := hs (2^23)
      by_contra hcon
      have : (0:ℤ) < c * (2^23 * D - N) := mul_pos hc (by linarith)
      rw [← e] at this; linarith [mul_comm d (T*2^23)]
    by_contra hc'
    have : (q:ℤ) + 1 ≤ 2^23 := by omega
    have : ((q:ℤ) + 1) * D ≤ 2^23 * D := mul_le_mul_of_nonneg_right this hD.le
    linarith
  · intro z; rw [hs, hs, abs_mul, abs_mul]; exact mul_le_mul_of_nonneg_left (best z) (abs_nonneg _)
  · intro z hz heq
    rw [hs, hs, abs_mul, abs_mul] at heq
    have heq := mul_left_cancel₀ (by positivity) heq
    apply r3
    have : (z:ℤ)*D - N = q*D - N ∨ z*D - N = -(q*D-N) := by
      rcases abs_eq_abs.1 heq with h | h
      · left; linarith
      · right; linarith
    rcases this with h | h
    · exfalso; apply hz; have : (z - q)*D = 0 := by linarith
      rcases mul_eq_zero.1 this with h | h
      · linarith
      · omega
    · rcases lt_or_gt_of_ne hz with hlt | hgt
      · left; have : (z+1)*D ≤ q*D := mul_le_mul_of_nonneg_right (by omega) hD.le
        linarith
      · right; have : (q+1)*D ≤ z*D := mul_le_mul_of_nonneg_right (by omega) hD.le
        linarith

theorem rounded_spec (n d U : Nat) (hU : U = 2^149) (hn : 0 < n) (hd : 0 < d) :
   let T := (quantum n d + 149).toNat
   let m := roundHalfEvenNat (n * 2 ^ (-(quantum n d)).toNat) (d * 2 ^ (quantum n d).toNat)
   m ≤ 2^24 ∧ (T = 0 ∨ 2^23 ≤ m) ∧ 
   (∀ z : ℤ, |(m:ℤ) * 2^T * d - n*U| ≤ |z * 2^T * d - n*U|) ∧
   (∀ z : ℤ, z ≠ m → |(m:ℤ) * 2^T * d - n*U| = |z * 2^T * d - n*U| → m % 2 = 0) := by
  obtain ⟨hb1, hb2⟩ := quantum_spec n d hn hd
  have ht := quantum_ge n d
  have hs := quantum_scale n d (quantum n d) ht
  simp only at hb1 hb2 ⊢
  rw [← hU] at hb1 hb2
  have hU' : (2:ℤ)^149 = (U:ℤ) := by rw [hU, Nat.cast_pow, Nat.cast_ofNat]
  rw [hU'] at hs
  generalize quantum n d = t at *
  have hDpos : 0 < d * 2^t.toNat := by positivity
  generalize d * 2^t.toNat = D at *
  generalize n * 2^(-t).toNat = N at *
  generalize (t+149).toNat = T at *
  obtain ⟨c, hc, hce, -⟩ := hs 0
  have hs' : ∀ z : ℤ, (z * 2^T * d - n*U : ℤ) = c * (z * D - N) := fun z => by
    obtain ⟨c', -, hce', h⟩ := hs z; rw [h, hce, hce']
  obtain ⟨r1, r2, r3⟩ := roundHalfEvenNat_near N D hDpos
  have best := roundHalfEvenNat_best N D hDpos
  generalize roundHalfEvenNat N D = q at *
  have := rounded_core n d N D (2^T) c U q (by exact_mod_cast hDpos) (by exact_mod_cast hc) hs' best
    (by exact_mod_cast r1) (by exact_mod_cast r2) (fun h => r3 (by rcases h with h | h; left; exact_mod_cast h; right; exact_mod_cast h)) 
    (by rw [pow_add] at hb1; exact_mod_cast hb1)
  obtain ⟨a1, a2, a3, a4⟩ := this
  refine ⟨by exact_mod_cast a1, hb2.imp id fun h => ?_, a3, fun z h1 h2 => a4 z h1 h2⟩
  have := a2 (by rw [pow_add] at h; exact_mod_cast h)
  exact_mod_cast this

theorem rneMag_eq (n d : Nat) : rneMag n d = min ((quantum n d + 149).toNat * 2^23 + roundHalfEvenNat (n * 2 ^ (-(quantum n d)).toNat) (d * 2 ^ (quantum n d).toNat)) 0x7F800000 := rfl

theorem top_over (X V m : ℤ) (hV : 0 < V) (hX : (2^25 - 1) * V ≤ X) (hm : m < 2^24)
    (h3 : ∀ z : ℤ, |2 * m * V - X| ≤ |2 * z * V - X|)
    (h4 : ∀ z : ℤ, z ≠ m → |2 * m * V - X| = |2 * z * V - X| → m % 2 = 0) : False := by
  have hm' : m ≤ 2^24 - 1 := by omega
  have hmV : m * V ≤ (2^24 - 1) * V := mul_le_mul_of_nonneg_right hm' hV.le
  have e1 : |2 * m * V - X| = X - 2 * m * V := by rw [abs_sub_comm, abs_of_nonneg]; linarith
  have h5 := h3 (m + 1)
  rcases le_total (2 * (m + 1) * V) X with h | h
  · have e2 : |2 * (m + 1) * V - X| = X - 2 * (m + 1) * V := by rw [abs_sub_comm, abs_of_nonneg]; linarith
    rw [e1, e2] at h5; linarith
  · have e2 : |2 * (m + 1) * V - X| = 2 * (m + 1) * V - X := by rw [abs_of_nonneg]; linarith
    rw [e1, e2] at h5
    have := h4 (m + 1) (by omega) (by rw [e1, e2]; linarith)
    have : m = 2^24 - 1 := by
      by_contra hne
      have : m ≤ 2^24 - 2 := by omega
      have : m * V ≤ (2^24 - 2) * V := mul_le_mul_of_nonneg_right this hV.le
      linarith
    omega

theorem top_under (X V : ℤ) (hV : 0 < V) (hX : X < (2^25 - 1) * V)
    (h3 : |2 * 2^24 * V - X| ≤ |2 * (2^24 - 1) * V - X|) : False := by
  have e1 : |2 * 2^24 * V - X| = 2 * 2^24 * V - X := by rw [abs_of_nonneg]; linarith
  rw [e1, le_abs] at h3
  rcases h3 with h | h <;> linarith

theorem rneMag_over (n d U : Nat) (hU : U = 2^149) (hn : 0 < n) (hd : 0 < d) (h : d * ((2^25 - 1) * 2^252) ≤ n * U) :
    rneMag n d = 0x7F800000 := by
  obtain ⟨h1, h2, h3, h4⟩ := rounded_spec n d U hU hn hd
  obtain ⟨q1, -⟩ := quantum_spec n d hn hd
  rw [← hU] at q1
  rw [rneMag_eq]
  generalize (quantum n d + 149).toNat = T at *
  generalize roundHalfEvenNat (n * 2 ^ (-(quantum n d)).toNat) (d * 2 ^ (quantum n d).toNat) = m at *
  have hT : 253 ≤ T := by
    by_contra hc
    have h1 : 2^(T+24) ≤ 2^276 := Nat.pow_le_pow_right (by norm_num) (by omega)
    have h2 : d * 2^(T+24) ≤ d * 2^276 := Nat.mul_le_mul_left _ h1
    have h3 : d * 2^276 ≤ d * ((2^25-1) * 2^252) := Nat.mul_le_mul_left _ (by decide)
    omega
  rcases Nat.eq_or_lt_of_le hT with rfl | hT'
  · suffices 2^24 ≤ m by omega
    by_contra hc
    have hW : ∃ W : ℤ, W = 2^252 := ⟨_, rfl⟩
    obtain ⟨W, hW⟩ := hW
    have hWp : 0 < W := by rw [hW]; positivity
    have e253 : (2:ℤ)^253 = 2 * W := by rw [hW, ← pow_succ']
    have hX : (2^25 - 1) * (W * d) ≤ (n:ℤ) * U := by
      have h' : ((d * ((2^25 - 1) * 2^252) : ℕ):ℤ) ≤ ((n * U : ℕ):ℤ) := by exact_mod_cast h
      rw [Nat.cast_mul, Nat.cast_mul, Nat.cast_mul, Nat.cast_pow 2 252, Nat.cast_ofNat (R := ℤ) (n := 2), ← hW] at h'
      rw [show ((2^25 - 1 : ℕ) : ℤ) = 2^25 - 1 by norm_num] at h'
      linarith
    refine top_over (n * U) (W * d) m (by positivity) hX (by omega) (fun z => ?_) (fun z hz he => ?_)
    · have := h3 z; rw [e253] at this
      rw [show 2 * (m:ℤ) * (W * d) = m * (2 * W) * d by ring, show 2 * z * (W * d) = z * (2 * W) * d by ring]; exact this
    · have := h4 z hz (by
        rw [e253]; rw [show 2 * (m:ℤ) * (W * d) = m * (2 * W) * d by ring, show 2 * z * (W * d) = z * (2 * W) * d by ring] at he; exact he)
      omega
  · omega

theorem rneMag_under (n d U : Nat) (hU : U = 2^149) (hn : 0 < n) (hd : 0 < d) (h : n * U < d * ((2^25 - 1) * 2^252)) :
    rneMag n d < 0x7F800000 ∧ ∀ (y : ℤ) (j : ℕ), (y = magVal j ∨ y = - (magVal j : ℤ)) →
      |(magVal (rneMag n d) : ℤ) * d - n*U| ≤ |y * d - n*U| ∧
      (y ≠ magVal (rneMag n d) → |y*d - n*U| = |(magVal (rneMag n d) : ℤ) * d - n*U| → rneMag n d % 2 = 0) := by
  obtain ⟨h1, h2, h3, h4⟩ := rounded_spec n d U hU hn hd
  obtain ⟨-, q2⟩ := quantum_spec n d hn hd
  rw [← hU] at q2
  try simp only at h1 h2 h3 h4 q2
  rw [rneMag_eq]
  generalize (quantum n d + 149).toNat = T at *
  generalize roundHalfEvenNat (n * 2 ^ (-(quantum n d)).toNat) (d * 2 ^ (quantum n d).toNat) = m at *
  have hdp : (0:ℤ) < d := by exact_mod_cast hd
  have hT : T ≤ 253 := by
    by_contra hc
    rcases q2 with q2 | q2
    · omega
    · have h1 : 2^277 ≤ 2^(T+23) := Nat.pow_le_pow_right (by norm_num) (by omega)
      have h2 := Nat.mul_le_mul_left d h1
      have h3 : d * ((2^25-1)*2^252) ≤ d * 2^277 := Nat.mul_le_mul_left _ (by decide)
      omega
  have hlt : T * 2^23 + m < 0x7F800000 := by
    by_contra hc
    obtain ⟨rfl, rfl⟩ : T = 253 ∧ m = 2^24 := by omega
    have h5 := h3 (2^24 - 1)
    obtain ⟨W, hW⟩ : ∃ W : ℤ, W = 2^252 := ⟨_, rfl⟩
    have hWp : 0 < W := by rw [hW]; positivity
    have e253 : (2:ℤ)^253 = 2 * W := by rw [hW, ← pow_succ']
    have hX : (n:ℤ) * U < (2^25 - 1) * (W * d) := by
      have h' : ((n * U : ℕ):ℤ) < ((d * ((2^25 - 1) * 2^252) : ℕ):ℤ) := by exact_mod_cast h
      rw [Nat.cast_mul, Nat.cast_mul, Nat.cast_mul, Nat.cast_pow 2 252, Nat.cast_ofNat (R := ℤ) (n := 2), ← hW] at h'
      rw [show ((2^25 - 1 : ℕ) : ℤ) = 2^25 - 1 by norm_num] at h'
      linarith
    refine top_under (n * U) (W * d) (by positivity) hX ?_
    rw [e253, show ((2^24 : ℕ) : ℤ) = 2^24 by norm_num] at h5
    rw [show 2 * (2:ℤ)^24 * (W * d) = 2^24 * (2 * W) * d by ring, show 2 * ((2:ℤ)^24 - 1) * (W * d) = (2^24 - 1) * (2 * W) * d by ring]
    exact h5
  rw [min_eq_left (by omega)]
  refine ⟨hlt, ?_⟩
  have hv := magVal_of T m h2 h1
  rw [hv]; push_cast
  intro y j hy
  have hg : (∃ z : ℤ, y = z * 2^T) ∨ (T ≠ 0 ∧ |y| < 2^(T+23)) := by
    have hgr := magVal_grid T j
    by_cases hT0 : T = 0
    · left; exact ⟨y, by rw [hT0]; ring⟩
    · rcases hgr with ⟨z, hz⟩ | hz
      · left; rcases hy with hy | hy
        · exact ⟨z, by rw [hy, hz]; push_cast; ring⟩
        · exact ⟨-z, by rw [hy, hz]; push_cast; ring⟩
      · right; refine ⟨hT0, ?_⟩
        have : |y| = magVal j := by rcases hy with hy | hy <;> rw [hy] <;> simp
        rw [this]; exact_mod_cast hz
  rcases hg with ⟨z, rfl⟩ | ⟨hT0, hy'⟩
  · refine ⟨h3 z, fun hne he => ?_⟩
    have := h4 z (by rintro rfl; exact hne rfl) he.symm
    omega
  · have q2 := q2.resolve_left hT0
    have q2' : (d:ℤ) * 2^(T+23) ≤ n*U := by exact_mod_cast q2
    have h5 := h3 (2^23)
    have e1 : |(2:ℤ)^23 * 2^T * d - n*U| = (n:ℤ)*U - d*2^(T+23) := by
      rw [abs_sub_comm, abs_of_nonneg]
      · rw [pow_add]; ring
      · have : (2:ℤ)^23*2^T*d = d*2^(T+23) := by rw [pow_add]; ring
        linarith
    have hyd : y * d < d * 2^(T+23) := by have := (abs_lt.1 hy').2; nlinarith
    have e2 : |y*d - n*U| = (n:ℤ)*U - y*d := by rw [abs_sub_comm, abs_of_nonneg]; linarith
    rw [e1] at h5
    rw [e2]
    exact ⟨by linarith, fun _ he => by linarith⟩

theorem signBit_iff (w : Word) : signBit w = decide (2^31 ≤ w.toNat) := by
  simp [signBit, BitVec.getLsbD, Nat.testBit_eq_decide_div_mod_eq]
  have := w.isLt
  by_cases h : 2147483648 ≤ w.toNat <;> simp [h] <;> omega

theorem withSign_toNat (s : Bool) (m : Nat) (hm : m < 2^31) : (withSign s m).toNat = (if s then 2^31 else 0) + m := by
  simp only [withSign, BitVec.toNat_append, BitVec.toNat_ofBool, BitVec.toNat_ofNat, Nat.mod_eq_of_lt hm]
  rw [Nat.shiftLeft_eq, ← Nat.shiftLeft_eq, ← Nat.shiftLeft_add_eq_or_of_lt hm]
  cases s <;> simp [Nat.shiftLeft_eq]

theorem isFinite_iff (w : Word) : isFinite w = decide (w.toNat % 2^31 < 0x7F800000) := by
  have h1 : expField w = (w.toNat % 2^31) / 2^23 := by
    simp [expField, BitVec.extractLsb'_toNat, Nat.shiftRight_eq_div_pow]; omega
  have : (expField w = 255) ↔ ¬ (w.toNat % 2^31 < 0x7F800000) := by rw [h1]; omega
  simp only [isFinite]
  by_cases h : expField w = 255 <;> simp_all

theorem val_eq (w : Word) : val w = (if signBit w then -1 else 1) * (magVal (w.toNat % 2^31) : ℚ) / 2^149 := by
  unfold val units
  rw [magUnits_eq]
  split <;> push_cast <;> ring


theorem magVal_mono {j k : Nat} (h : j ≤ k) : magVal j ≤ magVal k := by
  obtain ⟨S, m, rfl, hv, hm⟩ := magVal_cases j
  obtain ⟨T, m', rfl, hv', hm'⟩ := magVal_cases k
  rw [hv, hv']
  have hST : S ≤ T := by omega
  rcases Nat.eq_or_lt_of_le hST with rfl | hlt
  · gcongr; omega
  · have h2 : 2^23 ≤ m' := by omega
    calc m * 2^S ≤ 2^24 * 2^S := by gcongr; omega
      _ = 2^23 * 2^(S+1) := by rw [pow_succ 2 S]; ring
      _ ≤ m' * 2^T := by gcongr <;> omega

theorem magVal_lt {j k : Nat} (h : j < k) : magVal j < magVal k := by
  refine lt_of_lt_of_le ?_ (magVal_mono (Nat.succ_le_of_lt h))
  obtain ⟨S, m, rfl, hv, hm⟩ := magVal_cases j
  rw [hv, Nat.succ_eq_add_one, add_assoc, magVal_of S (m+1) (by omega) (by omega)]
  gcongr; omega

theorem magVal_inj {j k : Nat} (h : magVal j = magVal k) : j = k := by
  rcases lt_trichotomy j k with h' | h' | h'
  · have := magVal_lt h'; omega
  · exact h'
  · have := magVal_lt h'; omega

theorem magVal_zero_iff (j : Nat) : magVal j = 0 ↔ j = 0 := by
  constructor
  · intro h; exact magVal_inj (h.trans (by decide))
  · rintro rfl; decide

theorem rtzMag_eq (n d : Nat) : rtzMag n d = min ((quantum n d + 149).toNat * 2^23 + n * 2 ^ (-(quantum n d)).toNat / (d * 2 ^ (quantum n d).toNat)) 0x7F7FFFFF := rfl

theorem rtzMag_spec (n d U : Nat) (hU : U = 2^149) (hn : 0 < n) (hd : 0 < d) :
    rtzMag n d ≤ 0x7F7FFFFF ∧ magVal (rtzMag n d) * d ≤ n * U ∧
      ∀ j ≤ 0x7F7FFFFF, magVal j * d ≤ n * U → j ≤ rtzMag n d := by
  obtain ⟨hb1, hb2⟩ := quantum_spec n d hn hd
  have hs := quantum_scale n d (quantum n d) (quantum_ge n d)
  rw [rtzMag_eq]
  rw [← hU] at hb1 hb2
  have hU' : (2:ℤ)^149 = (U:ℤ) := by rw [hU, Nat.cast_pow, Nat.cast_ofNat]
  rw [hU'] at hs
  generalize quantum n d = t at *
  have hDpos : 0 < d * 2^t.toNat := by positivity
  generalize d * 2^t.toNat = D at *
  generalize n * 2^(-t).toNat = N at *
  generalize (t+149).toNat = T at *
  obtain ⟨c, hc, hce, -⟩ := hs 0
  have hs' : ∀ z : ℤ, (z * 2^T * d - n*U : ℤ) = c * (z * D - N) := fun z => by
    obtain ⟨c', -, hce', h⟩ := hs z; rw [h, hce, hce']
  have hle : ∀ z : ℕ, (z * 2^T * d ≤ n * U ↔ z * D ≤ N) := by
    intro z
    have h := hs' z
    have hc' : (0:ℤ) < c := by exact_mod_cast hc
    constructor
    · intro h1
      have h1' : (z:ℤ) * 2^T * d ≤ n * U := by exact_mod_cast h1
      have : ¬ (0:ℤ) < c * (z * D - N) := by rw [← h]; linarith
      have : (z:ℤ) * D ≤ N := by
        by_contra hcon; exact this (mul_pos hc' (by linarith))
      exact_mod_cast this
    · intro h1
      have h1' : (z:ℤ) * D ≤ N := by exact_mod_cast h1
      have : (c:ℤ) * (z * D - N) ≤ 0 := mul_nonpos_of_nonneg_of_nonpos hc'.le (by linarith)
      rw [← h] at this
      have : (z:ℤ) * 2^T * d ≤ n * U := by linarith
      exact_mod_cast this
  have hm := fun z => (Nat.le_div_iff_mul_le hDpos (x := z) (y := N))
  have hself := (hm (N / D)).1 le_rfl
  generalize N / D = m at *
  have hm24 : m < 2^24 := by
    by_contra hcon
    have := (hle (2^24)).2 ((hm _).1 (by omega))
    have e : 2^24 * 2^T * d = d * 2^(T+24) := by rw [pow_add]; ring
    omega
  have hm23 : T = 0 ∨ 2^23 ≤ m := by
    refine hb2.imp id fun h => (hm _).2 ((hle _).1 ?_)
    have e : 2^23 * 2^T * d = d * 2^(T+23) := by rw [pow_add]; ring
    omega
  have hv := magVal_of T m hm23 hm24.le
  have hsat : magVal (T * 2^23 + m) * d ≤ n * U := by rw [hv]; exact (hle m).2 hself
  refine ⟨min_le_right _ _, ?_, ?_⟩
  · exact (Nat.mul_le_mul_right d (magVal_mono (min_le_left _ _))).trans hsat
  · intro j hj hjle
    refine le_min ?_ hj
    by_contra hcon
    have h1 := magVal_mono (show T * 2^23 + (m+1) ≤ j by omega)
    rw [magVal_of T (m+1) (by omega) (by omega)] at h1
    have h2 : (m+1) * 2^T * d ≤ n * U := (Nat.mul_le_mul_right d h1).trans hjle
    have := (hm (m+1)).2 ((hle _).1 h2)
    omega

/-- `floor(log2(n / d))` depends on the rational alone. -/
theorem log2Frac_congr {n d n' d' : ℕ} (hn : 0 < n) (hd : 0 < d) (hd' : 0 < d') (h : n * d' = n' * d) :
    log2Frac n d = log2Frac n' d' := by
  have hn' : 0 < n' := by
    rcases Nat.eq_zero_or_pos n' with rfl | h0
    · have : 0 < n * d' := by positivity
      omega
    · exact h0
  have hq : (n:ℚ)/d = (n':ℚ)/d' := by
    rw [div_eq_div_iff (by positivity) (by positivity)]; exact_mod_cast h
  obtain ⟨a1, a2⟩ := log2Frac_spec n d hn hd
  obtain ⟨b1, b2⟩ := log2Frac_spec n' d' hn' hd'
  rw [← not_le] at a2 b2
  rw [pow_frac n d hd] at a1 a2
  rw [pow_frac n' d' hd'] at b1 b2
  rw [not_le] at a2 b2
  rw [hq] at a1 a2
  have c1 := (zpow_lt_zpow_iff_right₀ (by norm_num : (1:ℚ) < 2)).1 (lt_of_le_of_lt a1 b2)
  have c2 := (zpow_lt_zpow_iff_right₀ (by norm_num : (1:ℚ) < 2)).1 (lt_of_le_of_lt b1 a2)
  omega

theorem roundHalfEvenNat_congr {n d n' d' : ℕ} (hd : 0 < d) (hd' : 0 < d') (h : n * d' = n' * d) :
    roundHalfEvenNat n d = roundHalfEvenNat n' d' := by
  have scale : ∀ n d c : ℕ, 0 < d → 0 < c → roundHalfEvenNat (n * c) (d * c) = roundHalfEvenNat n d := by
    intro n d c _ hc
    simp only [roundHalfEvenNat, Nat.mul_div_mul_right _ _ hc, Nat.mul_mod_mul_right]
    rw [← mul_assoc]
    simp only [Nat.mul_lt_mul_right hc]
  rw [← scale n d d' hd hd', ← scale n' d' d hd' hd, h, mul_comm d d']

/-- Rounding to nearest depends on the rational alone. -/
theorem rneMag_congr {n d n' d' : ℕ} (hn : 0 < n) (hd : 0 < d) (hd' : 0 < d') (h : n * d' = n' * d) :
    rneMag n d = rneMag n' d' := by
  rw [rneMag_eq, rneMag_eq]
  have : quantum n d = quantum n' d' := by rw [quantum, quantum, log2Frac_congr hn hd hd' h]
  rw [this]
  congr 2
  apply roundHalfEvenNat_congr (by positivity) (by positivity)
  calc _ = (n * d') * (2 ^ (-quantum n' d').toNat * 2 ^ (quantum n' d').toNat) := by ring
    _ = (n' * d) * (2 ^ (-quantum n' d').toNat * 2 ^ (quantum n' d').toNat) := by rw [h]
    _ = _ := by ring

theorem rne32_congr {n n' : ℤ} {d d' : ℕ} (hd : 0 < d) (hd' : 0 < d') (h : (n:ℚ) / d = n' / d') :
    rne32 n d = rne32 n' d' := by
  have h1 : n * d' = n' * d := by
    rw [div_eq_div_iff (by positivity) (by positivity)] at h; exact_mod_cast h
  have hdz : (0:ℤ) < d := by exact_mod_cast hd
  have hdz' : (0:ℤ) < d' := by exact_mod_cast hd'
  have hz : n = 0 ↔ n' = 0 := by
    constructor
    · rintro rfl; simp at h1; omega
    · rintro rfl; simp at h1; omega
  have hs : n < 0 ↔ n' < 0 := by
    constructor <;> intro h0 <;> by_contra hc
    · have : 0 ≤ n' * d := mul_nonneg (by omega) hdz.le
      have : n * d' < 0 := mul_neg_of_neg_of_pos h0 hdz'
      omega
    · have : 0 ≤ n * d' := mul_nonneg (by omega) hdz'.le
      have : n' * d < 0 := mul_neg_of_neg_of_pos h0 hdz
      omega
  by_cases h0 : n = 0
  · simp [rne32, h0, hz.1 h0]
  · have h0' : n' ≠ 0 := fun h => h0 (hz.2 h)
    have hm : rneMag n.natAbs d = rneMag n'.natAbs d' := by
      apply rneMag_congr (by omega) hd hd'
      have := congrArg Int.natAbs h1
      simpa [Int.natAbs_mul] using this
    simp only [rne32, h0, h0', if_false, hm, hs]


/-- A finite non-zero word is the rounding of its own value. -/
theorem rne32_exact {w : Word} {n : ℤ} {d : ℕ} (hf : isFinite w = true) (hz : isZero w = false) (hd : 0 < d)
    (h : (n:ℚ) / d = val w) : rne32 n d = w := by
  have hw := w.isLt
  rw [isFinite_iff, decide_eq_true_eq] at hf
  have hm0 : w.toNat % 2^31 ≠ 0 := by
    intro h0
    have h1 : expField w = 0 := by
      simp [expField, BitVec.extractLsb'_toNat, Nat.shiftRight_eq_div_pow]; omega
    have h2 : fracField w = 0 := by
      simp [fracField, BitVec.extractLsb'_toNat]; omega
    simp [isZero, h1, h2] at hz
  have hU : 0 < unitsOne := by simp [unitsOne]
  rw [rne32_congr hd hU (h.trans (by rw [val, unitsOne]; push_cast; rfl)), rne32]
  have hmag := magUnits_eq w
  have hpos : 0 < magVal (w.toNat % 2^31) := Nat.pos_of_ne_zero fun h0 => hm0 ((magVal_zero_iff _).1 h0)
  have hu0 : units w ≠ 0 := by rw [units]; split <;> omega
  have habs : (units w).natAbs = magVal (w.toNat % 2^31) := by rw [units]; split <;> omega
  rw [if_neg hu0, habs]
  have hlt : magVal (w.toNat % 2^31) < (2^25 - 1) * 2^252 :=
    lt_of_le_of_lt (magVal_mono (show w.toNat % 2^31 ≤ 0x7F7FFFFF by omega)) (by decide)
  have hsame : rneMag (magVal (w.toNat % 2^31)) unitsOne = w.toNat % 2^31 := by
    obtain ⟨U, hU'⟩ : ∃ U, U = unitsOne := ⟨_, rfl⟩
    have := (rneMag_under (magVal (w.toNat % 2^31)) U U (by rw [hU', unitsOne]) hpos (by omega)
      (by rw [mul_comm]; exact Nat.mul_lt_mul_of_pos_left hlt (by omega))).2 _ _ (.inl (rfl : _ = ((magVal (w.toNat % 2^31) : ℕ) : ℤ)))
    have h1 := this.1
    rw [sub_self, abs_zero] at h1
    have h2 := abs_eq_zero.1 (le_antisymm h1 (abs_nonneg _))
    have h3 : ((magVal (rneMag (magVal (w.toNat % 2^31)) U) : ℕ) : ℤ) = magVal (w.toNat % 2^31) :=
      mul_right_cancel₀ (b := (U:ℤ)) (by have : 0 < U := by omega
                                         omega) (by linarith)
    rw [← hU']
    exact magVal_inj (by exact_mod_cast h3)
  rw [hsame]
  apply BitVec.eq_of_toNat_eq
  rw [withSign_toNat _ _ (Nat.mod_lt _ (by norm_num))]
  have hs : (decide (units w < 0)) = signBit w := by
    rw [units]; cases signBit w <;> simp <;> omega
  rw [hs, signBit_iff]
  split
  · have := of_decide_eq_true ‹_›; omega
  · have := of_decide_eq_false (eq_false_of_ne_true ‹_›); omega

end Sys2Proof.Machine
end

