-- ==== Sys2Proof/Laws/Enclosure.lean ====
section
/-! SUPPORT. The enclosures behind the default envelope and the default mapping (log entry 6): `π` and `ln 2` lie
between their two neighbouring multiples of 2^-128, each nest of fractions brackets its series, and so the bounds of
Machine/Functions.lean bracket the exact reals of R24 and R25. A word that both ends of a bracket round to is the
real's own rounding. -/

open Finset

namespace Sys2Proof.Laws

open Sys2Proof.Machine


theorem arctan_bounds {x : ℝ} (h0 : 0 ≤ x) (h1 : x < 1) (k : ℕ) :
    ∑ i ∈ range (2 * k), (-1) ^ i * (x ^ (2 * i + 1) / (2 * i + 1)) ≤ Real.arctan x ∧
      Real.arctan x ≤ ∑ i ∈ range (2 * k + 1), (-1) ^ i * (x ^ (2 * i + 1) / (2 * i + 1)) := by
  have ht : Filter.Tendsto (fun n => ∑ i ∈ range n, (-1) ^ i * (x ^ (2 * i + 1) / (2 * i + 1)))
      Filter.atTop (nhds (Real.arctan x)) := by
    have := (Real.hasSum_arctan (x := x) (by rw [Real.norm_of_nonneg h0]; exact h1)).tendsto_sum_nat
    refine this.congr fun n => sum_congr rfl fun i _ => ?_
    push_cast; ring
  have ha : Antitone fun i : ℕ => x ^ (2 * i + 1) / (2 * (i : ℝ) + 1) := by
    refine antitone_nat_of_succ_le fun i => ?_
    have : x ^ (2 * (i + 1) + 1) ≤ x ^ (2 * i + 1) := pow_le_pow_of_le_one h0 h1.le (by omega)
    push_cast
    gcongr
    linarith
  exact ⟨ha.alternating_series_le_tendsto ht k, ha.tendsto_le_alternating_series ht k⟩

theorem pi_enclosed : (piFloor : ℝ) ≤ Real.pi * 2 ^ 128 ∧ Real.pi * 2 ^ 128 ≤ (piFloor : ℝ) + 1 := by
  obtain ⟨a, b⟩ := arctan_bounds (x := 5⁻¹) (by norm_num) (by norm_num) 15
  obtain ⟨c, d⟩ := arctan_bounds (x := 239⁻¹) (by norm_num) (by norm_num) 5
  have h := Real.four_mul_arctan_inv_5_sub_arctan_inv_239
  simp only [sum_range_succ, sum_range_zero, Nat.reduceMul, Nat.reduceAdd] at a b c d
  norm_num at a b c d
  unfold piFloor
  constructor <;> push_cast <;> linarith

theorem ln2_enclosed : (ln2Floor : ℝ) ≤ Real.log 2 * 2 ^ 128 ∧ Real.log 2 * 2 ^ 128 ≤ (ln2Floor : ℝ) + 1 := by
  have h := Real.abs_log_sub_add_sum_range_le (x := 2⁻¹) (by norm_num) 140
  rw [show (1 : ℝ) - 2⁻¹ = 2⁻¹ by norm_num, Real.log_inv, abs_le] at h
  simp only [sum_range_succ, sum_range_zero] at h
  norm_num at h
  unfold ln2Floor
  constructor <;> push_cast <;> linarith [h.1, h.2]

/-- The rational a fraction stands for. -/
noncomputable def fracVal (f : Frac) : ℝ := (f.num : ℝ) / f.den

/-- A nest `1 - a (1 - b (1 - … T))` with `g (q+1) / g q` its factors is an alternating partial sum. -/
theorem nest_sum_alt (g : ℕ → ℝ) (V : ℕ → ℕ → ℝ) (T : ℝ) (h0 : ∀ q, V 0 q = T)
    (h1 : ∀ k q, V (k + 1) q * g q = g q - V k (q + 1) * g (q + 1)) (k : ℕ) :
    ∀ q, V k q * g q = ∑ i ∈ range k, (-1) ^ i * g (q + i) + (-1) ^ k * (T * g (q + k)) := by
  induction k with
  | zero => intro q; simp [h0]
  | succ k ih =>
    intro q
    rw [h1, ih, sum_range_succ', show q + (k + 1) = q + 1 + k by omega]
    have : ∑ i ∈ range k, (-1) ^ (i + 1) * g (q + (i + 1)) = - ∑ i ∈ range k, (-1) ^ i * g (q + 1 + i) := by
      rw [← sum_neg_distrib]
      refine sum_congr rfl fun i _ => ?_
      rw [show q + (i + 1) = q + 1 + i by omega]; ring
    rw [this]; simp; ring

theorem nest_sum_pos (g : ℕ → ℝ) (V : ℕ → ℕ → ℝ) (T : ℝ) (h0 : ∀ q, V 0 q = T)
    (h1 : ∀ k q, V (k + 1) q * g q = g q + V k (q + 1) * g (q + 1)) (k : ℕ) :
    ∀ q, V k q * g q = ∑ i ∈ range k, g (q + i) + T * g (q + k) := by
  induction k with
  | zero => intro q; simp [h0]
  | succ k ih =>
    intro q
    rw [h1, ih, sum_range_succ', show q + (k + 1) = q + 1 + k by omega]
    have : ∑ i ∈ range k, g (q + (i + 1)) = ∑ i ∈ range k, g (q + 1 + i) :=
      sum_congr rfl fun i _ => by rw [show q + (i + 1) = q + 1 + i by omega]
    rw [this]; simp; ring

/-- The fractions of `sinNest` stay positive and at most one, so its subtraction never runs out. -/
theorem sinNest_le (n d tail : ℕ) (hd : 0 < d) (hx : n * n ≤ 6 * (d * d)) (ht : tail ≤ 1) (k : ℕ) :
    ∀ j, 1 ≤ j → 0 < (sinNest n d tail k j).den ∧ (sinNest n d tail k j).num ≤ (sinNest n d tail k j).den ∧
      n * n * (sinNest n d tail k j).num ≤ d * d * (2 * j * (2 * j + 1)) * (sinNest n d tail k j).den := by
  have key : ∀ (f : Frac) (j : ℕ), 1 ≤ j → f.num ≤ f.den →
      n * n * f.num ≤ d * d * (2 * j * (2 * j + 1)) * f.den := by
    intro f j hj h
    have h2 : 6 ≤ 2 * j * (2 * j + 1) := by nlinarith
    calc n * n * f.num ≤ 6 * (d * d) * f.den := Nat.mul_le_mul hx h
      _ = d * d * 6 * f.den := by ring
      _ ≤ _ := by gcongr
  induction k with
  | zero => intro j hj; exact ⟨Nat.one_pos, ht, key ⟨tail, 1⟩ j hj ht⟩
  | succ k ih =>
    intro j hj
    obtain ⟨a, b, -⟩ := ih (j + 1) (by omega)
    have hden : 0 < (sinNest n d tail (k + 1) j).den := by
      simp only [sinNest]; positivity
    have hle : (sinNest n d tail (k + 1) j).num ≤ (sinNest n d tail (k + 1) j).den := Nat.sub_le _ _
    exact ⟨hden, hle, key _ j hj hle⟩

theorem sinNest_succ (n d tail : ℕ) (hd : 0 < d) (hx : n * n ≤ 6 * (d * d)) (ht : tail ≤ 1) (k j : ℕ) (hj : 1 ≤ j) :
    fracVal (sinNest n d tail (k + 1) j) =
      1 - ((n : ℝ) / d) ^ 2 / ((2 * j) * (2 * j + 1)) * fracVal (sinNest n d tail k (j + 1)) := by
  obtain ⟨a, b, -⟩ := sinNest_le n d tail hd hx ht k (j + 1) (by omega)
  have c : n * n * (sinNest n d tail k (j + 1)).num ≤
      d * d * (2 * j * (2 * j + 1)) * (sinNest n d tail k (j + 1)).den := by
    have h2 : 6 ≤ 2 * j * (2 * j + 1) := by nlinarith
    calc _ ≤ 6 * (d * d) * (sinNest n d tail k (j + 1)).den := Nat.mul_le_mul hx b
      _ = d * d * 6 * (sinNest n d tail k (j + 1)).den := by ring
      _ ≤ _ := by gcongr
  have a' : (0 : ℝ) < (sinNest n d tail k (j + 1)).den := by exact_mod_cast a
  have d' : (0 : ℝ) < d := by exact_mod_cast hd
  have j' : (0 : ℝ) < j := by exact_mod_cast hj
  simp only [fracVal, sinNest, Nat.cast_sub c]
  push_cast
  field_simp

/-- The sine's term `x^(2q+1)/(2q+1)!`. -/
noncomputable def sinTerm (x : ℝ) (q : ℕ) : ℝ := x ^ (2 * q + 1) / (2 * q + 1).factorial

theorem sinTerm_succ (x : ℝ) (q : ℕ) :
    sinTerm x (q + 1) = sinTerm x q * (x ^ 2 / ((2 * (q + 1)) * (2 * (q + 1) + 1))) := by
  have : (2 * (q + 1) + 1).factorial = (2 * q + 3) * ((2 * q + 2) * (2 * q + 1).factorial) := by
    rw [show 2 * (q + 1) + 1 = (2 * q + 1) + 1 + 1 by ring, Nat.factorial_succ, Nat.factorial_succ]
  simp only [sinTerm, this]
  push_cast
  field_simp
  ring

theorem sinNest_sum (n d tail : ℕ) (hd : 0 < d) (hx : n * n ≤ 6 * (d * d)) (ht : tail ≤ 1) (k : ℕ) :
    (n : ℝ) / d * fracVal (sinNest n d tail k 1) =
      ∑ i ∈ range k, (-1) ^ i * sinTerm (n / d) i + (-1) ^ k * (tail * sinTerm (n / d) k) := by
  have h := nest_sum_alt (sinTerm ((n : ℝ) / d)) (fun k q => fracVal (sinNest n d tail k (q + 1))) tail
    (fun q => by simp [fracVal, sinNest])
    (fun k q => by
      show fracVal (sinNest n d tail (k + 1) (q + 1)) * _ = _
      rw [sinNest_succ n d tail hd hx ht k (q + 1) (by omega), sinTerm_succ]
      push_cast; ring) k 0
  simp only [Nat.zero_add] at h
  rw [← h]
  simp [sinTerm]; ring

theorem sin_between {x : ℝ} (h0 : 0 ≤ x) (h1 : x ^ 2 ≤ 6) (k : ℕ) :
    ∑ i ∈ range (2 * k), (-1) ^ i * sinTerm x i ≤ Real.sin x ∧
      Real.sin x ≤ ∑ i ∈ range (2 * k + 1), (-1) ^ i * sinTerm x i := by
  have ht : Filter.Tendsto (fun n => ∑ i ∈ range n, (-1) ^ i * sinTerm x i) Filter.atTop (nhds (Real.sin x)) :=
    (Real.hasSum_sin x).tendsto_sum_nat.congr fun n => sum_congr rfl fun i _ => by rw [sinTerm]; ring
  have ha : Antitone (sinTerm x) := by
    refine antitone_nat_of_succ_le fun q => ?_
    rw [sinTerm_succ]
    refine mul_le_of_le_one_right (by unfold sinTerm; positivity) ?_
    rw [div_le_one (by positivity)]
    have : (0 : ℝ) ≤ q := Nat.cast_nonneg q
    nlinarith
  exact ⟨ha.alternating_series_le_tendsto ht k, ha.tendsto_le_alternating_series ht k⟩

/-- The two tails of the nest bracket the sine. -/
theorem sinNest_bracket (n d : ℕ) (hd : 0 < d) (hx : n * n ≤ 6 * (d * d)) (k : ℕ) :
    (n : ℝ) / d * fracVal (sinNest n d 0 (2 * k) 1) ≤ Real.sin (n / d) ∧
      Real.sin (n / d) ≤ (n : ℝ) / d * fracVal (sinNest n d 1 (2 * k) 1) := by
  have hx' : ((n : ℝ) / d) ^ 2 ≤ 6 := by
    rw [div_pow, div_le_iff₀ (by positivity)]
    have : ((n * n : ℕ) : ℝ) ≤ ((6 * (d * d) : ℕ) : ℝ) := by exact_mod_cast hx
    push_cast at this; nlinarith
  obtain ⟨a, b⟩ := sin_between (x := (n : ℝ) / d) (by positivity) hx' k
  rw [sinNest_sum n d 0 hd hx (by omega), sinNest_sum n d 1 hd hx (by omega)]
  rw [sum_range_succ] at b
  exact ⟨by simpa using a, by simpa using b⟩

/-- The exponential's term `t^q/q!`. -/
noncomputable def expTerm (t : ℝ) (q : ℕ) : ℝ := t ^ q / q.factorial

theorem expTerm_succ (t : ℝ) (q : ℕ) : expTerm t (q + 1) = expTerm t q * (t / (q + 1)) := by
  simp only [expTerm, Nat.factorial_succ, pow_succ]
  push_cast
  field_simp

theorem expNest_den_pos (n d tail : ℕ) (hd : 0 < d) (k : ℕ) : ∀ j, 0 < (expNest n d tail k j).den := by
  induction k with
  | zero => intro j; exact Nat.one_pos
  | succ k ih => intro j; have := ih (j + 1); simp only [expNest]; positivity

theorem expNest_sum (n d tail : ℕ) (hd : 0 < d) (k : ℕ) :
    (n : ℝ) / d * fracVal (expNest n d tail k 1) =
      ∑ i ∈ range k, expTerm (n / d) (1 + i) + tail * expTerm (n / d) (1 + k) := by
  have h := nest_sum_pos (expTerm ((n : ℝ) / d)) (fun k q => fracVal (expNest n d tail k q)) tail
    (fun q => by simp [fracVal, expNest])
    (fun k q => by
      have a : (0 : ℝ) < (expNest n d tail k (q + 1)).den := by exact_mod_cast expNest_den_pos n d tail hd k (q + 1)
      have d' : (0 : ℝ) < d := by exact_mod_cast hd
      rw [expTerm_succ]
      simp only [fracVal, expNest]
      push_cast
      field_simp) k 1
  rw [← h]
  simp [expTerm]; ring

theorem expNegNest_le (n d tail : ℕ) (hd : 0 < d) (ht : tail ≤ 1) (k : ℕ) :
    ∀ j, 0 < (expNegNest n d tail k j).den ∧ (expNegNest n d tail k j).num ≤ (expNegNest n d tail k j).den := by
  induction k with
  | zero => intro j; exact ⟨Nat.one_pos, ht⟩
  | succ k ih =>
    intro j
    obtain ⟨a, b⟩ := ih (j + 1)
    refine ⟨?_, Nat.sub_le _ _⟩
    simp only [expNegNest]; positivity

theorem expNegNest_sum (n d tail : ℕ) (hd : 0 < d) (hx : n ≤ d) (ht : tail ≤ 1) (k : ℕ) :
    (n : ℝ) / d * fracVal (expNegNest n d tail k 1) =
      ∑ i ∈ range k, (-1) ^ i * expTerm (n / d) (1 + i) + (-1) ^ k * (tail * expTerm (n / d) (1 + k)) := by
  have h := nest_sum_alt (expTerm ((n : ℝ) / d)) (fun k q => fracVal (expNegNest n d tail k q)) tail
    (fun q => by simp [fracVal, expNegNest])
    (fun k q => by
      obtain ⟨a, b⟩ := expNegNest_le n d tail hd ht k (q + 1)
      have c : n * (expNegNest n d tail k (q + 1)).num ≤ d * (q + 1) * (expNegNest n d tail k (q + 1)).den :=
        calc _ ≤ d * (expNegNest n d tail k (q + 1)).den := Nat.mul_le_mul hx b
          _ ≤ _ := Nat.mul_le_mul_right _ (Nat.le_mul_of_pos_right _ (by omega))
      have a' : (0 : ℝ) < (expNegNest n d tail k (q + 1)).den := by exact_mod_cast a
      have d' : (0 : ℝ) < d := by exact_mod_cast hd
      rw [expTerm_succ]
      simp only [fracVal, expNegNest, Nat.cast_sub c]
      push_cast
      field_simp) k 1
  rw [← h]
  simp [expTerm]; ring

/-- The two tails of the nest bracket `e^t - 1`. -/
theorem expNest_bracket (n d : ℕ) (hd : 0 < d) (hx : n ≤ d) (k : ℕ) :
    (n : ℝ) / d * fracVal (expNest n d 1 k 1) ≤ Real.exp (n / d) - 1 ∧
      Real.exp (n / d) - 1 ≤ (n : ℝ) / d * fracVal (expNest n d 2 k 1) := by
  have h0 : (0 : ℝ) ≤ n / d := by positivity
  have h1 : (n : ℝ) / d ≤ 1 := by
    rw [div_le_one (by exact_mod_cast hd)]; exact_mod_cast hx
  have lo := Real.sum_le_exp_of_nonneg h0 (k + 2)
  have hi := Real.exp_bound' h0 h1 (n := k + 1) (by omega)
  rw [expNest_sum n d 1 hd, expNest_sum n d 2 hd]
  have hs : ∀ m, ∑ i ∈ range (m + 1), ((n : ℝ) / d) ^ i / (i.factorial : ℝ) =
      1 + ∑ i ∈ range m, expTerm (n / d) (1 + i) := by
    intro m
    rw [sum_range_succ', add_comm]
    simp [expTerm, add_comm]
  rw [hs] at lo hi
  rw [sum_range_succ] at lo
  refine ⟨by push_cast; linarith [lo], ?_⟩
  have : ((n : ℝ) / d) ^ (k + 1) * ((k + 1 : ℕ) + 1) / ((k + 1).factorial * (k + 1 : ℕ)) ≤
      2 * expTerm ((n : ℝ) / d) (1 + k) := by
    rw [expTerm, add_comm 1 k]
    have f : (0 : ℝ) < (k + 1).factorial := by exact_mod_cast Nat.factorial_pos _
    rw [← mul_div_assoc, div_le_div_iff₀ (by positivity) f]
    have p : (0 : ℝ) ≤ ((n : ℝ) / d) ^ (k + 1) * (k + 1).factorial := by positivity
    push_cast
    nlinarith [mul_nonneg p (Nat.cast_nonneg (α := ℝ) k)]
  push_cast at this hi ⊢
  linarith [hi, this]

theorem exp_neg_between {t : ℝ} (h0 : 0 ≤ t) (h1 : t ≤ 1) (k : ℕ) :
    ∑ i ∈ range (2 * k), (-1) ^ i * expTerm t i ≤ Real.exp (-t) ∧
      Real.exp (-t) ≤ ∑ i ∈ range (2 * k + 1), (-1) ^ i * expTerm t i := by
  have ht : Filter.Tendsto (fun n => ∑ i ∈ range n, (-1) ^ i * expTerm t i) Filter.atTop
      (nhds (Real.exp (-t))) := by
    have h := (NormedSpace.expSeries_div_hasSum_exp (-t)).tendsto_sum_nat
    rw [← Real.exp_eq_exp_ℝ] at h
    refine h.congr fun n => sum_congr rfl fun i _ => ?_
    rw [expTerm, neg_pow]; ring
  have ha : Antitone (expTerm t) := by
    refine antitone_nat_of_succ_le fun q => ?_
    rw [expTerm_succ]
    refine mul_le_of_le_one_right (by unfold expTerm; positivity) ?_
    rw [div_le_one (by positivity)]
    have : (0 : ℝ) ≤ q := Nat.cast_nonneg q
    linarith
  exact ⟨ha.alternating_series_le_tendsto ht k, ha.tendsto_le_alternating_series ht k⟩

/-- The two tails of the nest bracket `1 - e^-t`. -/
theorem expNegNest_bracket (n d : ℕ) (hd : 0 < d) (hx : n ≤ d) (k : ℕ) :
    (n : ℝ) / d * fracVal (expNegNest n d 0 (2 * k) 1) ≤ 1 - Real.exp (-(n / d)) ∧
      1 - Real.exp (-(n / d)) ≤ (n : ℝ) / d * fracVal (expNegNest n d 1 (2 * k) 1) := by
  have h0 : (0 : ℝ) ≤ n / d := by positivity
  have h1 : (n : ℝ) / d ≤ 1 := by
    rw [div_le_one (by exact_mod_cast hd)]; exact_mod_cast hx
  have hs : ∀ m, ∑ i ∈ range (m + 1), (-1) ^ i * expTerm ((n : ℝ) / d) i =
      1 - ∑ i ∈ range m, (-1) ^ i * expTerm (n / d) (1 + i) := by
    intro m
    rw [sum_range_succ']
    have : ∀ i, (-1 : ℝ) ^ (i + 1) * expTerm ((n : ℝ) / d) (i + 1) = -((-1) ^ i * expTerm (n / d) (1 + i)) := by
      intro i; rw [add_comm 1 i]; ring
    simp only [this, sum_neg_distrib]
    simp [expTerm]; ring
  have hi := (exp_neg_between h0 h1 k).2
  have lo := (exp_neg_between h0 h1 (k + 1)).1
  rw [show 2 * (k + 1) = 2 * k + 1 + 1 by ring, hs, sum_range_succ] at lo
  rw [hs] at hi
  rw [expNegNest_sum n d 0 hd hx (by omega), expNegNest_sum n d 1 hd hx (by omega)]
  simp only [pow_mul, neg_one_sq, one_pow, one_mul, Nat.cast_zero, zero_mul, add_zero, Nat.cast_one] at lo hi ⊢
  constructor <;> linarith

theorem sin_size (p P : ℕ) (hp : p ≤ piFloor + 1) (hP : P < 2 ^ 31) : p * P * (p * P) ≤ 6 * (2 ^ 160 * 2 ^ 160) := by
  have h1 : p * P ≤ (piFloor + 1) * 2 ^ 31 := Nat.mul_le_mul hp hP.le
  exact (Nat.mul_le_mul h1 h1).trans (by decide)

theorem sinBound_den_pos (p tail P : ℕ) (hp : p ≤ piFloor + 1) (hP : P < 2 ^ 31) (ht : tail ≤ 1) :
    0 < (sinBound p tail P).den :=
  Nat.mul_pos (by positivity) (sinNest_le (p * P) (2 ^ 160) tail (by positivity) (sin_size p P hp hP) ht 20 1 le_rfl).1

theorem semiBound_den_pos (neg : Bool) (l tail mag : ℕ) (ht : neg = true → tail ≤ 1) :
    0 < (semiBound neg l tail mag).den := by
  have dpos : 0 < 12 * unitsOne * 2 ^ 128 := by decide
  cases neg with
  | false => exact Nat.mul_pos dpos (expNest_den_pos (mag * l) _ tail dpos 32 1)
  | true => exact Nat.mul_pos dpos (expNegNest_le (mag * l) _ tail dpos (ht rfl) 32 1).1

/-- The default envelope's enclosure (log entry 6). -/
theorem sin_enclosed (P : ℕ) (hP : P < 2 ^ 31) :
    fracVal (sinBound piFloor 0 P) ≤ Real.sin (Real.pi * P / 2 ^ 32) ∧
      Real.sin (Real.pi * P / 2 ^ 32) ≤ fracVal (sinBound (piFloor + 1) 1 P) := by
  obtain ⟨pl, pu⟩ := pi_enclosed
  have hP' : (P : ℝ) ≤ 2 ^ 31 - 1 := by
    have : ((P + 1 : ℕ) : ℝ) ≤ ((2 ^ 31 : ℕ) : ℝ) := by exact_mod_cast hP
    push_cast at this; linarith
  have p0 : (0 : ℝ) ≤ P := Nat.cast_nonneg P
  have form : ∀ p tail, fracVal (sinBound p tail P) =
      ((p * P : ℕ) : ℝ) / ((2 ^ 160 : ℕ) : ℝ) * fracVal (sinNest (p * P) (2 ^ 160) tail 20 1) := by
    intro p tail
    simp only [fracVal, sinBound]
    push_cast
    rw [mul_div_mul_comm]
  have lo := (sinNest_bracket (piFloor * P) (2 ^ 160) (by positivity) (sin_size _ _ (by omega) hP) 10).1
  have hi := (sinNest_bracket ((piFloor + 1) * P) (2 ^ 160) (by positivity) (sin_size _ _ le_rfl hP) 10).2
  rw [form, form]
  have x1 : ((piFloor * P : ℕ) : ℝ) / ((2 ^ 160 : ℕ) : ℝ) ≤ Real.pi * P / 2 ^ 32 := by
    push_cast
    rw [div_le_div_iff₀ (by positivity) (by positivity)]
    nlinarith
  have x2 : Real.pi * P / 2 ^ 32 ≤ (((piFloor + 1) * P : ℕ) : ℝ) / ((2 ^ 160 : ℕ) : ℝ) := by
    push_cast
    rw [div_le_div_iff₀ (by positivity) (by positivity)]
    nlinarith
  have x3 : (((piFloor + 1) * P : ℕ) : ℝ) / ((2 ^ 160 : ℕ) : ℝ) ≤ Real.pi / 2 := by
    push_cast
    rw [div_le_div_iff₀ (by positivity) (by positivity)]
    have hpi := Real.pi_gt_three
    have a : ((piFloor : ℝ) + 1) ≤ Real.pi * 2 ^ 128 + 1 := by linarith
    calc ((piFloor : ℝ) + 1) * P * 2 ≤ (Real.pi * 2 ^ 128 + 1) * (2 ^ 31 - 1) * 2 := by gcongr
      _ ≤ _ := by nlinarith
  have x0 : (0 : ℝ) ≤ ((piFloor * P : ℕ) : ℝ) / ((2 ^ 160 : ℕ) : ℝ) := by positivity
  have hpi := Real.pi_pos
  constructor
  · exact lo.trans (Real.sin_le_sin_of_le_of_le_pi_div_two (by linarith) (by linarith) x1)
  · exact (Real.sin_le_sin_of_le_of_le_pi_div_two (by linarith) (by linarith) x2).trans hi

/-- The default mapping's enclosure (log entry 6), for `mag * 2^-149` semitones up. -/
theorem semi_up_enclosed (mag : ℕ) (hm : mag ≤ 12 * unitsOne) :
    fracVal (semiBound false ln2Floor 1 mag) ≤ (2 : ℝ) ^ ((mag : ℝ) / 2 ^ 149 / 12) - 1 ∧
      (2 : ℝ) ^ ((mag : ℝ) / 2 ^ 149 / 12) - 1 ≤ fracVal (semiBound false (ln2Floor + 1) 2 mag) := by
  obtain ⟨pl, pu⟩ := ln2_enclosed
  have p0 : (0 : ℝ) ≤ mag := Nat.cast_nonneg mag
  have form : ∀ l tail, fracVal (semiBound false l tail mag) =
      ((mag * l : ℕ) : ℝ) / ((12 * unitsOne * 2 ^ 128 : ℕ) : ℝ) *
        fracVal (expNest (mag * l) (12 * unitsOne * 2 ^ 128) tail 32 1) := by
    intro l tail
    simp only [fracVal, semiBound, Bool.false_eq_true, if_false]
    rw [Nat.cast_mul, Nat.cast_mul (12 * unitsOne * 2 ^ 128), mul_div_mul_comm]
  have size : ∀ l, l ≤ ln2Floor + 1 → mag * l ≤ 12 * unitsOne * 2 ^ 128 := fun l hl =>
    Nat.mul_le_mul hm (hl.trans (by decide))
  have dpos : 0 < 12 * unitsOne * 2 ^ 128 := by decide
  have lo := (expNest_bracket (mag * ln2Floor) _ dpos (size _ (by omega)) 32).1
  have hi := (expNest_bracket (mag * (ln2Floor + 1)) _ dpos (size _ le_rfl) 32).2
  rw [form, form, Real.rpow_def_of_pos (by norm_num)]
  have u : (unitsOne : ℝ) = 2 ^ 149 := by norm_num [unitsOne]
  have x1 : ((mag * ln2Floor : ℕ) : ℝ) / ((12 * unitsOne * 2 ^ 128 : ℕ) : ℝ) ≤
      Real.log 2 * (mag / 2 ^ 149 / 12) := by
    push_cast
    rw [u, div_le_iff₀ (by positivity)]
    nlinarith
  have x2 : Real.log 2 * (mag / 2 ^ 149 / 12) ≤
      ((mag * (ln2Floor + 1) : ℕ) : ℝ) / ((12 * unitsOne * 2 ^ 128 : ℕ) : ℝ) := by
    push_cast
    rw [u, le_div_iff₀ (by positivity)]
    nlinarith
  constructor
  · exact lo.trans (sub_le_sub_right (Real.exp_le_exp.2 x1) 1)
  · exact (sub_le_sub_right (Real.exp_le_exp.2 x2) 1).trans hi

/-- The same, for `mag * 2^-149` semitones down. -/
theorem semi_down_enclosed (mag : ℕ) (hm : mag ≤ 12 * unitsOne) :
    fracVal (semiBound true ln2Floor 0 mag) ≤ 1 - (2 : ℝ) ^ (-((mag : ℝ) / 2 ^ 149 / 12)) ∧
      1 - (2 : ℝ) ^ (-((mag : ℝ) / 2 ^ 149 / 12)) ≤ fracVal (semiBound true (ln2Floor + 1) 1 mag) := by
  obtain ⟨pl, pu⟩ := ln2_enclosed
  have p0 : (0 : ℝ) ≤ mag := Nat.cast_nonneg mag
  have form : ∀ l tail, fracVal (semiBound true l tail mag) =
      ((mag * l : ℕ) : ℝ) / ((12 * unitsOne * 2 ^ 128 : ℕ) : ℝ) *
        fracVal (expNegNest (mag * l) (12 * unitsOne * 2 ^ 128) tail 32 1) := by
    intro l tail
    simp only [fracVal, semiBound, if_true]
    rw [Nat.cast_mul, Nat.cast_mul (12 * unitsOne * 2 ^ 128), mul_div_mul_comm]
  have size : ∀ l, l ≤ ln2Floor + 1 → mag * l ≤ 12 * unitsOne * 2 ^ 128 := fun l hl =>
    Nat.mul_le_mul hm (hl.trans (by decide))
  have dpos : 0 < 12 * unitsOne * 2 ^ 128 := by decide
  have lo := (expNegNest_bracket (mag * ln2Floor) _ dpos (size _ (by omega)) 16).1
  have hi := (expNegNest_bracket (mag * (ln2Floor + 1)) _ dpos (size _ le_rfl) 16).2
  rw [form, form, Real.rpow_def_of_pos (by norm_num)]
  have u : (unitsOne : ℝ) = 2 ^ 149 := by norm_num [unitsOne]
  have x1 : ((mag * ln2Floor : ℕ) : ℝ) / ((12 * unitsOne * 2 ^ 128 : ℕ) : ℝ) ≤
      -(Real.log 2 * -(mag / 2 ^ 149 / 12)) := by
    push_cast
    rw [u, div_le_iff₀ (by positivity)]
    nlinarith
  have x2 : -(Real.log 2 * -(mag / 2 ^ 149 / 12)) ≤
      ((mag * (ln2Floor + 1) : ℕ) : ℝ) / ((12 * unitsOne * 2 ^ 128 : ℕ) : ℝ) := by
    push_cast
    rw [u, le_div_iff₀ (by positivity)]
    nlinarith
  constructor
  · exact lo.trans (sub_le_sub_left (Real.exp_le_exp.2 (by linarith)) 1)
  · exact (sub_le_sub_left (Real.exp_le_exp.2 (by linarith)) 1).trans hi

/-- What both ends of a bracket round to, everything between rounds to. -/
theorem roundsTo_between {q₁ q₂ y : ℝ} {w : Word} (h₁ : RoundsTo q₁ w) (h₂ : RoundsTo q₂ w) (a : q₁ ≤ y)
    (b : y ≤ q₂) : RoundsTo y w := by
  have sz : signBit (0x00000000#32) = false := by decide
  have fz : isFinite (0x00000000#32) = true := by decide
  have finf : ∀ x : Word, x = infinity (signBit x) → isFinite x = false := by
    intro x hx; rw [hx]; cases signBit x <;> decide
  have neg : q₁ < 0 → signBit w = true := fun h => (h₁.sign h.ne).2 h
  have pos : 0 < q₂ → signBit w = false := fun h => by
    have := (h₂.sign h.ne').not.2 (not_lt.2 h.le)
    simpa using this
  have hz₁ : q₁ = 0 → signBit w = false := fun h => by rw [h₁.zero h]; exact sz
  have hz₂ : q₂ = 0 → w = 0x00000000#32 := h₂.zero
  have beyond : 2 ^ 128 - 2 ^ 103 ≤ |y| → w = infinity (signBit w) := by
    intro hy
    rcases le_abs.1 hy with h | h
    · exact h₂.beyond (le_abs.2 (.inl (h.trans b)))
    · exact h₁.beyond (le_abs.2 (.inr (by linarith)))
  have fin : |y| < 2 ^ 128 - 2 ^ 103 → isFinite w = true := by
    intro hy
    obtain ⟨hl, hu⟩ := abs_lt.1 hy
    by_cases h0 : 0 ≤ y
    · by_cases hq : |q₁| < 2 ^ 128 - 2 ^ 103
      · exact h₁.finite hq
      · have hq1 : q₁ < 0 := by
          by_contra hn
          exact hq (by rw [abs_of_nonneg (not_lt.1 hn)]; linarith)
        rcases (h0.trans b).lt_or_eq with h | h
        · simp [pos h] at neg; linarith
        · rw [hz₂ h.symm]; exact fz
    · by_cases hq : |q₂| < 2 ^ 128 - 2 ^ 103
      · exact h₂.finite hq
      · have hq2 : 0 < q₂ := by
          by_contra hn
          exact hq (by rw [abs_of_nonpos (not_lt.1 hn)]; linarith)
        simp [pos hq2] at neg; linarith
  have small : ∀ q, RoundsTo q w → isFinite w = true → |q| < 2 ^ 128 - 2 ^ 103 := by
    intro q hq hw
    by_contra hn
    simp [finf w (hq.beyond (not_lt.1 hn))] at hw
  have sq : ∀ (v x q : ℝ), |v - q| ≤ |x - q| ↔ (v - x) * (v + x - 2 * q) ≤ 0 := by
    intro v x q
    rw [← sq_le_sq]
    constructor <;> intro h <;> nlinarith
  refine ⟨?_, ?_, beyond, fin, ?_, ?_⟩
  · intro hy
    rcases (hy ▸ b : (0 : ℝ) ≤ q₂).lt_or_eq with h | h
    · rcases (hy ▸ a : q₁ ≤ (0 : ℝ)).lt_or_eq with h' | h'
      · simp [pos h] at neg; linarith
      · exact h₁.zero h'
    · exact hz₂ h.symm
  · intro hy
    constructor
    · intro hs
      by_contra hn
      have hq : 0 < q₂ := lt_of_lt_of_le (lt_of_le_of_ne (not_lt.1 hn) (Ne.symm hy)) b
      simp [pos hq] at hs
    · intro hn; exact neg (lt_of_le_of_lt a hn)
  · intro hy x hx
    have s₁ := (sq _ _ _).1 (h₁.nearest (small _ h₁ (fin hy)) x hx)
    have s₂ := (sq _ _ _).1 (h₂.nearest (small _ h₂ (fin hy)) x hx)
    rw [sq]
    rcases le_total (val x : ℝ) (val w : ℝ) with h | h <;> nlinarith
  · intro hy x hx hne heq
    have s₁ := (sq _ _ _).1 (h₁.nearest (small _ h₁ (fin hy)) x hx)
    have s₂ := (sq _ _ _).1 (h₂.nearest (small _ h₂ (fin hy)) x hx)
    have e : (val w : ℝ) + val x = 2 * y := by
      have h1 := (sq _ _ _).1 heq.le
      have h2 := (sq _ _ _).1 heq.ge
      have hd : (val w : ℝ) - val x ≠ 0 := sub_ne_zero.2 (fun h => hne (by exact_mod_cast h.symm))
      have hp : ((val w : ℝ) - val x) * (val w + val x - 2 * y) = 0 := le_antisymm h2 (by linarith)
      linarith [(mul_eq_zero.1 hp).resolve_left hd]
    have hne' : (val x : ℝ) ≠ val w := by exact_mod_cast hne
    rcases lt_or_gt_of_ne hne' with h | h
    · have : q₁ = y := le_antisymm a (by nlinarith)
      exact h₁.even (small _ h₁ (fin hy)) x hx hne (by rw [this]; exact heq)
    · have : q₂ = y := le_antisymm (by nlinarith) b
      exact h₂.even (small _ h₂ (fin hy)) x hx hne (by rw [this]; exact heq)

/-- What the bounds agree on is each of them. -/
theorem agreed_some {l : List Word} {w : Word} (h : agreed l = some w) : ∀ x ∈ l, x = w := by
  cases l with
  | nil => simp [agreed] at h
  | cons a r =>
    simp only [agreed] at h
    split at h
    · rename_i hr; cases h
      intro x hx
      rcases List.mem_cons.1 hx with rfl | hx
      · rfl
      · simpa using List.all_eq_true.1 hr x hx
    · cases h

/-- The sine is the same on both sides of half a cycle. -/
theorem sin_fold (P : Word) : Real.sin (Real.pi * (min P.toNat (2 ^ 32 - P.toNat) : ℕ) / 2 ^ 32) =
    Real.sin (Real.pi * P.toNat / 2 ^ 32) := by
  have hl := P.isLt
  rcases le_total P.toNat (2^32 - P.toNat) with h | h
  · rw [min_eq_left h]
  · rw [min_eq_right h, Nat.cast_sub hl.le, ← Real.sin_pi_sub]
    have : Real.pi - Real.pi * (((2 ^ 32 : ℕ) : ℝ) - P.toNat) / 2 ^ 32 = Real.pi * P.toNat / 2 ^ 32 := by
      push_cast; ring
    rw [this]

theorem fold_toNat (P : Word) (h0 : P ≠ 0#32) :
    (if P.toNat < 2 ^ 31 then P else 0#32 - P).toNat = min P.toNat (2 ^ 32 - P.toNat) := by
  have hl := P.isLt
  have hz : P.toNat ≠ 0 := fun hh => h0 (BitVec.eq_of_toNat_eq (by simpa using hh))
  split
  · omega
  · simp; omega

end Sys2Proof.Laws
end

