-- ==== Sys2Proof/Laws/ExactRounding.lean ====
section
/-! SUPPORT. Rounding a real by comparing it with rationals: the search of Machine/Functions.lean finds the word R11
names for every real that the comparison decides, the comparisons decide the sine and the power of R24 and R25,
so both paths of a default give the exact real rounded once; and rounding keeps order and the bounds 0 and 1. -/

namespace Sys2Proof.Laws

open Sys2Proof.Machine

/-! ### Comparisons -/

/-- `o` says how `x` compares with `y`. -/
def Compared (o : Ordering) (x y : ℝ) : Prop :=
  match o with
  | .lt => x < y
  | .eq => x = y
  | .gt => y < x

theorem compared_compare {α : Type} [LinearOrder α] (f : α → ℝ) (hf : StrictMono f) (a b : α) :
    Compared (compare a b) (f a) (f b) := by
  cases h : compare a b with
  | lt => exact hf (compare_lt_iff_lt.1 h)
  | eq => exact congrArg f (compare_eq_iff_eq.1 h)
  | gt => exact hf (compare_gt_iff_gt.1 h)

/-- What a strictly monotone map on a set tells of two images, it tells of the points. -/
theorem Compared.of_image {o : Ordering} {S : Set ℝ} {f : ℝ → ℝ} (hf : StrictMonoOn f S) {x y : ℝ} (hx : x ∈ S)
    (hy : y ∈ S) (h : Compared o (f x) (f y)) : Compared o x y := by
  cases o with
  | lt => exact (hf.lt_iff_lt hx hy).1 h
  | eq => exact hf.injOn hx hy h
  | gt => exact (hf.lt_iff_lt hy hx).1 h

theorem Compared.swap_neg {o : Ordering} {x y : ℝ} (h : Compared o x y) : Compared o.swap (-x) (-y) := by
  cases o with
  | lt => exact neg_lt_neg h
  | eq => exact congrArg (- ·) h
  | gt => exact neg_lt_neg h

/-- A strictly monotone map keeps a comparison. -/
theorem Compared.image {o : Ordering} {f : ℝ → ℝ} (hf : StrictMono f) {x y : ℝ} (h : Compared o x y) :
    Compared o (f x) (f y) := by
  cases o with
  | lt => exact hf h
  | eq => exact congrArg f h
  | gt => exact hf h

/-- Taken from one, the two sides change places. -/
theorem Compared.one_sub {o : Ordering} {x y : ℝ} (h : Compared o x y) : Compared o (1 - y) (1 - x) := by
  cases o with
  | lt => exact sub_lt_sub_left h 1
  | eq => exact congrArg (1 - ·) (Eq.symm h)
  | gt => exact sub_lt_sub_left h 1

/-! ### The search -/

/-- The search finds the last of an initial segment. -/
theorem searchMag_spec (up : ℕ → Bool) (hup : ∀ a b, 1 ≤ a → a ≤ b → b ≤ 0x7F800000 → up b = true → up a = true)
    (j : ℕ) : ∀ m, (m = 0 ∨ m ≤ 0x7F800000 ∧ up m = true) →
      (∀ k, 1 ≤ k → k ≤ 0x7F800000 → up k = true → k < m + 2 ^ j) →
      (searchMag up j m = 0 ∨ searchMag up j m ≤ 0x7F800000 ∧ up (searchMag up j m) = true) ∧
        ∀ k, 1 ≤ k → k ≤ 0x7F800000 → up k = true → k ≤ searchMag up j m := by
  induction j with
  | zero => exact fun m h1 h2 => ⟨h1, fun k a b c => Nat.lt_succ_iff.1 (h2 k a b c)⟩
  | succ j ih =>
    intro m h1 h2
    rw [searchMag]
    split
    · rename_i h
      refine ih _ (.inr h) fun k a b c => ?_
      have := h2 k a b c
      rw [pow_succ] at this; omega
    · rename_i h
      refine ih _ h1 fun k a b c => ?_
      by_contra hk
      exact h ⟨by omega, hup _ k (by have := Nat.two_pow_pos j; omega) (by omega) b c⟩

/-- The value of magnitude bits. -/
noncomputable def magReal (k : ℕ) : ℝ := magVal k / 2 ^ 149

theorem magReal_lt {j k : ℕ} (h : j < k) : magReal j < magReal k := by
  unfold magReal
  have : (magVal j : ℝ) < magVal k := by exact_mod_cast magVal_lt h
  gcongr

theorem magReal_le {j k : ℕ} (h : j ≤ k) : magReal j ≤ magReal k := by
  rcases h.lt_or_eq with h | rfl
  · exact (magReal_lt h).le
  · exact le_rfl

theorem magReal_zero : magReal 0 = 0 := by simp [magReal, (magVal_zero_iff 0).2 rfl]

theorem val_eq_magReal (w : Word) :
    (Machine.val w : ℝ) = (if signBit w then -1 else 1) * magReal (w.toNat % 2 ^ 31) := by
  rw [val_eq]; unfold magReal; split <;> push_cast <;> ring

theorem withSign_fields (neg : Bool) {k : ℕ} (hk : k ≤ 0x7F800000) :
    (withSign neg k).toNat % 2 ^ 31 = k ∧ signBit (withSign neg k) = neg := by
  have e := withSign_toNat neg k (by omega)
  constructor
  · rw [e]; split <;> omega
  · rw [signBit_iff, e]; cases neg <;> simp <;> omega

theorem val_withSign (neg : Bool) {k : ℕ} (hk : k ≤ 0x7F800000) :
    (Machine.val (withSign neg k) : ℝ) = (if neg then -1 else 1) * magReal k := by
  rw [val_eq_magReal, (withSign_fields neg hk).1, (withSign_fields neg hk).2]

/-- The boundary below the magnitude bits `k`. -/
noncomputable def boundary (k : ℕ) : ℝ := (magReal (k - 1) + magReal k) / 2

theorem boundary_top : boundary 0x7F800000 = 2 ^ 128 - 2 ^ 103 := by
  have h1 : magVal 0x7F800000 = 2 ^ 23 * 2 ^ 254 := by decide
  have h2 : magVal (0x7F800000 - 1) = (2 ^ 24 - 1) * 2 ^ 253 := by decide
  unfold boundary magReal
  rw [h1, h2]; push_cast; norm_num

theorem boundary_cast (k : ℕ) (hk : k ≤ 0x7F800000) :
    boundary k = ((magUnits (withSign false (k - 1)) + magUnits (withSign false k) : ℕ) : ℝ) / ((2 * unitsOne : ℕ) : ℝ) := by
  rw [magUnits_eq, magUnits_eq, (withSign_fields false (by omega)).1, (withSign_fields false hk).1]
  unfold boundary magReal unitsOne
  push_cast; ring

theorem reaches_iff {cmp : ℕ → ℕ → Ordering} {y : ℝ} (hc : ∀ n d : ℕ, 0 < d → Compared (cmp n d) y ((n : ℝ) / d))
    {k : ℕ} (hk : k ≤ 0x7F800000) : reaches cmp k = true ↔ boundary k < y ∨ (y = boundary k ∧ k % 2 = 0) := by
  have h := hc (magUnits (withSign false (k - 1)) + magUnits (withSign false k)) (2 * unitsOne) (by decide)
  rw [← boundary_cast k hk] at h
  unfold reaches
  cases e : cmp (magUnits (withSign false (k - 1)) + magUnits (withSign false k)) (2 * unitsOne) <;> rw [e] at h <;>
    simp only [Compared] at h
  · simp [h.not_gt, h.ne]
  · simp [h]
  · simp [h]

theorem boundary_succ_le {a b : ℕ} (h : a < b) : boundary (a + 1) ≤ (magReal a + magReal b) / 2 := by
  have := magReal_le (show a + 1 ≤ b from h)
  unfold boundary; rw [Nat.add_sub_cancel]; linarith

theorem le_boundary {a b : ℕ} (h : a < b) : (magReal a + magReal b) / 2 ≤ boundary b := by
  have := magReal_le (show a ≤ b - 1 by omega)
  unfold boundary; linarith

theorem boundary_lt {a b : ℕ} (ha : 1 ≤ a) (h : a < b) : boundary a < boundary b := by
  have h1 := magReal_lt (show a - 1 < a by omega)
  have h2 := le_boundary h
  have h3 := magReal_lt h
  have : boundary a = (magReal (a - 1) + magReal a) / 2 := rfl
  linarith

theorem abs_sub_le_iff_mul (x z q : ℝ) : |x - q| ≤ |z - q| ↔ (x - z) * (x + z - 2 * q) ≤ 0 := by
  rw [← sq_le_sq]
  constructor <;> intro h <;> nlinarith

section

variable {cmp : ℕ → ℕ → Ordering} {y : ℝ} (hc : ∀ n d : ℕ, 0 < d → Compared (cmp n d) y ((n : ℝ) / d))

include hc

theorem reaches_mono {a b : ℕ} (ha : 1 ≤ a) (hab : a ≤ b) (hb : b ≤ 0x7F800000) (h : reaches cmp b = true) :
    reaches cmp a = true := by
  rcases hab.lt_or_eq with hlt | rfl
  · have lt := boundary_lt ha hlt
    rw [reaches_iff hc (by omega)]
    rcases (reaches_iff hc hb).1 h with h | ⟨h, -⟩
    · exact .inl (lt.trans h)
    · exact .inl (h ▸ lt)
  · exact h

/-- The magnitude the search finds is the last one reached. -/
theorem roundMag_last : roundMag cmp ≤ 0x7F800000 ∧ (roundMag cmp = 0 ∨ reaches cmp (roundMag cmp) = true) ∧
    ∀ k, 1 ≤ k → k ≤ 0x7F800000 → reaches cmp k = true → k ≤ roundMag cmp := by
  obtain ⟨h1, h2⟩ := searchMag_spec (reaches cmp) (fun _ _ => reaches_mono hc) 31 0 (.inl rfl)
    (fun k _ hk _ => by omega)
  refine ⟨?_, h1.imp id And.right, h2⟩
  rcases h1 with h | h
  · exact h.trans_le (Nat.zero_le _)
  · exact h.1

/-- No magnitude below it is nearer, and one equally near makes it even. -/
theorem roundMag_below {j : ℕ} (hj : j < roundMag cmp) : (magReal j + magReal (roundMag cmp)) / 2 ≤ y ∧
    ((magReal j + magReal (roundMag cmp)) / 2 = y → roundMag cmp % 2 = 0) := by
  obtain ⟨h0, h1, -⟩ := roundMag_last hc
  have h3 := le_boundary hj
  rcases (reaches_iff hc h0).1 (h1.resolve_left (by omega)) with h | ⟨h, e⟩
  · exact ⟨h3.trans h.le, fun e => by linarith⟩
  · exact ⟨h ▸ h3, fun _ => e⟩

/-- The same for the magnitudes above it. -/
theorem roundMag_above (hK : roundMag cmp < 0x7F800000) {j : ℕ} (hj : roundMag cmp < j) :
    y ≤ (magReal j + magReal (roundMag cmp)) / 2 ∧
      ((magReal j + magReal (roundMag cmp)) / 2 = y → roundMag cmp % 2 = 0) := by
  obtain ⟨-, -, h2⟩ := roundMag_last hc
  have h3 := boundary_succ_le hj
  rw [add_comm (magReal j)]
  have n : ¬reaches cmp (roundMag cmp + 1) = true := fun h => by have := h2 _ (by omega) (by omega) h; omega
  rw [reaches_iff hc (by omega), not_or, not_lt] at n
  refine ⟨n.1.trans h3, fun e => ?_⟩
  by_contra hk
  exact n.2 ⟨le_antisymm n.1 (e ▸ h3), by omega⟩

/-- It is infinity's exactly from the threshold on. -/
theorem roundMag_top : roundMag cmp = 0x7F800000 ↔ 2 ^ 128 - 2 ^ 103 ≤ y := by
  obtain ⟨h0, h1, h2⟩ := roundMag_last hc
  have r := reaches_iff hc (le_refl 0x7F800000)
  rw [boundary_top] at r
  constructor
  · intro e
    rw [e] at h1
    rcases r.1 (h1.resolve_left (by omega)) with h | ⟨h, -⟩ <;> linarith
  · intro h
    refine le_antisymm h0 (h2 _ (by omega) le_rfl (r.2 ?_))
    rcases h.lt_or_eq with h | h
    · exact .inl h
    · exact .inr ⟨h.symm, by decide⟩

theorem roundMag_finite (h : y < 2 ^ 128 - 2 ^ 103) : roundMag cmp < 0x7F800000 :=
  lt_of_le_of_ne (roundMag_last hc).1 fun e => absurd ((roundMag_top hc).1 e) (not_le.2 h)

theorem roundMag_nearest (h : y < 2 ^ 128 - 2 ^ 103) (j : ℕ) :
    |magReal (roundMag cmp) - y| ≤ |magReal j - y| := by
  rw [abs_sub_le_iff_mul]
  rcases lt_trichotomy j (roundMag cmp) with hj | hj | hj
  · have lt := magReal_lt hj
    have := (roundMag_below hc hj).1
    exact mul_nonpos_of_nonneg_of_nonpos (by linarith) (by linarith)
  · rw [← hj]; simp
  · have lt := magReal_lt hj
    have := (roundMag_above hc (roundMag_finite hc h) hj).1
    exact mul_nonpos_of_nonpos_of_nonneg (by linarith) (by linarith)

theorem roundMag_tie (h : y < 2 ^ 128 - 2 ^ 103) {j : ℕ} (hj : j ≠ roundMag cmp)
    (he : |magReal j - y| = |magReal (roundMag cmp) - y|) : roundMag cmp % 2 = 0 := by
  have e1 := (abs_sub_le_iff_mul _ _ _).1 he.le
  have e2 := (abs_sub_le_iff_mul _ _ _).1 he.ge
  have p : (magReal j - magReal (roundMag cmp)) * (magReal j + magReal (roundMag cmp) - 2 * y) = 0 :=
    le_antisymm e1 (by linarith)
  rcases lt_or_gt_of_ne hj with hl | hl
  · have lt := magReal_lt hl
    have := (mul_eq_zero.1 p).resolve_left (by linarith)
    exact (roundMag_below hc hl).2 (by linarith)
  · have lt := magReal_lt hl
    have := (mul_eq_zero.1 p).resolve_left (by linarith)
    exact (roundMag_above hc (roundMag_finite hc h) hl).2 (by linarith)

end

theorem magReal_nonneg (k : ℕ) : 0 ≤ magReal k := magReal_zero ▸ magReal_le (Nat.zero_le k)

/-- How far a word lies from a real of a given sign. -/
theorem val_dist (b : Word) (neg : Bool) {y : ℝ} (hy : 0 < y) :
    (signBit b = neg ∧
        |(Machine.val b : ℝ) - (if neg then -1 else 1) * y| = |magReal (b.toNat % 2 ^ 31) - y|) ∨
      (signBit b ≠ neg ∧ |(Machine.val b : ℝ) - (if neg then -1 else 1) * y| = magReal (b.toNat % 2 ^ 31) + y) := by
  have n := magReal_nonneg (b.toNat % 2 ^ 31)
  rw [val_eq_magReal]
  generalize magReal (b.toNat % 2 ^ 31) = m at n ⊢
  cases signBit b <;> cases neg
  · exact .inl ⟨rfl, by simp⟩
  · exact .inr ⟨by simp, by rw [show (if false = true then -1 else 1) * m - (if true = true then -1 else 1) * y = m + y by
      simp, abs_of_nonneg (by linarith)]⟩
  · exact .inr ⟨by simp, by rw [show (if true = true then -1 else 1) * m - (if false = true then -1 else 1) * y =
      -(m + y) by simp; ring, abs_neg, abs_of_nonneg (by linarith)]⟩
  · exact .inl ⟨rfl, by rw [show (if true = true then -1 else 1) * m - (if true = true then -1 else 1) * y =
      -(m - y) by simp; ring, abs_neg]⟩

/-- Magnitude bits that are the nearest of all to a positive real, with R11's tie and overflow, round it, and with the sign
put on them its negative. -/
theorem roundsTo_of_magnitude {K : ℕ} {y : ℝ} (hy : 0 < y) (hK : K ≤ 0x7F800000)
    (top : 2 ^ 128 - 2 ^ 103 ≤ y → K = 0x7F800000) (fin : y < 2 ^ 128 - 2 ^ 103 → K < 0x7F800000)
    (near : y < 2 ^ 128 - 2 ^ 103 → ∀ j, |magReal K - y| ≤ |magReal j - y|)
    (tie : y < 2 ^ 128 - 2 ^ 103 → ∀ j, j ≠ K → |magReal j - y| = |magReal K - y| → K % 2 = 0) (neg : Bool) :
    RoundsTo ((if neg then -1 else 1) * y) (withSign neg K) := by
  obtain ⟨f1, f2⟩ := withSign_fields neg hK
  have v := val_withSign neg hK
  have size : |(if neg then -1 else 1) * y| = y := by cases neg <;> simp [abs_of_pos hy]
  have vK : |(Machine.val (withSign neg K) : ℝ) - (if neg then -1 else 1) * y| = |magReal K - y| := by
    rcases val_dist (withSign neg K) neg hy with ⟨-, h⟩ | ⟨h, -⟩
    · rw [h, f1]
    · exact absurd f2 h
  have zeroDist : |magReal 0 - y| = y := by rw [magReal_zero, zero_sub, abs_neg, abs_of_pos hy]
  refine ⟨fun h => ?_, fun _ => ?_, fun h => ?_, fun h => ?_, fun h b _ => ?_, fun h b _ hne he => ?_⟩
  · exact absurd h (mul_ne_zero (by cases neg <;> simp) hy.ne')
  · rw [f2]; cases neg <;> simp [hy, hy.le]
  · rw [size] at h
    rw [f2, top h]; cases neg <;> decide
  · rw [size] at h
    rw [isFinite_iff, f1]; simpa using fin h
  · rw [size] at h
    rw [vK]
    rcases val_dist b neg hy with ⟨-, e⟩ | ⟨-, e⟩ <;> rw [e]
    · exact near h _
    · have := near h 0
      linarith [magReal_nonneg (b.toNat % 2 ^ 31)]
  · rw [size] at h
    rw [vK] at he
    have ev : K % 2 = 0 := by
      rcases val_dist b neg hy with ⟨hs, e⟩ | ⟨-, e⟩ <;> rw [e] at he
      · refine tie h _ (fun hj => hne ?_) he
        have : (Machine.val b : ℝ) = Machine.val (withSign neg K) := by
          rw [val_eq_magReal, hs, hj, v]
        exact_mod_cast this
      · have z0 := near h 0
        have z : magReal (b.toNat % 2 ^ 31) = 0 :=
          le_antisymm (by linarith) (magReal_nonneg _)
        refine tie h 0 (fun hj => hne ?_) (by rw [zeroDist, ← he, z, zero_add])
        have : (Machine.val b : ℝ) = Machine.val (withSign neg K) := by
          rw [val_eq_magReal, z, v, ← hj, magReal_zero]; simp
        exact_mod_cast this
    have e : (withSign neg K).toNat % 2 = 0 := by omega
    simp [BitVec.getLsbD, Nat.testBit_zero, e]

/-- The search finds the word R11 names for a positive real that the comparison decides. -/
theorem roundMag_roundsTo {cmp : ℕ → ℕ → Ordering} {y : ℝ} (hy : 0 < y)
    (hc : ∀ n d : ℕ, 0 < d → Compared (cmp n d) y ((n : ℝ) / d)) (neg : Bool) :
    RoundsTo ((if neg then -1 else 1) * y) (withSign neg (roundMag cmp)) :=
  roundsTo_of_magnitude hy (roundMag_last hc).1 (roundMag_top hc).2 (roundMag_finite hc)
    (fun h => roundMag_nearest hc h) (fun h _ => roundMag_tie hc h) neg

/-- What `rne32` answers, as a rounding of reals. -/
theorem rne32_roundsTo (n : ℤ) {d : ℕ} (hd : 0 < d) : RoundsTo ((n : ℝ) / d) (rne32 n d) := by
  have hd' : (0 : ℝ) < d := by exact_mod_cast hd
  by_cases hn : n = 0
  · subst hn
    have z : |((0 : ℤ) : ℝ) / d| = 0 := by simp
    have v0 : (Machine.val 0x00000000#32 : ℝ) = 0 := by
      rw [val_eq_magReal, show (0x00000000#32 : Word).toNat % 2 ^ 31 = 0 by decide, magReal_zero, mul_zero]
    have e : rne32 0 d = 0x00000000#32 := rfl
    rw [e]
    refine ⟨fun _ => rfl, fun h => absurd (by simp) h, fun h => ?_, fun _ => by decide, fun _ b _ => ?_,
      fun _ _ _ _ _ => by decide⟩
    · rw [z] at h; norm_num at h
    · rw [v0]; simp
  · obtain ⟨U, hU⟩ : ∃ U : ℕ, U = 2 ^ 149 := ⟨_, rfl⟩
    have hU' : (0 : ℝ) < U := by rw [hU]; positivity
    have hA : 0 < n.natAbs := by omega
    have hA' : (0 : ℝ) < n.natAbs := by exact_mod_cast hA
    have sgn : (n : ℝ) / d = (if decide (n < 0) then -1 else 1) * ((n.natAbs : ℝ) / d) := by
      rw [Nat.cast_natAbs]
      by_cases h : n < 0
      · simp [h, abs_of_neg h, neg_div]
      · simp [h, abs_of_nonneg (not_lt.1 h)]
    have diff : ∀ j, magReal j - (n.natAbs : ℝ) / d =
        (((magVal j : ℤ) * d - n.natAbs * U : ℤ) : ℝ) / ((U : ℝ) * d) := by
      intro j
      unfold magReal
      rw [show (2 : ℝ) ^ 149 = U by rw [hU, Nat.cast_pow, Nat.cast_ofNat]]
      generalize n.natAbs = A
      push_cast; field_simp
    have thr : (n.natAbs : ℝ) / d < 2 ^ 128 - 2 ^ 103 ↔ n.natAbs * U < d * ((2 ^ 25 - 1) * 2 ^ 252) := by
      rw [div_lt_iff₀ hd']
      constructor
      · intro h
        have : ((n.natAbs * U : ℕ) : ℝ) < ((d * ((2 ^ 25 - 1) * 2 ^ 252) : ℕ) : ℝ) := by rw [hU]; push_cast; nlinarith
        exact_mod_cast this
      · intro h
        have : ((n.natAbs * U : ℕ) : ℝ) < ((d * ((2 ^ 25 - 1) * 2 ^ 252) : ℕ) : ℝ) := by exact_mod_cast h
        rw [hU] at this; push_cast at this; nlinarith
    have hUd : (0 : ℝ) < U * d := by positivity
    rw [sgn, rne32, if_neg hn]
    refine roundsTo_of_magnitude (by positivity) (by rw [rneMag_eq]; exact min_le_right _ _) (fun h => ?_)
      (fun h => (rneMag_under _ _ U hU hA hd (thr.1 h)).1) (fun h j => ?_) (fun h j hj he => ?_) _
    · exact rneMag_over _ _ U hU hA hd (not_lt.1 fun hl => absurd (thr.2 hl) (not_lt.2 h))
    · have := ((rneMag_under _ _ U hU hA hd (thr.1 h)).2 (magVal j) j (.inl rfl)).1
      rw [diff, diff, abs_div, abs_div, ← Int.cast_abs, ← Int.cast_abs]
      exact div_le_div_of_nonneg_right (Int.cast_le.2 this) (abs_nonneg _)
    · rw [diff, diff, abs_div, abs_div, ← Int.cast_abs, ← Int.cast_abs,
        div_left_inj' (abs_pos.2 hUd.ne').ne', Int.cast_inj] at he
      exact ((rneMag_under _ _ U hU hA hd (thr.1 h)).2 (magVal j) j (.inl rfl)).2
        (fun e => hj (magVal_inj (by exact_mod_cast e))) he

/-- Rounding keeps order. -/
theorem roundsTo_val_le {y z : ℝ} {v w : Word} (hv : RoundsTo y v) (hw : RoundsTo z w) (h : y < z)
    (fy : |y| < 2 ^ 128 - 2 ^ 103) (fz : |z| < 2 ^ 128 - 2 ^ 103) : Machine.val v ≤ Machine.val w := by
  by_contra hn
  have hn' : (Machine.val w : ℝ) < Machine.val v := by exact_mod_cast not_le.1 hn
  have h1 := (abs_sub_le_iff_mul _ _ _).1 (hv.nearest fy w (hw.finite fz))
  have h2 := (abs_sub_le_iff_mul _ _ _).1 (hw.nearest fz v (hv.finite fy))
  have e1 : (Machine.val v : ℝ) + Machine.val w - 2 * y ≤ 0 := by
    by_contra c
    exact absurd h1 (not_le.2 (mul_pos (by linarith) (not_le.1 c)))
  have e2 : 0 ≤ (Machine.val w : ℝ) + Machine.val v - 2 * z := by
    by_contra c
    exact absurd h2 (not_le.2 (mul_pos_of_neg_of_neg (by linarith) (not_le.1 c)))
  linarith

/-- A real in `(0, 1]` rounds into `[0, 1]`. -/
theorem roundsTo_unit {y : ℝ} {w : Word} (h : RoundsTo y w) (h0 : 0 < y) (h1 : y ≤ 1) :
    isFinite w = true ∧ 0 ≤ Machine.val w ∧ Machine.val w ≤ 1 := by
  have small : |y| < 2 ^ 128 - 2 ^ 103 := by
    rw [abs_of_pos h0]; exact lt_of_le_of_lt h1 (by norm_num)
  have one : Machine.val 0x3F800000#32 = 1 := by
    rw [Machine.val, show units 0x3F800000#32 = 2 ^ 149 by decide]; norm_num
  have sg : signBit w = false := by
    by_contra hs
    exact absurd ((h.sign h0.ne').1 (by simpa using hs)) (not_lt.2 h0.le)
  refine ⟨h.finite small, ?_, ?_⟩
  · have : (0 : ℝ) ≤ Machine.val w := by
      rw [val_eq_magReal, sg]; simpa using magReal_nonneg _
    exact_mod_cast this
  · have n := (abs_sub_le_iff_mul _ _ _).1 (h.nearest small 0x3F800000#32 (by decide))
    rw [one] at n
    push_cast at n
    by_contra c
    have c' : (1 : ℝ) < Machine.val w := by exact_mod_cast not_le.1 c
    exact absurd n (not_le.2 (mul_pos (by linarith) (by linarith)))

/-! ### The comparisons of the two defaults -/

/-- An acute angle compares as its double does. -/
theorem compared_double {o : Ordering} {x : ℝ} {n : ℤ} {d : ℕ} (hx : 0 ≤ Real.cos x) (hn : 0 ≤ n) (hd : 0 < d)
    (h : Compared o (Real.cos (2 * x)) (((2 * n * n - d * d : ℤ) : ℝ) / ((d * d : ℕ) : ℝ))) :
    Compared o (Real.cos x) ((n : ℝ) / d) := by
  have hd' : (0 : ℝ) < d := by exact_mod_cast hd
  have hn' : (0 : ℝ) ≤ n := by exact_mod_cast hn
  refine Compared.of_image (f := fun z => 2 * z ^ 2 - 1) (S := Set.Ici 0) ?_ hx
    (show (0 : ℝ) ≤ n / d by positivity) ?_
  · intro a ha b _ hab
    have : a ^ 2 < b ^ 2 := pow_lt_pow_left₀ hab ha (by decide)
    dsimp only; linarith
  · have e : ((2 * n * n - d * d : ℤ) : ℝ) / ((d * d : ℕ) : ℝ) = 2 * ((n : ℝ) / d) ^ 2 - 1 := by
      push_cast; field_simp
    rwa [← Real.cos_two_mul, ← e]

theorem cmpCos_spec (f : ℕ) (hf : f ≤ 31) : ∀ (a : ℕ) (n : ℤ) (d : ℕ), 0 < a → a < 2 ^ 32 → 2 ^ (31 - f) ∣ a → 0 < d →
    Compared (cmpCos f a n d) (Real.cos (Real.pi * a / 2 ^ 32)) ((n : ℝ) / d) := by
  have half : ∀ (n : ℤ) (d : ℕ), 0 < d →
      Compared (compare 0 n) (Real.cos (Real.pi * (2 ^ 31 : ℕ) / 2 ^ 32)) ((n : ℝ) / d) := by
    intro n d hd
    have hd' : (0 : ℝ) < d := by exact_mod_cast hd
    rw [show Real.pi * ((2 ^ 31 : ℕ) : ℝ) / 2 ^ 32 = Real.pi / 2 by push_cast; ring, Real.cos_pi_div_two]
    have := compared_compare (fun z : ℤ => (z : ℝ) / d)
      (fun a b h => div_lt_div_of_pos_right (Int.cast_lt.2 h) hd') 0 n
    simpa using this
  have acute : ∀ x : ℕ, x < 2 ^ 31 → 0 < Real.cos (Real.pi * x / 2 ^ 32) := by
    intro x hx
    have hx' : (x : ℝ) < 2 ^ 31 := by exact_mod_cast hx
    have := Real.pi_pos
    refine Real.cos_pos_of_mem_Ioo ⟨by have : 0 ≤ Real.pi * x / 2 ^ 32 := by positivity
                                       linarith, ?_⟩
    rw [div_lt_div_iff₀ (by positivity) (by positivity)]; nlinarith
  induction f with
  | zero =>
    intro a n d h0 h1 h2 hd
    have : a = 2 ^ 31 := by obtain ⟨c, rfl⟩ := h2; omega
    subst this; exact half n d hd
  | succ f ih =>
    intro a n d h0 h1 h2 hd
    have hd' : (0 : ℝ) < d := by exact_mod_cast hd
    have hdd : 0 < d * d := Nat.mul_pos hd hd
    have e : 31 - f = (31 - (f + 1)) + 1 := by omega
    rw [cmpCos]
    split
    · rename_i h; subst h; exact half n d hd
    · split
      · rename_i hne hlt
        split
        · rename_i hn
          have hn' : (n : ℝ) < 0 := by exact_mod_cast hn
          exact (div_neg_of_neg_of_pos hn' hd').trans (acute a hlt)
        · rename_i hn
          refine compared_double (acute a hlt).le (not_lt.1 hn) hd ?_
          have := ih (by omega) (2 * a) (2 * n * n - d * d) (d * d) (by omega) (by omega)
            (by rw [e, pow_succ, mul_comm]; exact Nat.mul_dvd_mul_left 2 h2) hdd
          rwa [show 2 * (Real.pi * a / 2 ^ 32) = Real.pi * ((2 * a : ℕ) : ℝ) / 2 ^ 32 by push_cast; ring]
      · rename_i hne hge
        have hb : 2 ^ 32 - a < 2 ^ 31 := by omega
        have sup : Real.cos (Real.pi * a / 2 ^ 32) = -Real.cos (Real.pi * ((2 ^ 32 - a : ℕ) : ℝ) / 2 ^ 32) := by
          rw [← Real.cos_pi_sub, Nat.cast_sub h1.le]; congr 1; push_cast; ring
        rw [sup]
        split
        · rename_i hn
          have hn' : (0 : ℝ) < n := by exact_mod_cast hn
          exact (neg_lt_zero.2 (acute _ hb)).trans (div_pos hn' hd')
        · rename_i hn
          have dv : 2 ^ (31 - (f + 1)) ∣ 2 ^ 32 - a :=
            Nat.dvd_sub (pow_dvd_pow 2 (by omega)) h2
          have := ih (by omega) (2 * (2 ^ 32 - a)) (2 * n * n - d * d) (d * d) (by omega) (by omega)
            (by rw [e, pow_succ, mul_comm]; exact Nat.mul_dvd_mul_left 2 dv) hdd
          have c := compared_double (n := -n) (acute _ hb).le (by omega) hd (by
            rw [show 2 * -n * -n - (d : ℤ) * d = 2 * n * n - d * d by ring,
              show 2 * (Real.pi * ((2 ^ 32 - a : ℕ) : ℝ) / 2 ^ 32) =
                Real.pi * ((2 * (2 ^ 32 - a) : ℕ) : ℝ) / 2 ^ 32 by push_cast; ring]
            exact this)
          have := c.swap_neg
          rwa [show -(((-n : ℤ) : ℝ) / d) = (n : ℝ) / d by push_cast; ring] at this

/-- The slow path of the default envelope is the sine rounded once. -/
theorem sinExact_roundsTo (P : ℕ) (h0 : 0 < P) (h1 : P < 2 ^ 31) :
    RoundsTo (Real.sin (Real.pi * P / 2 ^ 32)) (sinExact P) := by
  have hP : (0 : ℝ) < P := by exact_mod_cast h0
  have hP' : (P : ℝ) < 2 ^ 31 := by exact_mod_cast h1
  have hpi := Real.pi_pos
  have e : Real.cos (Real.pi * ((2 ^ 31 - P : ℕ) : ℝ) / 2 ^ 32) = Real.sin (Real.pi * P / 2 ^ 32) := by
    rw [← Real.cos_pi_div_two_sub, Nat.cast_sub h1.le]; congr 1; push_cast; ring
  have pos : 0 < Real.sin (Real.pi * P / 2 ^ 32) :=
    Real.sin_pos_of_pos_of_lt_pi (by positivity) (by rw [div_lt_iff₀ (by positivity)]; nlinarith)
  have := roundMag_roundsTo pos (cmp := fun n d => cmpCos 31 (2 ^ 31 - P) n d) (fun n d hd => by
    have := cmpCos_spec 31 le_rfl (2 ^ 31 - P) n d (by omega) (by omega) (one_dvd _) hd
    rwa [e] at this) false
  simpa [sinExact] using this

/-- `|2^(±x) - 1| * 1000 / val(m)` for `x = mag / (12 * 2^149)`. -/
noncomputable def semiReal (neg : Bool) (mag mu : ℕ) : ℝ :=
  (if neg then 1 - (2 : ℝ) ^ (-((mag : ℝ) / (12 * unitsOne : ℕ))) else (2 : ℝ) ^ ((mag : ℝ) / (12 * unitsOne : ℕ)) - 1) *
    1000 / (mu / unitsOne)

theorem cmpSemi_spec (neg : Bool) (mag mu : ℕ) (hmu : 0 < mu) (n d : ℕ) (hd : 0 < d) :
    Compared (cmpSemi neg mag mu n d) (semiReal neg mag mu) ((n : ℝ) / d) := by
  have upos : 0 < unitsOne := by decide
  unfold cmpSemi semiReal
  generalize unitsOne = u at upos ⊢
  have he : 12 * u ≠ 0 := by omega
  have he' : ((12 * u : ℕ) : ℝ) ≠ 0 := by exact_mod_cast he
  generalize 12 * u = e at he he' ⊢
  have hc : 0 < d * 1000 * u := by positivity
  have hu' : (0 : ℝ) < u := by exact_mod_cast upos
  have hd' : (0 : ℝ) < d := by exact_mod_cast hd
  have hmu' : (0 : ℝ) < mu := by exact_mod_cast hmu
  have scale : (n : ℝ) / d = ((n * mu : ℕ) : ℝ) / ((d * 1000 * u : ℕ) : ℝ) * 1000 / (mu / u) := by
    push_cast; field_simp
  have mono : StrictMono fun z : ℝ => z * 1000 / (mu / u) := by
    intro a b h
    have : 0 < (mu : ℝ) / u := by positivity
    dsimp only; gcongr
  have powEq : ((2 : ℝ) ^ ((mag : ℝ) / e)) ^ e = 2 ^ mag := by
    rw [← Real.rpow_mul_natCast (by norm_num), div_mul_cancel₀ _ he', Real.rpow_natCast]
  have p0 : (0 : ℝ) < (2 : ℝ) ^ ((mag : ℝ) / e) := by positivity
  have powMono : StrictMonoOn (fun z : ℝ => z ^ e) (Set.Ici 0) := fun a ha b _ h => pow_lt_pow_left₀ h ha he
  rw [scale]
  generalize d * 1000 * u = c at hc ⊢
  generalize n * mu = q
  have hc' : (0 : ℝ) < c := by exact_mod_cast hc
  have hce : (0 : ℝ) < (c : ℝ) ^ e := by positivity
  cases neg with
  | false =>
    simp only [Bool.false_eq_true, if_false]
    refine Compared.image mono ?_
    have key : Compared (compare (2 ^ mag * c ^ e) ((c + q) ^ e)) ((2 : ℝ) ^ ((mag : ℝ) / e)) ((c + q : ℝ) / c) := by
      refine Compared.of_image powMono p0.le (show (0 : ℝ) ≤ _ by positivity) ?_
      have := compared_compare (fun z : ℕ => (z : ℝ) / (c : ℝ) ^ e)
        (fun a b h => div_lt_div_of_pos_right (Nat.cast_lt.2 h) hce) (2 ^ mag * c ^ e) ((c + q) ^ e)
      beta_reduce at this ⊢
      rw [powEq, div_pow]
      push_cast at this
      rwa [mul_div_assoc, div_self hce.ne', mul_one] at this
    have e2 : (c + q : ℝ) / c - 1 = q / c := by field_simp; ring
    rw [← e2]
    exact Compared.image (f := fun z => z - 1) (fun a b h => sub_lt_sub_right h 1) key
  | true =>
    simp only [if_true]
    have inv : (2 : ℝ) ^ (-((mag : ℝ) / e)) = ((2 : ℝ) ^ ((mag : ℝ) / e))⁻¹ := Real.rpow_neg (by norm_num) _
    split
    · rename_i h
      refine mono ?_
      have : (c : ℝ) ≤ q := by exact_mod_cast h
      have h1 : (1 : ℝ) ≤ q / c := by rwa [le_div_iff₀ hc', one_mul]
      rw [inv]
      have : 0 < ((2 : ℝ) ^ ((mag : ℝ) / e))⁻¹ := by positivity
      linarith
    · rename_i h
      refine Compared.image mono ?_
      have hq : (q : ℝ) < c := by exact_mod_cast not_le.1 h
      have key : Compared (compare ((c - q) ^ e * 2 ^ mag) (c ^ e)) ((c - q : ℝ) / c) (((2 : ℝ) ^ ((mag : ℝ) / e))⁻¹) := by
        refine Compared.of_image powMono (show (0 : ℝ) ≤ _ from div_nonneg (by linarith) hc'.le)
          (show (0 : ℝ) ≤ _ by positivity) ?_
        have p2 : (0 : ℝ) < 2 ^ mag := by positivity
        have := compared_compare (fun z : ℕ => (z : ℝ) / ((c : ℝ) ^ e * 2 ^ mag))
          (fun a b h => div_lt_div_of_pos_right (Nat.cast_lt.2 h) (by positivity)) ((c - q) ^ e * 2 ^ mag) (c ^ e)
        beta_reduce at this ⊢
        rw [inv_pow, powEq, div_pow]
        push_cast [Nat.cast_sub (not_le.1 h).le] at this
        rwa [mul_div_mul_right _ _ p2.ne', div_mul_eq_div_div, div_self hce.ne', one_div] at this
      have e2 : (q : ℝ) / c = 1 - (c - q : ℝ) / c := by field_simp; ring
      rw [inv, e2]
      exact key.one_sub

theorem semiReal_pos (neg : Bool) {mag mu : ℕ} (h : 0 < mag) (hmu : 0 < mu) : 0 < semiReal neg mag mu := by
  have upos : 0 < unitsOne := by decide
  unfold semiReal
  generalize unitsOne = u at upos ⊢
  have hu : (0 : ℝ) < u := by exact_mod_cast upos
  have hm : (0 : ℝ) < mag := by exact_mod_cast h
  have hmu' : (0 : ℝ) < mu := by exact_mod_cast hmu
  have x : (0 : ℝ) < (mag : ℝ) / (12 * u : ℕ) := by push_cast; positivity
  have up := Real.one_lt_rpow (x := 2) (by norm_num) x
  have down := Real.rpow_lt_one_of_one_lt_of_neg (x := 2) (by norm_num) (neg_lt_zero.2 x)
  have f : 0 < (if neg then 1 - (2 : ℝ) ^ (-((mag : ℝ) / (12 * u : ℕ))) else (2 : ℝ) ^ ((mag : ℝ) / (12 * u : ℕ)) - 1) := by
    cases neg
    · simpa using up
    · simpa using down
  positivity

theorem magUnits_pos {w : Word} (h : isZero w = false) : 0 < magUnits w := by
  rw [magUnits_eq]
  refine Nat.pos_of_ne_zero fun e => ?_
  rw [magVal_zero_iff] at e
  have : isZero w = true := by
    simp [isZero, expField, fracField, BitVec.extractLsb'_toNat, Nat.shiftRight_eq_div_pow]; omega
  simp [this] at h

theorem units_of_pos {m : Word} (h : isFinitePos m = true) : units m = magUnits m ∧ 0 < magUnits m := by
  simp only [isFinitePos, Bool.and_eq_true, Bool.not_eq_true'] at h
  exact ⟨by simp [units, h.1.2], magUnits_pos h.2⟩

/-- R25's exact real, by the sign and the size of the transposition. -/
theorem semiReal_eq (s m : Word) (hm : isFinitePos m = true) :
    ((2 : ℝ) ^ ((Machine.val s : ℝ) / 12) - 1) * 1000 / (Machine.val m : ℝ) =
      (if signBit s then -1 else 1) * semiReal (signBit s) (magUnits s) (magUnits m) := by
  have u : (unitsOne : ℝ) = 2 ^ 149 := by norm_num [unitsOne]
  have vm : (Machine.val m : ℝ) = magUnits m / unitsOne := by
    rw [Machine.val, (units_of_pos hm).1, u]; push_cast; rfl
  have x : (magUnits s : ℝ) / (12 * unitsOne : ℕ) = magUnits s / 2 ^ 149 / 12 := by
    push_cast; rw [u]; field_simp
  unfold semiReal
  rw [vm, x, Machine.val, units]
  cases signBit s
  · simp
  · simp only [if_true]
    push_cast
    rw [show -(magUnits s : ℝ) / 2 ^ 149 / 12 = -(magUnits s / 2 ^ 149 / 12) by ring]
    ring

/-- The slow path of the default mapping is R25's real rounded once. -/
theorem mapExact_roundsTo {s m : Word} (hs : isZero s = false) (hm : isFinitePos m = true) :
    RoundsTo (((2 : ℝ) ^ ((Machine.val s : ℝ) / 12) - 1) * 1000 / (Machine.val m : ℝ)) (mapExact s m) := by
  rw [semiReal_eq s m hm]
  have hmu := (units_of_pos hm).2
  exact roundMag_roundsTo (semiReal_pos _ (magUnits_pos hs) hmu) (cmpSemi_spec _ _ _ hmu) _

/-! ### The two paths of a default agree -/

theorem rne_roundsTo (f : Frac) (h : 0 < f.den) : RoundsTo (fracVal f) f.rne := by
  have := rne32_roundsTo (f.num : ℤ) h
  rwa [Int.cast_natCast] at this

/-- The default envelope is the sine rounded once, whichever path computes it. -/
theorem sinDefault_roundsTo (P : ℕ) (h0 : 0 < P) (h1 : P < 2 ^ 31) :
    RoundsTo (Real.sin (Real.pi * P / 2 ^ 32)) (sinDefault P) := by
  cases h : sinRounded P with
  | none => rw [sinDefault, h, Option.getD_none]; exact sinExact_roundsTo P h0 h1
  | some w =>
    rw [sinDefault, h, Option.getD_some]
    obtain ⟨l, u⟩ := sin_enclosed _ h1
    have m := agreed_some h
    have r₁ := rne_roundsTo _ (sinBound_den_pos piFloor 0 P (Nat.le_succ _) h1 (Nat.zero_le _))
    have r₂ := rne_roundsTo _ (sinBound_den_pos (piFloor + 1) 1 P (Nat.le_refl _) h1 (Nat.le_refl _))
    rw [m (sinBound piFloor 0 P).rne (by simp)] at r₁
    rw [m (sinBound (piFloor + 1) 1 P).rne (by simp)] at r₂
    exact roundsTo_between r₁ r₂ l u

theorem freqOf_roundsTo (neg : Bool) (f : Frac) (m : Word) (hf : 0 < f.den) (hm : isFinitePos m = true) :
    RoundsTo ((if neg then -1 else 1) * fracVal f * 1000 / (Machine.val m : ℝ)) (freqOf neg f m) := by
  obtain ⟨hu, hmu⟩ := units_of_pos hm
  have r := rne32_roundsTo (if neg then -((f.num * 1000 * unitsOne : ℕ) : ℤ) else (f.num * 1000 * unitsOne : ℕ))
    (Nat.mul_pos hf (show 0 < (units m).natAbs by rw [hu]; simpa using hmu))
  have e : (if neg then -1 else 1) * fracVal f * 1000 / (Machine.val m : ℝ) =
      (((if neg then -((f.num * 1000 * unitsOne : ℕ) : ℤ) else (f.num * 1000 * unitsOne : ℕ)) : ℤ) : ℝ) /
        ((f.den * (units m).natAbs : ℕ) : ℝ) := by
    have v : (Machine.val m : ℝ) = magUnits m / 2 ^ 149 := by rw [Machine.val, hu]; push_cast; rfl
    have h1 : (0 : ℝ) < magUnits m := by exact_mod_cast hmu
    have h2 : (0 : ℝ) < f.den := by exact_mod_cast hf
    have hone : (unitsOne : ℝ) = 2 ^ 149 := by norm_num [unitsOne]
    rw [hu, v, fracVal]
    cases neg <;> simp [hone] <;> field_simp
  rw [e]; exact r

/-- The default mapping is R25's real rounded once, whichever path computes it. -/
theorem mapDefault_roundsTo {s m : Word} (hs : isZero s = false) (range : |Machine.val s| ≤ 12)
    (hm : isFinitePos m = true) :
    RoundsTo (((2 : ℝ) ^ ((Machine.val s : ℝ) / 12) - 1) * 1000 / (Machine.val m : ℝ)) (mapDefault s m) := by
  cases hw : mapRounded s m with
  | none => rw [mapDefault, hw, Option.getD_none]; exact mapExact_roundsTo hs hm
  | some w =>
  rw [mapDefault, hw, Option.getD_some]
  have vs : (Machine.val s : ℝ) = (if signBit s then -1 else 1) * ((magUnits s : ℝ) / 2 ^ 149) := by
    rw [Machine.val, units]; split <;> push_cast <;> ring
  have hmag : magUnits s ≤ 12 * unitsOne := by
    have : |Machine.val s| = (magUnits s : ℚ) / 2 ^ 149 := by
      rw [Machine.val, units]; split
      · push_cast; rw [neg_div, abs_neg, abs_of_nonneg (by positivity)]
      · push_cast; rw [abs_of_nonneg (by positivity)]
    rw [this, div_le_iff₀ (by positivity)] at range
    have : ((magUnits s : ℕ) : ℚ) ≤ ((12 * unitsOne : ℕ) : ℚ) := by simp only [unitsOne]; push_cast; linarith
    exact_mod_cast this
  have vm : (0 : ℝ) < Machine.val m := by
    obtain ⟨hu, hmu⟩ := units_of_pos hm
    rw [Machine.val, hu]; push_cast; positivity
  rw [vs]
  unfold mapRounded at hw
  simp only at hw
  split at hw
  · rename_i h
    have hq : (magUnits s : ℝ) / 2 ^ 149 = 12 := by rw [h]; norm_num [unitsOne]
    rw [hq]
    cases sg : signBit s <;> simp only [sg, Option.some.injEq, Bool.false_eq_true, if_false, if_true] at hw ⊢ <;> subst hw
    · convert freqOf_roundsTo false ⟨1, 1⟩ m (by decide) hm using 2; norm_num [fracVal]
    · convert freqOf_roundsTo true ⟨1, 2⟩ m (by decide) hm using 2; norm_num [fracVal, Real.rpow_neg_one]
  · have ag := agreed_some hw
    cases sg : signBit s <;> simp only [sg, Bool.false_eq_true, if_false, if_true, one_mul, neg_one_mul, neg_div] at ag ⊢
    · obtain ⟨l, u⟩ := semi_up_enclosed _ hmag
      have a₁ := freqOf_roundsTo false _ m (semiBound_den_pos false ln2Floor 1 (magUnits s) (by simp)) hm
      have a₂ := freqOf_roundsTo false _ m (semiBound_den_pos false (ln2Floor + 1) 2 (magUnits s) (by simp)) hm
      rw [ag (freqOf false (semiBound false ln2Floor 1 (magUnits s)) m) (by simp)] at a₁
      rw [ag (freqOf false (semiBound false (ln2Floor + 1) 2 (magUnits s)) m) (by simp)] at a₂
      simp only [Bool.false_eq_true, if_false, one_mul] at a₁ a₂
      exact roundsTo_between a₁ a₂ (by gcongr) (by gcongr)
    · obtain ⟨l, u⟩ := semi_down_enclosed _ hmag
      have a₁ := freqOf_roundsTo true _ m (semiBound_den_pos true ln2Floor 0 (magUnits s) (by simp)) hm
      have a₂ := freqOf_roundsTo true _ m (semiBound_den_pos true (ln2Floor + 1) 1 (magUnits s) (by simp)) hm
      rw [ag (freqOf true (semiBound true ln2Floor 0 (magUnits s)) m) (by simp)] at a₁
      rw [ag (freqOf true (semiBound true (ln2Floor + 1) 1 (magUnits s)) m) (by simp)] at a₂
      simp only [if_true] at a₁ a₂
      exact roundsTo_between a₂ a₁ (by gcongr ?_ * 1000 / _; linarith) (by gcongr ?_ * 1000 / _; linarith)

/-! ### An implementation's own functions -/

/-- The value of an own envelope is its bounded magnitude. -/
theorem val_envOwn (k : ℕ) (P : Word) :
    (Machine.val (envOwn k P) : ℝ) = magReal (min (Config.envCustom k P.toNat) 0x3F800000) := by
  unfold envOwn
  rw [val_withSign _ (by omega)]
  by_cases h : min (Config.envCustom k P.toNat) 0x3F800000 = 0
  · rw [h, magReal_zero, mul_zero]
  · have : ((min (Config.envCustom k P.toNat) 0x3F800000 == 0) && Config.envZeroSign k P) = false := by simp [h]
    rw [this]; simp

/-- The value of an own mapping is its bounded magnitude on the side of the transposition. -/
theorem val_mapOwn (k : ℕ) (s m : Word) :
    isFinite (mapOwn k s m) = true ∧ (Machine.val (mapOwn k s m) : ℝ) = (if signBit s then -1 else 1) *
      magReal (min (Config.mapCustom k (signBit s) m (magUnits s)) 0x7F7FFFFF) := by
  unfold mapOwn
  dsimp only
  have hk : min (Config.mapCustom k (signBit s) m (magUnits s)) 0x7F7FFFFF ≤ 0x7F7FFFFF := min_le_right _ _
  generalize min (Config.mapCustom k (signBit s) m (magUnits s)) 0x7F7FFFFF = mag at hk ⊢
  refine ⟨?_, ?_⟩
  · rw [isFinite_iff, (withSign_fields _ (by omega)).1]; simp; omega
  · rw [val_withSign _ (by omega)]
    by_cases h : mag = 0
    · rw [h, magReal_zero, mul_zero, mul_zero]
    · rw [if_neg h]

end Sys2Proof.Laws
end

