-- ==== Sys2Proof/Laws/Memory.lean ====
section
/-! SUPPORT. Laws of the byte memories: read after write, the canonical form is kept, equal reads make equal
memories, and the same for words. -/

namespace Sys2Proof.Machine

namespace Memory

/-- Every listed address satisfies `P`. -/
abbrev KeysIn (P : Nat → Prop) (m : Memory) : Prop := ∀ x ∈ m, P x.1

@[simp] theorem readByte_nil (a : Nat) : readByte [] a = unlistedByte := rfl

theorem readByte_cons (k a : Nat) (b : Byte) (m : Memory) :
    readByte ((k, b) :: m) a = if k = a then b else readByte m a := rfl

theorem wf_nil : wf ([] : Memory) := ⟨List.Pairwise.nil, by simp⟩

theorem wf_cons {x : Host.Cell} {m : Memory} :
    wf (x :: m) ↔ (∀ y ∈ m, x.1 < y.1) ∧ x.2 ≠ unlistedByte ∧ wf m := by
  simp only [wf, List.pairwise_cons, List.forall_mem_cons]
  tauto

/-- An address below or between the listed ones reads as unlisted. -/
theorem readByte_unlisted {m : Memory} {a : Nat} (h : ∀ x ∈ m, x.1 ≠ a) : readByte m a = unlistedByte := by
  induction m with
  | nil => rfl
  | cons x m ih =>
    obtain ⟨k, b⟩ := x
    rw [readByte_cons, if_neg (h (k, b) List.mem_cons_self), ih fun y hy => h y (List.mem_cons_of_mem _ hy)]

theorem readByte_consByte_self {m : Memory} {a : Nat} {b : Byte} (h : ∀ x ∈ m, x.1 ≠ a) :
    readByte (consByte a b m) a = b := by
  unfold consByte
  split
  · rw [readByte_unlisted h, ‹b = _›]
  · simp [readByte_cons]

theorem readByte_consByte_ne {m : Memory} {a c : Nat} {b : Byte} (h : a ≠ c) :
    readByte (consByte a b m) c = readByte m c := by
  unfold consByte
  split
  · rfl
  · simp [readByte_cons, h]

/-- Every other address reads as before a write. -/
theorem readByte_writeByte_ne (m : Memory) {a c : Nat} (b : Byte) (h : a ≠ c) :
    readByte (writeByte m a b) c = readByte m c := by
  induction m with
  | nil => exact readByte_consByte_ne h
  | cons x m ih =>
    obtain ⟨k, y⟩ := x
    unfold writeByte
    split
    · exact readByte_consByte_ne h
    · split
      · subst a; rw [readByte_consByte_ne h, readByte_cons, if_neg h]
      · rw [readByte_cons, readByte_cons, ih]

/-- The written address reads the byte written. -/
theorem readByte_writeByte_self {m : Memory} (hm : wf m) (a : Nat) (b : Byte) :
    readByte (writeByte m a b) a = b := by
  induction m with
  | nil => exact readByte_consByte_self (by simp)
  | cons x m ih =>
    obtain ⟨k, y⟩ := x
    obtain ⟨hlt, -, hm⟩ := wf_cons.1 hm
    unfold writeByte
    split
    · refine readByte_consByte_self fun z hz => ?_
      rcases List.mem_cons.1 hz with rfl | hz
      · simp; omega
      · have := hlt z hz; simp at this; omega
    · split
      · subst a; exact readByte_consByte_self fun z hz => by have := hlt z hz; simp at this; omega
      · rw [readByte_cons, if_neg (by omega), ih hm]

theorem keysIn_consByte {P : Nat → Prop} {m : Memory} {a : Nat} {b : Byte} (ha : P a) (h : KeysIn P m) :
    KeysIn P (consByte a b m) := by
  unfold consByte
  split
  · exact h
  · simpa [KeysIn, ha] using h

/-- A write lists no address but its own beside those listed before. -/
theorem keysIn_writeByte {P : Nat → Prop} {m : Memory} {a : Nat} {b : Byte} (ha : P a) (h : KeysIn P m) :
    KeysIn P (writeByte m a b) := by
  induction m with
  | nil => exact keysIn_consByte ha h
  | cons x m ih =>
    obtain ⟨hx, h'⟩ := List.forall_mem_cons.1 h
    unfold writeByte
    split
    · exact keysIn_consByte ha h
    · split
      · exact keysIn_consByte ha h'
      · exact List.forall_mem_cons.2 ⟨hx, ih h'⟩

theorem wf_consByte {m : Memory} {a : Nat} {b : Byte} (hm : wf m) (h : ∀ x ∈ m, a < x.1) : wf (consByte a b m) := by
  unfold consByte
  split
  · exact hm
  · exact wf_cons.2 ⟨h, ‹_›, hm⟩

/-- A write keeps the canonical form. -/
theorem wf_writeByte {m : Memory} (hm : wf m) (a : Nat) (b : Byte) : wf (writeByte m a b) := by
  induction m with
  | nil => exact wf_consByte hm (by simp)
  | cons x m ih =>
    obtain ⟨k, y⟩ := x
    obtain ⟨hlt, hy, hm'⟩ := wf_cons.1 hm
    unfold writeByte
    split
    · refine wf_consByte hm fun z hz => ?_
      rcases List.mem_cons.1 hz with rfl | hz
      · assumption
      · exact lt_trans ‹a < k› (hlt z hz)
    · split
      · subst a; exact wf_consByte hm' hlt
      · refine wf_cons.2 ⟨?_, hy, ih hm'⟩
        exact keysIn_writeByte (P := fun z => k < z) (show k < a by omega) hlt

/-- Canonical memories that read alike everywhere are the same list. -/
theorem ext_of_readByte {m n : Memory} (hm : wf m) (hn : wf n) (h : ∀ a, readByte m a = readByte n a) : m = n := by
  induction m generalizing n with
  | nil =>
    cases n with
    | nil => rfl
    | cons y n =>
      have := h y.1
      rw [readByte_nil, readByte_cons, if_pos rfl] at this
      exact absurd this.symm (wf_cons.1 hn).2.1
  | cons x m ih =>
    obtain ⟨hx, hxb, hm'⟩ := wf_cons.1 hm
    cases n with
    | nil =>
      have := h x.1
      rw [readByte_nil, readByte_cons, if_pos rfl] at this
      exact absurd this hxb
    | cons y n =>
      obtain ⟨hy, hyb, hn'⟩ := wf_cons.1 hn
      obtain ⟨k, b⟩ := x
      obtain ⟨l, c⟩ := y
      have hk : k = l := by
        rcases lt_trichotomy k l with hlt | heq | hgt
        · have := h k
          rw [readByte_cons, if_pos rfl, readByte_cons, if_neg (by omega),
            readByte_unlisted fun z hz => by have := hy z hz; simp at this; omega] at this
          exact absurd this hxb
        · exact heq
        · have := h l
          rw [readByte_cons, if_neg (by omega), readByte_cons, if_pos rfl,
            readByte_unlisted fun z hz => by have := hx z hz; simp at this; omega] at this
          exact absurd this.symm hyb
      subst hk
      have hb : b = c := by simpa [readByte_cons] using h k
      subst hb
      congr 1
      refine ih hm' hn' fun a => ?_
      by_cases hak : k = a
      · subst hak
        rw [readByte_unlisted fun z hz => by have := hx z hz; simp at this; omega,
          readByte_unlisted fun z hz => by have := hy z hz; simp at this; omega]
      · simpa [readByte_cons, hak] using h a

/-! ### Words -/

/-- The four lanes of a word put together are the word (R72). -/
theorem lanes_append (w : Word) : laneOf w 3 ++ laneOf w 2 ++ laneOf w 1 ++ laneOf w 0 = w := by
  apply BitVec.eq_of_getLsbD_eq
  intro i hi
  simp only [laneOf, BitVec.getLsbD_append, BitVec.getLsbD_extractLsb']
  interval_cases i <;> simp

theorem wf_writeWord {m : Memory} (hm : wf m) (a : Nat) (w : Word) : wf (m.writeWord a w) :=
  wf_writeByte (wf_writeByte (wf_writeByte (wf_writeByte hm _ _) _ _) _ _) _ _

theorem keysIn_writeWord {P : Nat → Prop} {m : Memory} {a : Nat} {w : Word} (ha : ∀ j < 4, P (a + j))
    (h : KeysIn P m) : KeysIn P (m.writeWord a w) :=
  keysIn_writeByte (ha 3 (by decide)) (keysIn_writeByte (ha 2 (by decide))
    (keysIn_writeByte (ha 1 (by decide)) (keysIn_writeByte (ha 0 (by decide)) h)))

/-- A byte outside the four written reads as before. -/
theorem readByte_writeWord_ne (m : Memory) {a c : Nat} (w : Word) (h : c < a ∨ a + 4 ≤ c) :
    readByte (m.writeWord a w) c = readByte m c := by
  simp only [writeWord]
  rw [readByte_writeByte_ne _ _ (by omega), readByte_writeByte_ne _ _ (by omega),
    readByte_writeByte_ne _ _ (by omega), readByte_writeByte_ne _ _ (by omega)]

/-- A word that shares no byte with the one written reads as before. -/
theorem readWord_writeWord_ne (m : Memory) {a c : Nat} (w : Word) (h : c + 4 ≤ a ∨ a + 4 ≤ c) :
    readWord (m.writeWord a w) c = readWord m c := by
  simp only [readWord]
  rw [readByte_writeWord_ne m w (by omega), readByte_writeWord_ne m w (by omega),
    readByte_writeWord_ne m w (by omega), readByte_writeWord_ne m w (by omega)]

/-- The word written reads back. -/
theorem readWord_writeWord_self {m : Memory} (hm : wf m) (a : Nat) (w : Word) :
    readWord (m.writeWord a w) a = w := by
  have h0 := wf_writeByte hm a (laneOf w 0)
  have h1 := wf_writeByte h0 (a + 1) (laneOf w 1)
  have h2 := wf_writeByte h1 (a + 2) (laneOf w 2)
  simp only [readWord, writeWord]
  rw [readByte_writeByte_self h2,
    readByte_writeByte_ne _ _ (show a + 3 ≠ a + 2 by omega), readByte_writeByte_self h1,
    readByte_writeByte_ne _ _ (show a + 3 ≠ a + 1 by omega), readByte_writeByte_ne _ _ (show a + 2 ≠ a + 1 by omega),
    readByte_writeByte_self h0,
    readByte_writeByte_ne _ _ (show a + 3 ≠ a by omega), readByte_writeByte_ne _ _ (show a + 2 ≠ a by omega),
    readByte_writeByte_ne _ _ (show a + 1 ≠ a by omega), readByte_writeByte_self hm]
  exact lanes_append w

@[simp] theorem readWord_nil (a : Nat) : readWord [] a = 0#32 := by
  show (0#8 ++ 0#8 ++ 0#8 ++ 0#8 : BitVec 32) = 0#32
  decide

end Memory

end Sys2Proof.Machine
end

