-- ==== Sys2Proof/Laws/State.lean ====
section
/-! SUPPORT. What each named update of the state leaves alone: one lemma per field per update, so that no
later proof unfolds a record update; and what it writes, where a caller needs it. -/

namespace Sys2Proof.Machine

/-- A fold of updates that each keep a view of the state keeps it. -/
theorem foldl_keeps {β γ : Type} {g : State → γ} {f : State → β → State} (h : ∀ s b, g (f s b) = g s) (l : List β)
    (s : State) : g (l.foldl f s) = g s := by
  induction l generalizing s with
  | nil => rfl
  | cons b l ih => rw [List.foldl_cons, ih, h]

/-! ### putIobuf -/

@[simp] theorem State.putIobuf_hw (s : State) (c i : Nat) (w : Word) : (s.putIobuf c i w).hw = s.hw := rfl
@[simp] theorem State.putIobuf_status (s : State) (c i : Nat) (w : Word) : (s.putIobuf c i w).status = s.status := rfl
@[simp] theorem State.putIobuf_irqEn (s : State) (c i : Nat) (w : Word) : (s.putIobuf c i w).irqEn = s.irqEn := rfl
@[simp] theorem State.putIobuf_blkcnt (s : State) (c i : Nat) (w : Word) : (s.putIobuf c i w).blkcnt = s.blkcnt := rfl
@[simp] theorem State.putIobuf_args (s : State) (c i : Nat) (w : Word) : (s.putIobuf c i w).args = s.args := rfl
@[simp] theorem State.putIobuf_res0 (s : State) (c i : Nat) (w : Word) : (s.putIobuf c i w).res0 = s.res0 := rfl
@[simp] theorem State.putIobuf_res1 (s : State) (c i : Nat) (w : Word) : (s.putIobuf c i w).res1 = s.res1 := rfl
@[simp] theorem State.putIobuf_res2 (s : State) (c i : Nat) (w : Word) : (s.putIobuf c i w).res2 = s.res2 := rfl
@[simp] theorem State.putIobuf_sr (s : State) (c i : Nat) (w : Word) : (s.putIobuf c i w).sr = s.sr := rfl
@[simp] theorem State.putIobuf_blockSize (s : State) (c i : Nat) (w : Word) : (s.putIobuf c i w).blockSize = s.blockSize := rfl
@[simp] theorem State.putIobuf_cap (s : State) (c i : Nat) (w : Word) : (s.putIobuf c i w).cap = s.cap := rfl
@[simp] theorem State.putIobuf_widx (s : State) (c i : Nat) (w : Word) : (s.putIobuf c i w).widx = s.widx := rfl
@[simp] theorem State.putIobuf_lastlen (s : State) (c i : Nat) (w : Word) : (s.putIobuf c i w).lastlen = s.lastlen := rfl
@[simp] theorem State.putIobuf_winSamples (s : State) (c i : Nat) (w : Word) : (s.putIobuf c i w).winSamples = s.winSamples := rfl
@[simp] theorem State.putIobuf_windowMs (s : State) (c i : Nat) (w : Word) : (s.putIobuf c i w).windowMs = s.windowMs := rfl
@[simp] theorem State.putIobuf_semi1 (s : State) (c i : Nat) (w : Word) : (s.putIobuf c i w).semi1 = s.semi1 := rfl
@[simp] theorem State.putIobuf_semi2 (s : State) (c i : Nat) (w : Word) : (s.putIobuf c i w).semi2 = s.semi2 := rfl
@[simp] theorem State.putIobuf_freq1 (s : State) (c i : Nat) (w : Word) : (s.putIobuf c i w).freq1 = s.freq1 := rfl
@[simp] theorem State.putIobuf_freq2 (s : State) (c i : Nat) (w : Word) : (s.putIobuf c i w).freq2 = s.freq2 := rfl
@[simp] theorem State.putIobuf_msEff (s : State) (c i : Nat) (w : Word) : (s.putIobuf c i w).msEff = s.msEff := rfl
@[simp] theorem State.putIobuf_semi1Eff (s : State) (c i : Nat) (w : Word) : (s.putIobuf c i w).semi1Eff = s.semi1Eff := rfl
@[simp] theorem State.putIobuf_semi2Eff (s : State) (c i : Nat) (w : Word) : (s.putIobuf c i w).semi2Eff = s.semi2Eff := rfl
@[simp] theorem State.putIobuf_phasors1 (s : State) (c i : Nat) (w : Word) : (s.putIobuf c i w).phasors1 = s.phasors1 := rfl
@[simp] theorem State.putIobuf_phasors2 (s : State) (c i : Nat) (w : Word) : (s.putIobuf c i w).phasors2 = s.phasors2 := rfl
@[simp] theorem State.putIobuf_dl (s : State) (c i : Nat) (w : Word) : (s.putIobuf c i w).dl = s.dl := rfl
@[simp] theorem State.putIobuf_pending (s : State) (c i : Nat) (w : Word) : (s.putIobuf c i w).pending = s.pending := rfl
@[simp] theorem State.putIobuf_events (s : State) (c i : Nat) (w : Word) : (s.putIobuf c i w).events = s.events := rfl
@[simp] theorem State.putIobuf_response (s : State) (c i : Nat) (w : Word) : (s.putIobuf c i w).response = s.response := rfl

@[simp] theorem State.putIobuf_iobuf (s : State) (c i : Nat) (w : Word) :
    (s.putIobuf c i w).iobuf = s.iobuf.writeWord (iobufAddr s.hw c i) w := rfl

/-! ### The phasor file -/

@[simp] theorem State.setPhasors_hw (s : State) (v : Voice) (l : List Phasor) : (s.setPhasors v l).hw = s.hw := by cases v <;> rfl
@[simp] theorem State.setPhasors_status (s : State) (v : Voice) (l : List Phasor) : (s.setPhasors v l).status = s.status := by cases v <;> rfl
@[simp] theorem State.setPhasors_irqEn (s : State) (v : Voice) (l : List Phasor) : (s.setPhasors v l).irqEn = s.irqEn := by cases v <;> rfl
@[simp] theorem State.setPhasors_blkcnt (s : State) (v : Voice) (l : List Phasor) : (s.setPhasors v l).blkcnt = s.blkcnt := by cases v <;> rfl
@[simp] theorem State.setPhasors_args (s : State) (v : Voice) (l : List Phasor) : (s.setPhasors v l).args = s.args := by cases v <;> rfl
@[simp] theorem State.setPhasors_res0 (s : State) (v : Voice) (l : List Phasor) : (s.setPhasors v l).res0 = s.res0 := by cases v <;> rfl
@[simp] theorem State.setPhasors_res1 (s : State) (v : Voice) (l : List Phasor) : (s.setPhasors v l).res1 = s.res1 := by cases v <;> rfl
@[simp] theorem State.setPhasors_res2 (s : State) (v : Voice) (l : List Phasor) : (s.setPhasors v l).res2 = s.res2 := by cases v <;> rfl
@[simp] theorem State.setPhasors_sr (s : State) (v : Voice) (l : List Phasor) : (s.setPhasors v l).sr = s.sr := by cases v <;> rfl
@[simp] theorem State.setPhasors_blockSize (s : State) (v : Voice) (l : List Phasor) : (s.setPhasors v l).blockSize = s.blockSize := by cases v <;> rfl
@[simp] theorem State.setPhasors_cap (s : State) (v : Voice) (l : List Phasor) : (s.setPhasors v l).cap = s.cap := by cases v <;> rfl
@[simp] theorem State.setPhasors_widx (s : State) (v : Voice) (l : List Phasor) : (s.setPhasors v l).widx = s.widx := by cases v <;> rfl
@[simp] theorem State.setPhasors_lastlen (s : State) (v : Voice) (l : List Phasor) : (s.setPhasors v l).lastlen = s.lastlen := by cases v <;> rfl
@[simp] theorem State.setPhasors_winSamples (s : State) (v : Voice) (l : List Phasor) : (s.setPhasors v l).winSamples = s.winSamples := by cases v <;> rfl
@[simp] theorem State.setPhasors_windowMs (s : State) (v : Voice) (l : List Phasor) : (s.setPhasors v l).windowMs = s.windowMs := by cases v <;> rfl
@[simp] theorem State.setPhasors_semi1 (s : State) (v : Voice) (l : List Phasor) : (s.setPhasors v l).semi1 = s.semi1 := by cases v <;> rfl
@[simp] theorem State.setPhasors_semi2 (s : State) (v : Voice) (l : List Phasor) : (s.setPhasors v l).semi2 = s.semi2 := by cases v <;> rfl
@[simp] theorem State.setPhasors_freq1 (s : State) (v : Voice) (l : List Phasor) : (s.setPhasors v l).freq1 = s.freq1 := by cases v <;> rfl
@[simp] theorem State.setPhasors_freq2 (s : State) (v : Voice) (l : List Phasor) : (s.setPhasors v l).freq2 = s.freq2 := by cases v <;> rfl
@[simp] theorem State.setPhasors_msEff (s : State) (v : Voice) (l : List Phasor) : (s.setPhasors v l).msEff = s.msEff := by cases v <;> rfl
@[simp] theorem State.setPhasors_semi1Eff (s : State) (v : Voice) (l : List Phasor) : (s.setPhasors v l).semi1Eff = s.semi1Eff := by cases v <;> rfl
@[simp] theorem State.setPhasors_semi2Eff (s : State) (v : Voice) (l : List Phasor) : (s.setPhasors v l).semi2Eff = s.semi2Eff := by cases v <;> rfl
@[simp] theorem State.setPhasors_iobuf (s : State) (v : Voice) (l : List Phasor) : (s.setPhasors v l).iobuf = s.iobuf := by cases v <;> rfl
@[simp] theorem State.setPhasors_dl (s : State) (v : Voice) (l : List Phasor) : (s.setPhasors v l).dl = s.dl := by cases v <;> rfl
@[simp] theorem State.setPhasors_pending (s : State) (v : Voice) (l : List Phasor) : (s.setPhasors v l).pending = s.pending := by cases v <;> rfl
@[simp] theorem State.setPhasors_events (s : State) (v : Voice) (l : List Phasor) : (s.setPhasors v l).events = s.events := by cases v <;> rfl
@[simp] theorem State.setPhasors_response (s : State) (v : Voice) (l : List Phasor) : (s.setPhasors v l).response = s.response := by cases v <;> rfl

@[simp] theorem State.setPh_hw (s : State) (v : Voice) (c : Nat) (w : Word) : (s.setPh v c w).hw = s.hw := by simp [State.setPh]
@[simp] theorem State.setPh_status (s : State) (v : Voice) (c : Nat) (w : Word) : (s.setPh v c w).status = s.status := by simp [State.setPh]
@[simp] theorem State.setPh_irqEn (s : State) (v : Voice) (c : Nat) (w : Word) : (s.setPh v c w).irqEn = s.irqEn := by simp [State.setPh]
@[simp] theorem State.setPh_blkcnt (s : State) (v : Voice) (c : Nat) (w : Word) : (s.setPh v c w).blkcnt = s.blkcnt := by simp [State.setPh]
@[simp] theorem State.setPh_args (s : State) (v : Voice) (c : Nat) (w : Word) : (s.setPh v c w).args = s.args := by simp [State.setPh]
@[simp] theorem State.setPh_res0 (s : State) (v : Voice) (c : Nat) (w : Word) : (s.setPh v c w).res0 = s.res0 := by simp [State.setPh]
@[simp] theorem State.setPh_res1 (s : State) (v : Voice) (c : Nat) (w : Word) : (s.setPh v c w).res1 = s.res1 := by simp [State.setPh]
@[simp] theorem State.setPh_res2 (s : State) (v : Voice) (c : Nat) (w : Word) : (s.setPh v c w).res2 = s.res2 := by simp [State.setPh]
@[simp] theorem State.setPh_sr (s : State) (v : Voice) (c : Nat) (w : Word) : (s.setPh v c w).sr = s.sr := by simp [State.setPh]
@[simp] theorem State.setPh_blockSize (s : State) (v : Voice) (c : Nat) (w : Word) : (s.setPh v c w).blockSize = s.blockSize := by simp [State.setPh]
@[simp] theorem State.setPh_cap (s : State) (v : Voice) (c : Nat) (w : Word) : (s.setPh v c w).cap = s.cap := by simp [State.setPh]
@[simp] theorem State.setPh_widx (s : State) (v : Voice) (c : Nat) (w : Word) : (s.setPh v c w).widx = s.widx := by simp [State.setPh]
@[simp] theorem State.setPh_lastlen (s : State) (v : Voice) (c : Nat) (w : Word) : (s.setPh v c w).lastlen = s.lastlen := by simp [State.setPh]
@[simp] theorem State.setPh_winSamples (s : State) (v : Voice) (c : Nat) (w : Word) : (s.setPh v c w).winSamples = s.winSamples := by simp [State.setPh]
@[simp] theorem State.setPh_windowMs (s : State) (v : Voice) (c : Nat) (w : Word) : (s.setPh v c w).windowMs = s.windowMs := by simp [State.setPh]
@[simp] theorem State.setPh_semi1 (s : State) (v : Voice) (c : Nat) (w : Word) : (s.setPh v c w).semi1 = s.semi1 := by simp [State.setPh]
@[simp] theorem State.setPh_semi2 (s : State) (v : Voice) (c : Nat) (w : Word) : (s.setPh v c w).semi2 = s.semi2 := by simp [State.setPh]
@[simp] theorem State.setPh_freq1 (s : State) (v : Voice) (c : Nat) (w : Word) : (s.setPh v c w).freq1 = s.freq1 := by simp [State.setPh]
@[simp] theorem State.setPh_freq2 (s : State) (v : Voice) (c : Nat) (w : Word) : (s.setPh v c w).freq2 = s.freq2 := by simp [State.setPh]
@[simp] theorem State.setPh_msEff (s : State) (v : Voice) (c : Nat) (w : Word) : (s.setPh v c w).msEff = s.msEff := by simp [State.setPh]
@[simp] theorem State.setPh_semi1Eff (s : State) (v : Voice) (c : Nat) (w : Word) : (s.setPh v c w).semi1Eff = s.semi1Eff := by simp [State.setPh]
@[simp] theorem State.setPh_semi2Eff (s : State) (v : Voice) (c : Nat) (w : Word) : (s.setPh v c w).semi2Eff = s.semi2Eff := by simp [State.setPh]
@[simp] theorem State.setPh_iobuf (s : State) (v : Voice) (c : Nat) (w : Word) : (s.setPh v c w).iobuf = s.iobuf := by simp [State.setPh]
@[simp] theorem State.setPh_dl (s : State) (v : Voice) (c : Nat) (w : Word) : (s.setPh v c w).dl = s.dl := by simp [State.setPh]
@[simp] theorem State.setPh_pending (s : State) (v : Voice) (c : Nat) (w : Word) : (s.setPh v c w).pending = s.pending := by simp [State.setPh]
@[simp] theorem State.setPh_events (s : State) (v : Voice) (c : Nat) (w : Word) : (s.setPh v c w).events = s.events := by simp [State.setPh]
@[simp] theorem State.setPh_response (s : State) (v : Voice) (c : Nat) (w : Word) : (s.setPh v c w).response = s.response := by simp [State.setPh]

@[simp] theorem State.setInc_hw (s : State) (v : Voice) (c : Nat) (w : Word) : (s.setInc v c w).hw = s.hw := by simp [State.setInc]
@[simp] theorem State.setInc_status (s : State) (v : Voice) (c : Nat) (w : Word) : (s.setInc v c w).status = s.status := by simp [State.setInc]
@[simp] theorem State.setInc_irqEn (s : State) (v : Voice) (c : Nat) (w : Word) : (s.setInc v c w).irqEn = s.irqEn := by simp [State.setInc]
@[simp] theorem State.setInc_blkcnt (s : State) (v : Voice) (c : Nat) (w : Word) : (s.setInc v c w).blkcnt = s.blkcnt := by simp [State.setInc]
@[simp] theorem State.setInc_args (s : State) (v : Voice) (c : Nat) (w : Word) : (s.setInc v c w).args = s.args := by simp [State.setInc]
@[simp] theorem State.setInc_res0 (s : State) (v : Voice) (c : Nat) (w : Word) : (s.setInc v c w).res0 = s.res0 := by simp [State.setInc]
@[simp] theorem State.setInc_res1 (s : State) (v : Voice) (c : Nat) (w : Word) : (s.setInc v c w).res1 = s.res1 := by simp [State.setInc]
@[simp] theorem State.setInc_res2 (s : State) (v : Voice) (c : Nat) (w : Word) : (s.setInc v c w).res2 = s.res2 := by simp [State.setInc]
@[simp] theorem State.setInc_sr (s : State) (v : Voice) (c : Nat) (w : Word) : (s.setInc v c w).sr = s.sr := by simp [State.setInc]
@[simp] theorem State.setInc_blockSize (s : State) (v : Voice) (c : Nat) (w : Word) : (s.setInc v c w).blockSize = s.blockSize := by simp [State.setInc]
@[simp] theorem State.setInc_cap (s : State) (v : Voice) (c : Nat) (w : Word) : (s.setInc v c w).cap = s.cap := by simp [State.setInc]
@[simp] theorem State.setInc_widx (s : State) (v : Voice) (c : Nat) (w : Word) : (s.setInc v c w).widx = s.widx := by simp [State.setInc]
@[simp] theorem State.setInc_lastlen (s : State) (v : Voice) (c : Nat) (w : Word) : (s.setInc v c w).lastlen = s.lastlen := by simp [State.setInc]
@[simp] theorem State.setInc_winSamples (s : State) (v : Voice) (c : Nat) (w : Word) : (s.setInc v c w).winSamples = s.winSamples := by simp [State.setInc]
@[simp] theorem State.setInc_windowMs (s : State) (v : Voice) (c : Nat) (w : Word) : (s.setInc v c w).windowMs = s.windowMs := by simp [State.setInc]
@[simp] theorem State.setInc_semi1 (s : State) (v : Voice) (c : Nat) (w : Word) : (s.setInc v c w).semi1 = s.semi1 := by simp [State.setInc]
@[simp] theorem State.setInc_semi2 (s : State) (v : Voice) (c : Nat) (w : Word) : (s.setInc v c w).semi2 = s.semi2 := by simp [State.setInc]
@[simp] theorem State.setInc_freq1 (s : State) (v : Voice) (c : Nat) (w : Word) : (s.setInc v c w).freq1 = s.freq1 := by simp [State.setInc]
@[simp] theorem State.setInc_freq2 (s : State) (v : Voice) (c : Nat) (w : Word) : (s.setInc v c w).freq2 = s.freq2 := by simp [State.setInc]
@[simp] theorem State.setInc_msEff (s : State) (v : Voice) (c : Nat) (w : Word) : (s.setInc v c w).msEff = s.msEff := by simp [State.setInc]
@[simp] theorem State.setInc_semi1Eff (s : State) (v : Voice) (c : Nat) (w : Word) : (s.setInc v c w).semi1Eff = s.semi1Eff := by simp [State.setInc]
@[simp] theorem State.setInc_semi2Eff (s : State) (v : Voice) (c : Nat) (w : Word) : (s.setInc v c w).semi2Eff = s.semi2Eff := by simp [State.setInc]
@[simp] theorem State.setInc_iobuf (s : State) (v : Voice) (c : Nat) (w : Word) : (s.setInc v c w).iobuf = s.iobuf := by simp [State.setInc]
@[simp] theorem State.setInc_dl (s : State) (v : Voice) (c : Nat) (w : Word) : (s.setInc v c w).dl = s.dl := by simp [State.setInc]
@[simp] theorem State.setInc_pending (s : State) (v : Voice) (c : Nat) (w : Word) : (s.setInc v c w).pending = s.pending := by simp [State.setInc]
@[simp] theorem State.setInc_events (s : State) (v : Voice) (c : Nat) (w : Word) : (s.setInc v c w).events = s.events := by simp [State.setInc]
@[simp] theorem State.setInc_response (s : State) (v : Voice) (c : Nat) (w : Word) : (s.setInc v c w).response = s.response := by simp [State.setInc]

@[simp] theorem State.setIncAll_hw (s : State) (v : Voice) (w : Word) : (s.setIncAll v w).hw = s.hw := by simp [State.setIncAll]
@[simp] theorem State.setIncAll_status (s : State) (v : Voice) (w : Word) : (s.setIncAll v w).status = s.status := by simp [State.setIncAll]
@[simp] theorem State.setIncAll_irqEn (s : State) (v : Voice) (w : Word) : (s.setIncAll v w).irqEn = s.irqEn := by simp [State.setIncAll]
@[simp] theorem State.setIncAll_blkcnt (s : State) (v : Voice) (w : Word) : (s.setIncAll v w).blkcnt = s.blkcnt := by simp [State.setIncAll]
@[simp] theorem State.setIncAll_args (s : State) (v : Voice) (w : Word) : (s.setIncAll v w).args = s.args := by simp [State.setIncAll]
@[simp] theorem State.setIncAll_res0 (s : State) (v : Voice) (w : Word) : (s.setIncAll v w).res0 = s.res0 := by simp [State.setIncAll]
@[simp] theorem State.setIncAll_res1 (s : State) (v : Voice) (w : Word) : (s.setIncAll v w).res1 = s.res1 := by simp [State.setIncAll]
@[simp] theorem State.setIncAll_res2 (s : State) (v : Voice) (w : Word) : (s.setIncAll v w).res2 = s.res2 := by simp [State.setIncAll]
@[simp] theorem State.setIncAll_sr (s : State) (v : Voice) (w : Word) : (s.setIncAll v w).sr = s.sr := by simp [State.setIncAll]
@[simp] theorem State.setIncAll_blockSize (s : State) (v : Voice) (w : Word) : (s.setIncAll v w).blockSize = s.blockSize := by simp [State.setIncAll]
@[simp] theorem State.setIncAll_cap (s : State) (v : Voice) (w : Word) : (s.setIncAll v w).cap = s.cap := by simp [State.setIncAll]
@[simp] theorem State.setIncAll_widx (s : State) (v : Voice) (w : Word) : (s.setIncAll v w).widx = s.widx := by simp [State.setIncAll]
@[simp] theorem State.setIncAll_lastlen (s : State) (v : Voice) (w : Word) : (s.setIncAll v w).lastlen = s.lastlen := by simp [State.setIncAll]
@[simp] theorem State.setIncAll_winSamples (s : State) (v : Voice) (w : Word) : (s.setIncAll v w).winSamples = s.winSamples := by simp [State.setIncAll]
@[simp] theorem State.setIncAll_windowMs (s : State) (v : Voice) (w : Word) : (s.setIncAll v w).windowMs = s.windowMs := by simp [State.setIncAll]
@[simp] theorem State.setIncAll_semi1 (s : State) (v : Voice) (w : Word) : (s.setIncAll v w).semi1 = s.semi1 := by simp [State.setIncAll]
@[simp] theorem State.setIncAll_semi2 (s : State) (v : Voice) (w : Word) : (s.setIncAll v w).semi2 = s.semi2 := by simp [State.setIncAll]
@[simp] theorem State.setIncAll_freq1 (s : State) (v : Voice) (w : Word) : (s.setIncAll v w).freq1 = s.freq1 := by simp [State.setIncAll]
@[simp] theorem State.setIncAll_freq2 (s : State) (v : Voice) (w : Word) : (s.setIncAll v w).freq2 = s.freq2 := by simp [State.setIncAll]
@[simp] theorem State.setIncAll_msEff (s : State) (v : Voice) (w : Word) : (s.setIncAll v w).msEff = s.msEff := by simp [State.setIncAll]
@[simp] theorem State.setIncAll_semi1Eff (s : State) (v : Voice) (w : Word) : (s.setIncAll v w).semi1Eff = s.semi1Eff := by simp [State.setIncAll]
@[simp] theorem State.setIncAll_semi2Eff (s : State) (v : Voice) (w : Word) : (s.setIncAll v w).semi2Eff = s.semi2Eff := by simp [State.setIncAll]
@[simp] theorem State.setIncAll_iobuf (s : State) (v : Voice) (w : Word) : (s.setIncAll v w).iobuf = s.iobuf := by simp [State.setIncAll]
@[simp] theorem State.setIncAll_dl (s : State) (v : Voice) (w : Word) : (s.setIncAll v w).dl = s.dl := by simp [State.setIncAll]
@[simp] theorem State.setIncAll_pending (s : State) (v : Voice) (w : Word) : (s.setIncAll v w).pending = s.pending := by simp [State.setIncAll]
@[simp] theorem State.setIncAll_events (s : State) (v : Voice) (w : Word) : (s.setIncAll v w).events = s.events := by simp [State.setIncAll]
@[simp] theorem State.setIncAll_response (s : State) (v : Voice) (w : Word) : (s.setIncAll v w).response = s.response := by simp [State.setIncAll]

@[simp] theorem State.stepPhase_hw (s : State) (v : Voice) (c : Nat) : (s.stepPhase v c).hw = s.hw := by simp [State.stepPhase]
@[simp] theorem State.stepPhase_status (s : State) (v : Voice) (c : Nat) : (s.stepPhase v c).status = s.status := by simp [State.stepPhase]
@[simp] theorem State.stepPhase_irqEn (s : State) (v : Voice) (c : Nat) : (s.stepPhase v c).irqEn = s.irqEn := by simp [State.stepPhase]
@[simp] theorem State.stepPhase_blkcnt (s : State) (v : Voice) (c : Nat) : (s.stepPhase v c).blkcnt = s.blkcnt := by simp [State.stepPhase]
@[simp] theorem State.stepPhase_args (s : State) (v : Voice) (c : Nat) : (s.stepPhase v c).args = s.args := by simp [State.stepPhase]
@[simp] theorem State.stepPhase_res0 (s : State) (v : Voice) (c : Nat) : (s.stepPhase v c).res0 = s.res0 := by simp [State.stepPhase]
@[simp] theorem State.stepPhase_res1 (s : State) (v : Voice) (c : Nat) : (s.stepPhase v c).res1 = s.res1 := by simp [State.stepPhase]
@[simp] theorem State.stepPhase_res2 (s : State) (v : Voice) (c : Nat) : (s.stepPhase v c).res2 = s.res2 := by simp [State.stepPhase]
@[simp] theorem State.stepPhase_sr (s : State) (v : Voice) (c : Nat) : (s.stepPhase v c).sr = s.sr := by simp [State.stepPhase]
@[simp] theorem State.stepPhase_blockSize (s : State) (v : Voice) (c : Nat) : (s.stepPhase v c).blockSize = s.blockSize := by simp [State.stepPhase]
@[simp] theorem State.stepPhase_cap (s : State) (v : Voice) (c : Nat) : (s.stepPhase v c).cap = s.cap := by simp [State.stepPhase]
@[simp] theorem State.stepPhase_widx (s : State) (v : Voice) (c : Nat) : (s.stepPhase v c).widx = s.widx := by simp [State.stepPhase]
@[simp] theorem State.stepPhase_lastlen (s : State) (v : Voice) (c : Nat) : (s.stepPhase v c).lastlen = s.lastlen := by simp [State.stepPhase]
@[simp] theorem State.stepPhase_winSamples (s : State) (v : Voice) (c : Nat) : (s.stepPhase v c).winSamples = s.winSamples := by simp [State.stepPhase]
@[simp] theorem State.stepPhase_windowMs (s : State) (v : Voice) (c : Nat) : (s.stepPhase v c).windowMs = s.windowMs := by simp [State.stepPhase]
@[simp] theorem State.stepPhase_semi1 (s : State) (v : Voice) (c : Nat) : (s.stepPhase v c).semi1 = s.semi1 := by simp [State.stepPhase]
@[simp] theorem State.stepPhase_semi2 (s : State) (v : Voice) (c : Nat) : (s.stepPhase v c).semi2 = s.semi2 := by simp [State.stepPhase]
@[simp] theorem State.stepPhase_freq1 (s : State) (v : Voice) (c : Nat) : (s.stepPhase v c).freq1 = s.freq1 := by simp [State.stepPhase]
@[simp] theorem State.stepPhase_freq2 (s : State) (v : Voice) (c : Nat) : (s.stepPhase v c).freq2 = s.freq2 := by simp [State.stepPhase]
@[simp] theorem State.stepPhase_msEff (s : State) (v : Voice) (c : Nat) : (s.stepPhase v c).msEff = s.msEff := by simp [State.stepPhase]
@[simp] theorem State.stepPhase_semi1Eff (s : State) (v : Voice) (c : Nat) : (s.stepPhase v c).semi1Eff = s.semi1Eff := by simp [State.stepPhase]
@[simp] theorem State.stepPhase_semi2Eff (s : State) (v : Voice) (c : Nat) : (s.stepPhase v c).semi2Eff = s.semi2Eff := by simp [State.stepPhase]
@[simp] theorem State.stepPhase_iobuf (s : State) (v : Voice) (c : Nat) : (s.stepPhase v c).iobuf = s.iobuf := by simp [State.stepPhase]
@[simp] theorem State.stepPhase_dl (s : State) (v : Voice) (c : Nat) : (s.stepPhase v c).dl = s.dl := by simp [State.stepPhase]
@[simp] theorem State.stepPhase_pending (s : State) (v : Voice) (c : Nat) : (s.stepPhase v c).pending = s.pending := by simp [State.stepPhase]
@[simp] theorem State.stepPhase_events (s : State) (v : Voice) (c : Nat) : (s.stepPhase v c).events = s.events := by simp [State.stepPhase]
@[simp] theorem State.stepPhase_response (s : State) (v : Voice) (c : Nat) : (s.stepPhase v c).response = s.response := by simp [State.stepPhase]

@[simp] theorem State.stepBoth_hw (s : State) (c : Nat) : (s.stepBoth c).hw = s.hw := by simp [State.stepBoth]
@[simp] theorem State.stepBoth_status (s : State) (c : Nat) : (s.stepBoth c).status = s.status := by simp [State.stepBoth]
@[simp] theorem State.stepBoth_irqEn (s : State) (c : Nat) : (s.stepBoth c).irqEn = s.irqEn := by simp [State.stepBoth]
@[simp] theorem State.stepBoth_blkcnt (s : State) (c : Nat) : (s.stepBoth c).blkcnt = s.blkcnt := by simp [State.stepBoth]
@[simp] theorem State.stepBoth_args (s : State) (c : Nat) : (s.stepBoth c).args = s.args := by simp [State.stepBoth]
@[simp] theorem State.stepBoth_res0 (s : State) (c : Nat) : (s.stepBoth c).res0 = s.res0 := by simp [State.stepBoth]
@[simp] theorem State.stepBoth_res1 (s : State) (c : Nat) : (s.stepBoth c).res1 = s.res1 := by simp [State.stepBoth]
@[simp] theorem State.stepBoth_res2 (s : State) (c : Nat) : (s.stepBoth c).res2 = s.res2 := by simp [State.stepBoth]
@[simp] theorem State.stepBoth_sr (s : State) (c : Nat) : (s.stepBoth c).sr = s.sr := by simp [State.stepBoth]
@[simp] theorem State.stepBoth_blockSize (s : State) (c : Nat) : (s.stepBoth c).blockSize = s.blockSize := by simp [State.stepBoth]
@[simp] theorem State.stepBoth_cap (s : State) (c : Nat) : (s.stepBoth c).cap = s.cap := by simp [State.stepBoth]
@[simp] theorem State.stepBoth_widx (s : State) (c : Nat) : (s.stepBoth c).widx = s.widx := by simp [State.stepBoth]
@[simp] theorem State.stepBoth_lastlen (s : State) (c : Nat) : (s.stepBoth c).lastlen = s.lastlen := by simp [State.stepBoth]
@[simp] theorem State.stepBoth_winSamples (s : State) (c : Nat) : (s.stepBoth c).winSamples = s.winSamples := by simp [State.stepBoth]
@[simp] theorem State.stepBoth_windowMs (s : State) (c : Nat) : (s.stepBoth c).windowMs = s.windowMs := by simp [State.stepBoth]
@[simp] theorem State.stepBoth_semi1 (s : State) (c : Nat) : (s.stepBoth c).semi1 = s.semi1 := by simp [State.stepBoth]
@[simp] theorem State.stepBoth_semi2 (s : State) (c : Nat) : (s.stepBoth c).semi2 = s.semi2 := by simp [State.stepBoth]
@[simp] theorem State.stepBoth_freq1 (s : State) (c : Nat) : (s.stepBoth c).freq1 = s.freq1 := by simp [State.stepBoth]
@[simp] theorem State.stepBoth_freq2 (s : State) (c : Nat) : (s.stepBoth c).freq2 = s.freq2 := by simp [State.stepBoth]
@[simp] theorem State.stepBoth_msEff (s : State) (c : Nat) : (s.stepBoth c).msEff = s.msEff := by simp [State.stepBoth]
@[simp] theorem State.stepBoth_semi1Eff (s : State) (c : Nat) : (s.stepBoth c).semi1Eff = s.semi1Eff := by simp [State.stepBoth]
@[simp] theorem State.stepBoth_semi2Eff (s : State) (c : Nat) : (s.stepBoth c).semi2Eff = s.semi2Eff := by simp [State.stepBoth]
@[simp] theorem State.stepBoth_iobuf (s : State) (c : Nat) : (s.stepBoth c).iobuf = s.iobuf := by simp [State.stepBoth]
@[simp] theorem State.stepBoth_dl (s : State) (c : Nat) : (s.stepBoth c).dl = s.dl := by simp [State.stepBoth]
@[simp] theorem State.stepBoth_pending (s : State) (c : Nat) : (s.stepBoth c).pending = s.pending := by simp [State.stepBoth]
@[simp] theorem State.stepBoth_events (s : State) (c : Nat) : (s.stepBoth c).events = s.events := by simp [State.stepBoth]
@[simp] theorem State.stepBoth_response (s : State) (c : Nat) : (s.stepBoth c).response = s.response := by simp [State.stepBoth]

theorem State.setPhasors_phasors (s : State) (v u : Voice) (l : List Phasor) :
    (s.setPhasors v l).phasors u = if u = v then l else s.phasors u := by cases v <;> cases u <;> rfl

@[simp] theorem State.setPhasors_phasors_self (s : State) (v : Voice) (l : List Phasor) :
    (s.setPhasors v l).phasors v = l := by cases v <;> rfl

/-! ### Frequencies and the parameter latch -/

@[simp] theorem State.setFreq_hw (s : State) (v : Voice) (w : Word) : (s.setFreq v w).hw = s.hw := by cases v <;> rfl
@[simp] theorem State.setFreq_status (s : State) (v : Voice) (w : Word) : (s.setFreq v w).status = s.status := by cases v <;> rfl
@[simp] theorem State.setFreq_irqEn (s : State) (v : Voice) (w : Word) : (s.setFreq v w).irqEn = s.irqEn := by cases v <;> rfl
@[simp] theorem State.setFreq_blkcnt (s : State) (v : Voice) (w : Word) : (s.setFreq v w).blkcnt = s.blkcnt := by cases v <;> rfl
@[simp] theorem State.setFreq_args (s : State) (v : Voice) (w : Word) : (s.setFreq v w).args = s.args := by cases v <;> rfl
@[simp] theorem State.setFreq_res0 (s : State) (v : Voice) (w : Word) : (s.setFreq v w).res0 = s.res0 := by cases v <;> rfl
@[simp] theorem State.setFreq_res1 (s : State) (v : Voice) (w : Word) : (s.setFreq v w).res1 = s.res1 := by cases v <;> rfl
@[simp] theorem State.setFreq_res2 (s : State) (v : Voice) (w : Word) : (s.setFreq v w).res2 = s.res2 := by cases v <;> rfl
@[simp] theorem State.setFreq_sr (s : State) (v : Voice) (w : Word) : (s.setFreq v w).sr = s.sr := by cases v <;> rfl
@[simp] theorem State.setFreq_blockSize (s : State) (v : Voice) (w : Word) : (s.setFreq v w).blockSize = s.blockSize := by cases v <;> rfl
@[simp] theorem State.setFreq_cap (s : State) (v : Voice) (w : Word) : (s.setFreq v w).cap = s.cap := by cases v <;> rfl
@[simp] theorem State.setFreq_widx (s : State) (v : Voice) (w : Word) : (s.setFreq v w).widx = s.widx := by cases v <;> rfl
@[simp] theorem State.setFreq_lastlen (s : State) (v : Voice) (w : Word) : (s.setFreq v w).lastlen = s.lastlen := by cases v <;> rfl
@[simp] theorem State.setFreq_winSamples (s : State) (v : Voice) (w : Word) : (s.setFreq v w).winSamples = s.winSamples := by cases v <;> rfl
@[simp] theorem State.setFreq_windowMs (s : State) (v : Voice) (w : Word) : (s.setFreq v w).windowMs = s.windowMs := by cases v <;> rfl
@[simp] theorem State.setFreq_semi1 (s : State) (v : Voice) (w : Word) : (s.setFreq v w).semi1 = s.semi1 := by cases v <;> rfl
@[simp] theorem State.setFreq_semi2 (s : State) (v : Voice) (w : Word) : (s.setFreq v w).semi2 = s.semi2 := by cases v <;> rfl
@[simp] theorem State.setFreq_msEff (s : State) (v : Voice) (w : Word) : (s.setFreq v w).msEff = s.msEff := by cases v <;> rfl
@[simp] theorem State.setFreq_semi1Eff (s : State) (v : Voice) (w : Word) : (s.setFreq v w).semi1Eff = s.semi1Eff := by cases v <;> rfl
@[simp] theorem State.setFreq_semi2Eff (s : State) (v : Voice) (w : Word) : (s.setFreq v w).semi2Eff = s.semi2Eff := by cases v <;> rfl
@[simp] theorem State.setFreq_phasors1 (s : State) (v : Voice) (w : Word) : (s.setFreq v w).phasors1 = s.phasors1 := by cases v <;> rfl
@[simp] theorem State.setFreq_phasors2 (s : State) (v : Voice) (w : Word) : (s.setFreq v w).phasors2 = s.phasors2 := by cases v <;> rfl
@[simp] theorem State.setFreq_iobuf (s : State) (v : Voice) (w : Word) : (s.setFreq v w).iobuf = s.iobuf := by cases v <;> rfl
@[simp] theorem State.setFreq_dl (s : State) (v : Voice) (w : Word) : (s.setFreq v w).dl = s.dl := by cases v <;> rfl
@[simp] theorem State.setFreq_pending (s : State) (v : Voice) (w : Word) : (s.setFreq v w).pending = s.pending := by cases v <;> rfl
@[simp] theorem State.setFreq_events (s : State) (v : Voice) (w : Word) : (s.setFreq v w).events = s.events := by cases v <;> rfl
@[simp] theorem State.setFreq_response (s : State) (v : Voice) (w : Word) : (s.setFreq v w).response = s.response := by cases v <;> rfl

@[simp] theorem State.retune_hw (s : State) (v : Voice) (f : Word) : (s.retune v f).hw = s.hw := by simp [State.retune]
@[simp] theorem State.retune_status (s : State) (v : Voice) (f : Word) : (s.retune v f).status = s.status := by simp [State.retune]
@[simp] theorem State.retune_irqEn (s : State) (v : Voice) (f : Word) : (s.retune v f).irqEn = s.irqEn := by simp [State.retune]
@[simp] theorem State.retune_blkcnt (s : State) (v : Voice) (f : Word) : (s.retune v f).blkcnt = s.blkcnt := by simp [State.retune]
@[simp] theorem State.retune_args (s : State) (v : Voice) (f : Word) : (s.retune v f).args = s.args := by simp [State.retune]
@[simp] theorem State.retune_res0 (s : State) (v : Voice) (f : Word) : (s.retune v f).res0 = s.res0 := by simp [State.retune]
@[simp] theorem State.retune_res1 (s : State) (v : Voice) (f : Word) : (s.retune v f).res1 = s.res1 := by simp [State.retune]
@[simp] theorem State.retune_res2 (s : State) (v : Voice) (f : Word) : (s.retune v f).res2 = s.res2 := by simp [State.retune]
@[simp] theorem State.retune_sr (s : State) (v : Voice) (f : Word) : (s.retune v f).sr = s.sr := by simp [State.retune]
@[simp] theorem State.retune_blockSize (s : State) (v : Voice) (f : Word) : (s.retune v f).blockSize = s.blockSize := by simp [State.retune]
@[simp] theorem State.retune_cap (s : State) (v : Voice) (f : Word) : (s.retune v f).cap = s.cap := by simp [State.retune]
@[simp] theorem State.retune_widx (s : State) (v : Voice) (f : Word) : (s.retune v f).widx = s.widx := by simp [State.retune]
@[simp] theorem State.retune_lastlen (s : State) (v : Voice) (f : Word) : (s.retune v f).lastlen = s.lastlen := by simp [State.retune]
@[simp] theorem State.retune_winSamples (s : State) (v : Voice) (f : Word) : (s.retune v f).winSamples = s.winSamples := by simp [State.retune]
@[simp] theorem State.retune_windowMs (s : State) (v : Voice) (f : Word) : (s.retune v f).windowMs = s.windowMs := by simp [State.retune]
@[simp] theorem State.retune_semi1 (s : State) (v : Voice) (f : Word) : (s.retune v f).semi1 = s.semi1 := by simp [State.retune]
@[simp] theorem State.retune_semi2 (s : State) (v : Voice) (f : Word) : (s.retune v f).semi2 = s.semi2 := by simp [State.retune]
@[simp] theorem State.retune_msEff (s : State) (v : Voice) (f : Word) : (s.retune v f).msEff = s.msEff := by simp [State.retune]
@[simp] theorem State.retune_semi1Eff (s : State) (v : Voice) (f : Word) : (s.retune v f).semi1Eff = s.semi1Eff := by simp [State.retune]
@[simp] theorem State.retune_semi2Eff (s : State) (v : Voice) (f : Word) : (s.retune v f).semi2Eff = s.semi2Eff := by simp [State.retune]
@[simp] theorem State.retune_iobuf (s : State) (v : Voice) (f : Word) : (s.retune v f).iobuf = s.iobuf := by simp [State.retune]
@[simp] theorem State.retune_dl (s : State) (v : Voice) (f : Word) : (s.retune v f).dl = s.dl := by simp [State.retune]
@[simp] theorem State.retune_pending (s : State) (v : Voice) (f : Word) : (s.retune v f).pending = s.pending := by simp [State.retune]
@[simp] theorem State.retune_events (s : State) (v : Voice) (f : Word) : (s.retune v f).events = s.events := by simp [State.retune]
@[simp] theorem State.retune_response (s : State) (v : Voice) (f : Word) : (s.retune v f).response = s.response := by simp [State.retune]

theorem State.setFreq_freq (s : State) (v u : Voice) (w : Word) :
    (s.setFreq v w).freq u = if u = v then w else s.freq u := by cases v <;> cases u <;> rfl

@[simp] theorem State.setFreq_phasors (s : State) (v u : Voice) (w : Word) :
    (s.setFreq v w).phasors u = s.phasors u := by cases v <;> cases u <;> rfl

@[simp] theorem State.setPhasors_freq (s : State) (v u : Voice) (l : List Phasor) :
    (s.setPhasors v l).freq u = s.freq u := by cases v <;> cases u <;> rfl

@[simp] theorem State.latchVoice_hw (s : State) (force : Bool) (v : Voice) (ms semi : Word) : (s.latchVoice force v ms semi).hw = s.hw := by unfold State.latchVoice; split <;> simp
@[simp] theorem State.latchVoice_status (s : State) (force : Bool) (v : Voice) (ms semi : Word) : (s.latchVoice force v ms semi).status = s.status := by unfold State.latchVoice; split <;> simp
@[simp] theorem State.latchVoice_irqEn (s : State) (force : Bool) (v : Voice) (ms semi : Word) : (s.latchVoice force v ms semi).irqEn = s.irqEn := by unfold State.latchVoice; split <;> simp
@[simp] theorem State.latchVoice_blkcnt (s : State) (force : Bool) (v : Voice) (ms semi : Word) : (s.latchVoice force v ms semi).blkcnt = s.blkcnt := by unfold State.latchVoice; split <;> simp
@[simp] theorem State.latchVoice_args (s : State) (force : Bool) (v : Voice) (ms semi : Word) : (s.latchVoice force v ms semi).args = s.args := by unfold State.latchVoice; split <;> simp
@[simp] theorem State.latchVoice_res0 (s : State) (force : Bool) (v : Voice) (ms semi : Word) : (s.latchVoice force v ms semi).res0 = s.res0 := by unfold State.latchVoice; split <;> simp
@[simp] theorem State.latchVoice_res1 (s : State) (force : Bool) (v : Voice) (ms semi : Word) : (s.latchVoice force v ms semi).res1 = s.res1 := by unfold State.latchVoice; split <;> simp
@[simp] theorem State.latchVoice_res2 (s : State) (force : Bool) (v : Voice) (ms semi : Word) : (s.latchVoice force v ms semi).res2 = s.res2 := by unfold State.latchVoice; split <;> simp
@[simp] theorem State.latchVoice_sr (s : State) (force : Bool) (v : Voice) (ms semi : Word) : (s.latchVoice force v ms semi).sr = s.sr := by unfold State.latchVoice; split <;> simp
@[simp] theorem State.latchVoice_blockSize (s : State) (force : Bool) (v : Voice) (ms semi : Word) : (s.latchVoice force v ms semi).blockSize = s.blockSize := by unfold State.latchVoice; split <;> simp
@[simp] theorem State.latchVoice_cap (s : State) (force : Bool) (v : Voice) (ms semi : Word) : (s.latchVoice force v ms semi).cap = s.cap := by unfold State.latchVoice; split <;> simp
@[simp] theorem State.latchVoice_widx (s : State) (force : Bool) (v : Voice) (ms semi : Word) : (s.latchVoice force v ms semi).widx = s.widx := by unfold State.latchVoice; split <;> simp
@[simp] theorem State.latchVoice_lastlen (s : State) (force : Bool) (v : Voice) (ms semi : Word) : (s.latchVoice force v ms semi).lastlen = s.lastlen := by unfold State.latchVoice; split <;> simp
@[simp] theorem State.latchVoice_winSamples (s : State) (force : Bool) (v : Voice) (ms semi : Word) : (s.latchVoice force v ms semi).winSamples = s.winSamples := by unfold State.latchVoice; split <;> simp
@[simp] theorem State.latchVoice_windowMs (s : State) (force : Bool) (v : Voice) (ms semi : Word) : (s.latchVoice force v ms semi).windowMs = s.windowMs := by unfold State.latchVoice; split <;> simp
@[simp] theorem State.latchVoice_semi1 (s : State) (force : Bool) (v : Voice) (ms semi : Word) : (s.latchVoice force v ms semi).semi1 = s.semi1 := by unfold State.latchVoice; split <;> simp
@[simp] theorem State.latchVoice_semi2 (s : State) (force : Bool) (v : Voice) (ms semi : Word) : (s.latchVoice force v ms semi).semi2 = s.semi2 := by unfold State.latchVoice; split <;> simp
@[simp] theorem State.latchVoice_msEff (s : State) (force : Bool) (v : Voice) (ms semi : Word) : (s.latchVoice force v ms semi).msEff = s.msEff := by unfold State.latchVoice; split <;> simp
@[simp] theorem State.latchVoice_semi1Eff (s : State) (force : Bool) (v : Voice) (ms semi : Word) : (s.latchVoice force v ms semi).semi1Eff = s.semi1Eff := by unfold State.latchVoice; split <;> simp
@[simp] theorem State.latchVoice_semi2Eff (s : State) (force : Bool) (v : Voice) (ms semi : Word) : (s.latchVoice force v ms semi).semi2Eff = s.semi2Eff := by unfold State.latchVoice; split <;> simp
@[simp] theorem State.latchVoice_iobuf (s : State) (force : Bool) (v : Voice) (ms semi : Word) : (s.latchVoice force v ms semi).iobuf = s.iobuf := by unfold State.latchVoice; split <;> simp
@[simp] theorem State.latchVoice_dl (s : State) (force : Bool) (v : Voice) (ms semi : Word) : (s.latchVoice force v ms semi).dl = s.dl := by unfold State.latchVoice; split <;> simp
@[simp] theorem State.latchVoice_pending (s : State) (force : Bool) (v : Voice) (ms semi : Word) : (s.latchVoice force v ms semi).pending = s.pending := by unfold State.latchVoice; split <;> simp
@[simp] theorem State.latchVoice_events (s : State) (force : Bool) (v : Voice) (ms semi : Word) : (s.latchVoice force v ms semi).events = s.events := by unfold State.latchVoice; split <;> simp
@[simp] theorem State.latchVoice_response (s : State) (force : Bool) (v : Voice) (ms semi : Word) : (s.latchVoice force v ms semi).response = s.response := by unfold State.latchVoice; split <;> simp

@[simp] theorem State.applyParams_hw (s : State) (force : Bool) : (s.applyParams force).hw = s.hw := by simp [State.applyParams]
@[simp] theorem State.applyParams_irqEn (s : State) (force : Bool) : (s.applyParams force).irqEn = s.irqEn := by simp [State.applyParams]
@[simp] theorem State.applyParams_blkcnt (s : State) (force : Bool) : (s.applyParams force).blkcnt = s.blkcnt := by simp [State.applyParams]
@[simp] theorem State.applyParams_args (s : State) (force : Bool) : (s.applyParams force).args = s.args := by simp [State.applyParams]
@[simp] theorem State.applyParams_res0 (s : State) (force : Bool) : (s.applyParams force).res0 = s.res0 := by simp [State.applyParams]
@[simp] theorem State.applyParams_res1 (s : State) (force : Bool) : (s.applyParams force).res1 = s.res1 := by simp [State.applyParams]
@[simp] theorem State.applyParams_res2 (s : State) (force : Bool) : (s.applyParams force).res2 = s.res2 := by simp [State.applyParams]
@[simp] theorem State.applyParams_sr (s : State) (force : Bool) : (s.applyParams force).sr = s.sr := by simp [State.applyParams]
@[simp] theorem State.applyParams_blockSize (s : State) (force : Bool) : (s.applyParams force).blockSize = s.blockSize := by simp [State.applyParams]
@[simp] theorem State.applyParams_cap (s : State) (force : Bool) : (s.applyParams force).cap = s.cap := by simp [State.applyParams]
@[simp] theorem State.applyParams_widx (s : State) (force : Bool) : (s.applyParams force).widx = s.widx := by simp [State.applyParams]
@[simp] theorem State.applyParams_lastlen (s : State) (force : Bool) : (s.applyParams force).lastlen = s.lastlen := by simp [State.applyParams]
@[simp] theorem State.applyParams_windowMs (s : State) (force : Bool) : (s.applyParams force).windowMs = s.windowMs := by simp [State.applyParams]
@[simp] theorem State.applyParams_semi1 (s : State) (force : Bool) : (s.applyParams force).semi1 = s.semi1 := by simp [State.applyParams]
@[simp] theorem State.applyParams_semi2 (s : State) (force : Bool) : (s.applyParams force).semi2 = s.semi2 := by simp [State.applyParams]
@[simp] theorem State.applyParams_iobuf (s : State) (force : Bool) : (s.applyParams force).iobuf = s.iobuf := by simp [State.applyParams]
@[simp] theorem State.applyParams_dl (s : State) (force : Bool) : (s.applyParams force).dl = s.dl := by simp [State.applyParams]
@[simp] theorem State.applyParams_pending (s : State) (force : Bool) : (s.applyParams force).pending = s.pending := by simp [State.applyParams]
@[simp] theorem State.applyParams_events (s : State) (force : Bool) : (s.applyParams force).events = s.events := by simp [State.applyParams]
@[simp] theorem State.applyParams_response (s : State) (force : Bool) : (s.applyParams force).response = s.response := by simp [State.applyParams]

/-! ### Errors and the handshake -/

@[simp] theorem State.recordError_hw (s : State) (e : ErrCode) : (s.recordError e).hw = s.hw := rfl
@[simp] theorem State.recordError_irqEn (s : State) (e : ErrCode) : (s.recordError e).irqEn = s.irqEn := rfl
@[simp] theorem State.recordError_blkcnt (s : State) (e : ErrCode) : (s.recordError e).blkcnt = s.blkcnt := rfl
@[simp] theorem State.recordError_args (s : State) (e : ErrCode) : (s.recordError e).args = s.args := rfl
@[simp] theorem State.recordError_res0 (s : State) (e : ErrCode) : (s.recordError e).res0 = s.res0 := rfl
@[simp] theorem State.recordError_res1 (s : State) (e : ErrCode) : (s.recordError e).res1 = s.res1 := rfl
@[simp] theorem State.recordError_res2 (s : State) (e : ErrCode) : (s.recordError e).res2 = s.res2 := rfl
@[simp] theorem State.recordError_sr (s : State) (e : ErrCode) : (s.recordError e).sr = s.sr := rfl
@[simp] theorem State.recordError_blockSize (s : State) (e : ErrCode) : (s.recordError e).blockSize = s.blockSize := rfl
@[simp] theorem State.recordError_cap (s : State) (e : ErrCode) : (s.recordError e).cap = s.cap := rfl
@[simp] theorem State.recordError_widx (s : State) (e : ErrCode) : (s.recordError e).widx = s.widx := rfl
@[simp] theorem State.recordError_lastlen (s : State) (e : ErrCode) : (s.recordError e).lastlen = s.lastlen := rfl
@[simp] theorem State.recordError_winSamples (s : State) (e : ErrCode) : (s.recordError e).winSamples = s.winSamples := rfl
@[simp] theorem State.recordError_windowMs (s : State) (e : ErrCode) : (s.recordError e).windowMs = s.windowMs := rfl
@[simp] theorem State.recordError_semi1 (s : State) (e : ErrCode) : (s.recordError e).semi1 = s.semi1 := rfl
@[simp] theorem State.recordError_semi2 (s : State) (e : ErrCode) : (s.recordError e).semi2 = s.semi2 := rfl
@[simp] theorem State.recordError_freq1 (s : State) (e : ErrCode) : (s.recordError e).freq1 = s.freq1 := rfl
@[simp] theorem State.recordError_freq2 (s : State) (e : ErrCode) : (s.recordError e).freq2 = s.freq2 := rfl
@[simp] theorem State.recordError_msEff (s : State) (e : ErrCode) : (s.recordError e).msEff = s.msEff := rfl
@[simp] theorem State.recordError_semi1Eff (s : State) (e : ErrCode) : (s.recordError e).semi1Eff = s.semi1Eff := rfl
@[simp] theorem State.recordError_semi2Eff (s : State) (e : ErrCode) : (s.recordError e).semi2Eff = s.semi2Eff := rfl
@[simp] theorem State.recordError_phasors1 (s : State) (e : ErrCode) : (s.recordError e).phasors1 = s.phasors1 := rfl
@[simp] theorem State.recordError_phasors2 (s : State) (e : ErrCode) : (s.recordError e).phasors2 = s.phasors2 := rfl
@[simp] theorem State.recordError_iobuf (s : State) (e : ErrCode) : (s.recordError e).iobuf = s.iobuf := rfl
@[simp] theorem State.recordError_dl (s : State) (e : ErrCode) : (s.recordError e).dl = s.dl := rfl
@[simp] theorem State.recordError_pending (s : State) (e : ErrCode) : (s.recordError e).pending = s.pending := rfl
@[simp] theorem State.recordError_events (s : State) (e : ErrCode) : (s.recordError e).events = s.events := rfl
@[simp] theorem State.recordError_response (s : State) (e : ErrCode) : (s.recordError e).response = s.response := rfl

@[simp] theorem State.complete_hw (s : State) : (s.complete).hw = s.hw := rfl
@[simp] theorem State.complete_irqEn (s : State) : (s.complete).irqEn = s.irqEn := rfl
@[simp] theorem State.complete_blkcnt (s : State) : (s.complete).blkcnt = s.blkcnt := rfl
@[simp] theorem State.complete_args (s : State) : (s.complete).args = s.args := rfl
@[simp] theorem State.complete_res0 (s : State) : (s.complete).res0 = s.res0 := rfl
@[simp] theorem State.complete_res1 (s : State) : (s.complete).res1 = s.res1 := rfl
@[simp] theorem State.complete_res2 (s : State) : (s.complete).res2 = s.res2 := rfl
@[simp] theorem State.complete_sr (s : State) : (s.complete).sr = s.sr := rfl
@[simp] theorem State.complete_blockSize (s : State) : (s.complete).blockSize = s.blockSize := rfl
@[simp] theorem State.complete_cap (s : State) : (s.complete).cap = s.cap := rfl
@[simp] theorem State.complete_widx (s : State) : (s.complete).widx = s.widx := rfl
@[simp] theorem State.complete_lastlen (s : State) : (s.complete).lastlen = s.lastlen := rfl
@[simp] theorem State.complete_winSamples (s : State) : (s.complete).winSamples = s.winSamples := rfl
@[simp] theorem State.complete_windowMs (s : State) : (s.complete).windowMs = s.windowMs := rfl
@[simp] theorem State.complete_semi1 (s : State) : (s.complete).semi1 = s.semi1 := rfl
@[simp] theorem State.complete_semi2 (s : State) : (s.complete).semi2 = s.semi2 := rfl
@[simp] theorem State.complete_freq1 (s : State) : (s.complete).freq1 = s.freq1 := rfl
@[simp] theorem State.complete_freq2 (s : State) : (s.complete).freq2 = s.freq2 := rfl
@[simp] theorem State.complete_msEff (s : State) : (s.complete).msEff = s.msEff := rfl
@[simp] theorem State.complete_semi1Eff (s : State) : (s.complete).semi1Eff = s.semi1Eff := rfl
@[simp] theorem State.complete_semi2Eff (s : State) : (s.complete).semi2Eff = s.semi2Eff := rfl
@[simp] theorem State.complete_phasors1 (s : State) : (s.complete).phasors1 = s.phasors1 := rfl
@[simp] theorem State.complete_phasors2 (s : State) : (s.complete).phasors2 = s.phasors2 := rfl
@[simp] theorem State.complete_iobuf (s : State) : (s.complete).iobuf = s.iobuf := rfl
@[simp] theorem State.complete_dl (s : State) : (s.complete).dl = s.dl := rfl
@[simp] theorem State.complete_events (s : State) : (s.complete).events = s.events := rfl
@[simp] theorem State.complete_response (s : State) : (s.complete).response = s.response := rfl

@[simp] theorem State.issue_hw (s : State) (w : Word) : (s.issue w).hw = s.hw := by unfold State.issue; split <;> rfl
@[simp] theorem State.issue_irqEn (s : State) (w : Word) : (s.issue w).irqEn = s.irqEn := by unfold State.issue; split <;> rfl
@[simp] theorem State.issue_blkcnt (s : State) (w : Word) : (s.issue w).blkcnt = s.blkcnt := by unfold State.issue; split <;> rfl
@[simp] theorem State.issue_args (s : State) (w : Word) : (s.issue w).args = s.args := by unfold State.issue; split <;> rfl
@[simp] theorem State.issue_res0 (s : State) (w : Word) : (s.issue w).res0 = s.res0 := by unfold State.issue; split <;> rfl
@[simp] theorem State.issue_res1 (s : State) (w : Word) : (s.issue w).res1 = s.res1 := by unfold State.issue; split <;> rfl
@[simp] theorem State.issue_res2 (s : State) (w : Word) : (s.issue w).res2 = s.res2 := by unfold State.issue; split <;> rfl
@[simp] theorem State.issue_sr (s : State) (w : Word) : (s.issue w).sr = s.sr := by unfold State.issue; split <;> rfl
@[simp] theorem State.issue_blockSize (s : State) (w : Word) : (s.issue w).blockSize = s.blockSize := by unfold State.issue; split <;> rfl
@[simp] theorem State.issue_cap (s : State) (w : Word) : (s.issue w).cap = s.cap := by unfold State.issue; split <;> rfl
@[simp] theorem State.issue_widx (s : State) (w : Word) : (s.issue w).widx = s.widx := by unfold State.issue; split <;> rfl
@[simp] theorem State.issue_lastlen (s : State) (w : Word) : (s.issue w).lastlen = s.lastlen := by unfold State.issue; split <;> rfl
@[simp] theorem State.issue_winSamples (s : State) (w : Word) : (s.issue w).winSamples = s.winSamples := by unfold State.issue; split <;> rfl
@[simp] theorem State.issue_windowMs (s : State) (w : Word) : (s.issue w).windowMs = s.windowMs := by unfold State.issue; split <;> rfl
@[simp] theorem State.issue_semi1 (s : State) (w : Word) : (s.issue w).semi1 = s.semi1 := by unfold State.issue; split <;> rfl
@[simp] theorem State.issue_semi2 (s : State) (w : Word) : (s.issue w).semi2 = s.semi2 := by unfold State.issue; split <;> rfl
@[simp] theorem State.issue_freq1 (s : State) (w : Word) : (s.issue w).freq1 = s.freq1 := by unfold State.issue; split <;> rfl
@[simp] theorem State.issue_freq2 (s : State) (w : Word) : (s.issue w).freq2 = s.freq2 := by unfold State.issue; split <;> rfl
@[simp] theorem State.issue_msEff (s : State) (w : Word) : (s.issue w).msEff = s.msEff := by unfold State.issue; split <;> rfl
@[simp] theorem State.issue_semi1Eff (s : State) (w : Word) : (s.issue w).semi1Eff = s.semi1Eff := by unfold State.issue; split <;> rfl
@[simp] theorem State.issue_semi2Eff (s : State) (w : Word) : (s.issue w).semi2Eff = s.semi2Eff := by unfold State.issue; split <;> rfl
@[simp] theorem State.issue_phasors1 (s : State) (w : Word) : (s.issue w).phasors1 = s.phasors1 := by unfold State.issue; split <;> rfl
@[simp] theorem State.issue_phasors2 (s : State) (w : Word) : (s.issue w).phasors2 = s.phasors2 := by unfold State.issue; split <;> rfl
@[simp] theorem State.issue_iobuf (s : State) (w : Word) : (s.issue w).iobuf = s.iobuf := by unfold State.issue; split <;> rfl
@[simp] theorem State.issue_dl (s : State) (w : Word) : (s.issue w).dl = s.dl := by unfold State.issue; split <;> rfl
@[simp] theorem State.issue_events (s : State) (w : Word) : (s.issue w).events = s.events := by unfold State.issue; split <;> rfl
@[simp] theorem State.issue_response (s : State) (w : Word) : (s.issue w).response = s.response := by unfold State.issue; split <;> rfl

/-! ### Blocks -/

@[simp] theorem State.writeBlock_hw (s : State) (L : Nat) : (s.writeBlock L).hw = s.hw := rfl
@[simp] theorem State.writeBlock_status (s : State) (L : Nat) : (s.writeBlock L).status = s.status := rfl
@[simp] theorem State.writeBlock_irqEn (s : State) (L : Nat) : (s.writeBlock L).irqEn = s.irqEn := rfl
@[simp] theorem State.writeBlock_blkcnt (s : State) (L : Nat) : (s.writeBlock L).blkcnt = s.blkcnt := rfl
@[simp] theorem State.writeBlock_args (s : State) (L : Nat) : (s.writeBlock L).args = s.args := rfl
@[simp] theorem State.writeBlock_res0 (s : State) (L : Nat) : (s.writeBlock L).res0 = s.res0 := rfl
@[simp] theorem State.writeBlock_res1 (s : State) (L : Nat) : (s.writeBlock L).res1 = s.res1 := rfl
@[simp] theorem State.writeBlock_res2 (s : State) (L : Nat) : (s.writeBlock L).res2 = s.res2 := rfl
@[simp] theorem State.writeBlock_sr (s : State) (L : Nat) : (s.writeBlock L).sr = s.sr := rfl
@[simp] theorem State.writeBlock_blockSize (s : State) (L : Nat) : (s.writeBlock L).blockSize = s.blockSize := rfl
@[simp] theorem State.writeBlock_cap (s : State) (L : Nat) : (s.writeBlock L).cap = s.cap := rfl
@[simp] theorem State.writeBlock_winSamples (s : State) (L : Nat) : (s.writeBlock L).winSamples = s.winSamples := rfl
@[simp] theorem State.writeBlock_windowMs (s : State) (L : Nat) : (s.writeBlock L).windowMs = s.windowMs := rfl
@[simp] theorem State.writeBlock_semi1 (s : State) (L : Nat) : (s.writeBlock L).semi1 = s.semi1 := rfl
@[simp] theorem State.writeBlock_semi2 (s : State) (L : Nat) : (s.writeBlock L).semi2 = s.semi2 := rfl
@[simp] theorem State.writeBlock_freq1 (s : State) (L : Nat) : (s.writeBlock L).freq1 = s.freq1 := rfl
@[simp] theorem State.writeBlock_freq2 (s : State) (L : Nat) : (s.writeBlock L).freq2 = s.freq2 := rfl
@[simp] theorem State.writeBlock_msEff (s : State) (L : Nat) : (s.writeBlock L).msEff = s.msEff := rfl
@[simp] theorem State.writeBlock_semi1Eff (s : State) (L : Nat) : (s.writeBlock L).semi1Eff = s.semi1Eff := rfl
@[simp] theorem State.writeBlock_semi2Eff (s : State) (L : Nat) : (s.writeBlock L).semi2Eff = s.semi2Eff := rfl
@[simp] theorem State.writeBlock_phasors1 (s : State) (L : Nat) : (s.writeBlock L).phasors1 = s.phasors1 := rfl
@[simp] theorem State.writeBlock_phasors2 (s : State) (L : Nat) : (s.writeBlock L).phasors2 = s.phasors2 := rfl
@[simp] theorem State.writeBlock_iobuf (s : State) (L : Nat) : (s.writeBlock L).iobuf = s.iobuf := rfl
@[simp] theorem State.writeBlock_pending (s : State) (L : Nat) : (s.writeBlock L).pending = s.pending := rfl
@[simp] theorem State.writeBlock_events (s : State) (L : Nat) : (s.writeBlock L).events = s.events := rfl
@[simp] theorem State.writeBlock_response (s : State) (L : Nat) : (s.writeBlock L).response = s.response := rfl

@[simp] theorem State.countBlock_hw (s : State) : (s.countBlock).hw = s.hw := rfl
@[simp] theorem State.countBlock_status (s : State) : (s.countBlock).status = s.status := rfl
@[simp] theorem State.countBlock_irqEn (s : State) : (s.countBlock).irqEn = s.irqEn := rfl
@[simp] theorem State.countBlock_args (s : State) : (s.countBlock).args = s.args := rfl
@[simp] theorem State.countBlock_res0 (s : State) : (s.countBlock).res0 = s.res0 := rfl
@[simp] theorem State.countBlock_res1 (s : State) : (s.countBlock).res1 = s.res1 := rfl
@[simp] theorem State.countBlock_res2 (s : State) : (s.countBlock).res2 = s.res2 := rfl
@[simp] theorem State.countBlock_sr (s : State) : (s.countBlock).sr = s.sr := rfl
@[simp] theorem State.countBlock_blockSize (s : State) : (s.countBlock).blockSize = s.blockSize := rfl
@[simp] theorem State.countBlock_cap (s : State) : (s.countBlock).cap = s.cap := rfl
@[simp] theorem State.countBlock_widx (s : State) : (s.countBlock).widx = s.widx := rfl
@[simp] theorem State.countBlock_lastlen (s : State) : (s.countBlock).lastlen = s.lastlen := rfl
@[simp] theorem State.countBlock_winSamples (s : State) : (s.countBlock).winSamples = s.winSamples := rfl
@[simp] theorem State.countBlock_windowMs (s : State) : (s.countBlock).windowMs = s.windowMs := rfl
@[simp] theorem State.countBlock_semi1 (s : State) : (s.countBlock).semi1 = s.semi1 := rfl
@[simp] theorem State.countBlock_semi2 (s : State) : (s.countBlock).semi2 = s.semi2 := rfl
@[simp] theorem State.countBlock_freq1 (s : State) : (s.countBlock).freq1 = s.freq1 := rfl
@[simp] theorem State.countBlock_freq2 (s : State) : (s.countBlock).freq2 = s.freq2 := rfl
@[simp] theorem State.countBlock_msEff (s : State) : (s.countBlock).msEff = s.msEff := rfl
@[simp] theorem State.countBlock_semi1Eff (s : State) : (s.countBlock).semi1Eff = s.semi1Eff := rfl
@[simp] theorem State.countBlock_semi2Eff (s : State) : (s.countBlock).semi2Eff = s.semi2Eff := rfl
@[simp] theorem State.countBlock_phasors1 (s : State) : (s.countBlock).phasors1 = s.phasors1 := rfl
@[simp] theorem State.countBlock_phasors2 (s : State) : (s.countBlock).phasors2 = s.phasors2 := rfl
@[simp] theorem State.countBlock_iobuf (s : State) : (s.countBlock).iobuf = s.iobuf := rfl
@[simp] theorem State.countBlock_dl (s : State) : (s.countBlock).dl = s.dl := rfl
@[simp] theorem State.countBlock_pending (s : State) : (s.countBlock).pending = s.pending := rfl
@[simp] theorem State.countBlock_events (s : State) : (s.countBlock).events = s.events := rfl
@[simp] theorem State.countBlock_response (s : State) : (s.countBlock).response = s.response := rfl

@[simp] theorem State.mixInto_hw (s : State) (c i : Nat) : (s.mixInto c i).hw = s.hw := by simp [State.mixInto]
@[simp] theorem State.mixInto_status (s : State) (c i : Nat) : (s.mixInto c i).status = s.status := by simp [State.mixInto]
@[simp] theorem State.mixInto_irqEn (s : State) (c i : Nat) : (s.mixInto c i).irqEn = s.irqEn := by simp [State.mixInto]
@[simp] theorem State.mixInto_blkcnt (s : State) (c i : Nat) : (s.mixInto c i).blkcnt = s.blkcnt := by simp [State.mixInto]
@[simp] theorem State.mixInto_args (s : State) (c i : Nat) : (s.mixInto c i).args = s.args := by simp [State.mixInto]
@[simp] theorem State.mixInto_res0 (s : State) (c i : Nat) : (s.mixInto c i).res0 = s.res0 := by simp [State.mixInto]
@[simp] theorem State.mixInto_res1 (s : State) (c i : Nat) : (s.mixInto c i).res1 = s.res1 := by simp [State.mixInto]
@[simp] theorem State.mixInto_res2 (s : State) (c i : Nat) : (s.mixInto c i).res2 = s.res2 := by simp [State.mixInto]
@[simp] theorem State.mixInto_sr (s : State) (c i : Nat) : (s.mixInto c i).sr = s.sr := by simp [State.mixInto]
@[simp] theorem State.mixInto_blockSize (s : State) (c i : Nat) : (s.mixInto c i).blockSize = s.blockSize := by simp [State.mixInto]
@[simp] theorem State.mixInto_cap (s : State) (c i : Nat) : (s.mixInto c i).cap = s.cap := by simp [State.mixInto]
@[simp] theorem State.mixInto_widx (s : State) (c i : Nat) : (s.mixInto c i).widx = s.widx := by simp [State.mixInto]
@[simp] theorem State.mixInto_lastlen (s : State) (c i : Nat) : (s.mixInto c i).lastlen = s.lastlen := by simp [State.mixInto]
@[simp] theorem State.mixInto_winSamples (s : State) (c i : Nat) : (s.mixInto c i).winSamples = s.winSamples := by simp [State.mixInto]
@[simp] theorem State.mixInto_windowMs (s : State) (c i : Nat) : (s.mixInto c i).windowMs = s.windowMs := by simp [State.mixInto]
@[simp] theorem State.mixInto_semi1 (s : State) (c i : Nat) : (s.mixInto c i).semi1 = s.semi1 := by simp [State.mixInto]
@[simp] theorem State.mixInto_semi2 (s : State) (c i : Nat) : (s.mixInto c i).semi2 = s.semi2 := by simp [State.mixInto]
@[simp] theorem State.mixInto_freq1 (s : State) (c i : Nat) : (s.mixInto c i).freq1 = s.freq1 := by simp [State.mixInto]
@[simp] theorem State.mixInto_freq2 (s : State) (c i : Nat) : (s.mixInto c i).freq2 = s.freq2 := by simp [State.mixInto]
@[simp] theorem State.mixInto_msEff (s : State) (c i : Nat) : (s.mixInto c i).msEff = s.msEff := by simp [State.mixInto]
@[simp] theorem State.mixInto_semi1Eff (s : State) (c i : Nat) : (s.mixInto c i).semi1Eff = s.semi1Eff := by simp [State.mixInto]
@[simp] theorem State.mixInto_semi2Eff (s : State) (c i : Nat) : (s.mixInto c i).semi2Eff = s.semi2Eff := by simp [State.mixInto]
@[simp] theorem State.mixInto_dl (s : State) (c i : Nat) : (s.mixInto c i).dl = s.dl := by simp [State.mixInto]
@[simp] theorem State.mixInto_pending (s : State) (c i : Nat) : (s.mixInto c i).pending = s.pending := by simp [State.mixInto]
@[simp] theorem State.mixInto_events (s : State) (c i : Nat) : (s.mixInto c i).events = s.events := by simp [State.mixInto]
@[simp] theorem State.mixInto_response (s : State) (c i : Nat) : (s.mixInto c i).response = s.response := by simp [State.mixInto]

@[simp] theorem State.mixFrame_hw (s : State) (i : Nat) : (s.mixFrame i).hw = s.hw := foldl_keeps (g := State.hw) (fun t c => t.mixInto_hw c i) _ _
@[simp] theorem State.mixFrame_status (s : State) (i : Nat) : (s.mixFrame i).status = s.status := foldl_keeps (g := State.status) (fun t c => t.mixInto_status c i) _ _
@[simp] theorem State.mixFrame_irqEn (s : State) (i : Nat) : (s.mixFrame i).irqEn = s.irqEn := foldl_keeps (g := State.irqEn) (fun t c => t.mixInto_irqEn c i) _ _
@[simp] theorem State.mixFrame_blkcnt (s : State) (i : Nat) : (s.mixFrame i).blkcnt = s.blkcnt := foldl_keeps (g := State.blkcnt) (fun t c => t.mixInto_blkcnt c i) _ _
@[simp] theorem State.mixFrame_args (s : State) (i : Nat) : (s.mixFrame i).args = s.args := foldl_keeps (g := State.args) (fun t c => t.mixInto_args c i) _ _
@[simp] theorem State.mixFrame_res0 (s : State) (i : Nat) : (s.mixFrame i).res0 = s.res0 := foldl_keeps (g := State.res0) (fun t c => t.mixInto_res0 c i) _ _
@[simp] theorem State.mixFrame_res1 (s : State) (i : Nat) : (s.mixFrame i).res1 = s.res1 := foldl_keeps (g := State.res1) (fun t c => t.mixInto_res1 c i) _ _
@[simp] theorem State.mixFrame_res2 (s : State) (i : Nat) : (s.mixFrame i).res2 = s.res2 := foldl_keeps (g := State.res2) (fun t c => t.mixInto_res2 c i) _ _
@[simp] theorem State.mixFrame_sr (s : State) (i : Nat) : (s.mixFrame i).sr = s.sr := foldl_keeps (g := State.sr) (fun t c => t.mixInto_sr c i) _ _
@[simp] theorem State.mixFrame_blockSize (s : State) (i : Nat) : (s.mixFrame i).blockSize = s.blockSize := foldl_keeps (g := State.blockSize) (fun t c => t.mixInto_blockSize c i) _ _
@[simp] theorem State.mixFrame_cap (s : State) (i : Nat) : (s.mixFrame i).cap = s.cap := foldl_keeps (g := State.cap) (fun t c => t.mixInto_cap c i) _ _
@[simp] theorem State.mixFrame_widx (s : State) (i : Nat) : (s.mixFrame i).widx = s.widx := foldl_keeps (g := State.widx) (fun t c => t.mixInto_widx c i) _ _
@[simp] theorem State.mixFrame_lastlen (s : State) (i : Nat) : (s.mixFrame i).lastlen = s.lastlen := foldl_keeps (g := State.lastlen) (fun t c => t.mixInto_lastlen c i) _ _
@[simp] theorem State.mixFrame_winSamples (s : State) (i : Nat) : (s.mixFrame i).winSamples = s.winSamples := foldl_keeps (g := State.winSamples) (fun t c => t.mixInto_winSamples c i) _ _
@[simp] theorem State.mixFrame_windowMs (s : State) (i : Nat) : (s.mixFrame i).windowMs = s.windowMs := foldl_keeps (g := State.windowMs) (fun t c => t.mixInto_windowMs c i) _ _
@[simp] theorem State.mixFrame_semi1 (s : State) (i : Nat) : (s.mixFrame i).semi1 = s.semi1 := foldl_keeps (g := State.semi1) (fun t c => t.mixInto_semi1 c i) _ _
@[simp] theorem State.mixFrame_semi2 (s : State) (i : Nat) : (s.mixFrame i).semi2 = s.semi2 := foldl_keeps (g := State.semi2) (fun t c => t.mixInto_semi2 c i) _ _
@[simp] theorem State.mixFrame_freq1 (s : State) (i : Nat) : (s.mixFrame i).freq1 = s.freq1 := foldl_keeps (g := State.freq1) (fun t c => t.mixInto_freq1 c i) _ _
@[simp] theorem State.mixFrame_freq2 (s : State) (i : Nat) : (s.mixFrame i).freq2 = s.freq2 := foldl_keeps (g := State.freq2) (fun t c => t.mixInto_freq2 c i) _ _
@[simp] theorem State.mixFrame_msEff (s : State) (i : Nat) : (s.mixFrame i).msEff = s.msEff := foldl_keeps (g := State.msEff) (fun t c => t.mixInto_msEff c i) _ _
@[simp] theorem State.mixFrame_semi1Eff (s : State) (i : Nat) : (s.mixFrame i).semi1Eff = s.semi1Eff := foldl_keeps (g := State.semi1Eff) (fun t c => t.mixInto_semi1Eff c i) _ _
@[simp] theorem State.mixFrame_semi2Eff (s : State) (i : Nat) : (s.mixFrame i).semi2Eff = s.semi2Eff := foldl_keeps (g := State.semi2Eff) (fun t c => t.mixInto_semi2Eff c i) _ _
@[simp] theorem State.mixFrame_dl (s : State) (i : Nat) : (s.mixFrame i).dl = s.dl := foldl_keeps (g := State.dl) (fun t c => t.mixInto_dl c i) _ _
@[simp] theorem State.mixFrame_pending (s : State) (i : Nat) : (s.mixFrame i).pending = s.pending := foldl_keeps (g := State.pending) (fun t c => t.mixInto_pending c i) _ _
@[simp] theorem State.mixFrame_events (s : State) (i : Nat) : (s.mixFrame i).events = s.events := foldl_keeps (g := State.events) (fun t c => t.mixInto_events c i) _ _
@[simp] theorem State.mixFrame_response (s : State) (i : Nat) : (s.mixFrame i).response = s.response := foldl_keeps (g := State.response) (fun t c => t.mixInto_response c i) _ _

@[simp] theorem State.mixBlock_hw (s : State) (L : Nat) : (s.mixBlock L).hw = s.hw := foldl_keeps (g := State.hw) (fun t i => t.mixFrame_hw i) _ _
@[simp] theorem State.mixBlock_status (s : State) (L : Nat) : (s.mixBlock L).status = s.status := foldl_keeps (g := State.status) (fun t i => t.mixFrame_status i) _ _
@[simp] theorem State.mixBlock_irqEn (s : State) (L : Nat) : (s.mixBlock L).irqEn = s.irqEn := foldl_keeps (g := State.irqEn) (fun t i => t.mixFrame_irqEn i) _ _
@[simp] theorem State.mixBlock_blkcnt (s : State) (L : Nat) : (s.mixBlock L).blkcnt = s.blkcnt := foldl_keeps (g := State.blkcnt) (fun t i => t.mixFrame_blkcnt i) _ _
@[simp] theorem State.mixBlock_args (s : State) (L : Nat) : (s.mixBlock L).args = s.args := foldl_keeps (g := State.args) (fun t i => t.mixFrame_args i) _ _
@[simp] theorem State.mixBlock_res0 (s : State) (L : Nat) : (s.mixBlock L).res0 = s.res0 := foldl_keeps (g := State.res0) (fun t i => t.mixFrame_res0 i) _ _
@[simp] theorem State.mixBlock_res1 (s : State) (L : Nat) : (s.mixBlock L).res1 = s.res1 := foldl_keeps (g := State.res1) (fun t i => t.mixFrame_res1 i) _ _
@[simp] theorem State.mixBlock_res2 (s : State) (L : Nat) : (s.mixBlock L).res2 = s.res2 := foldl_keeps (g := State.res2) (fun t i => t.mixFrame_res2 i) _ _
@[simp] theorem State.mixBlock_sr (s : State) (L : Nat) : (s.mixBlock L).sr = s.sr := foldl_keeps (g := State.sr) (fun t i => t.mixFrame_sr i) _ _
@[simp] theorem State.mixBlock_blockSize (s : State) (L : Nat) : (s.mixBlock L).blockSize = s.blockSize := foldl_keeps (g := State.blockSize) (fun t i => t.mixFrame_blockSize i) _ _
@[simp] theorem State.mixBlock_cap (s : State) (L : Nat) : (s.mixBlock L).cap = s.cap := foldl_keeps (g := State.cap) (fun t i => t.mixFrame_cap i) _ _
@[simp] theorem State.mixBlock_widx (s : State) (L : Nat) : (s.mixBlock L).widx = s.widx := foldl_keeps (g := State.widx) (fun t i => t.mixFrame_widx i) _ _
@[simp] theorem State.mixBlock_lastlen (s : State) (L : Nat) : (s.mixBlock L).lastlen = s.lastlen := foldl_keeps (g := State.lastlen) (fun t i => t.mixFrame_lastlen i) _ _
@[simp] theorem State.mixBlock_winSamples (s : State) (L : Nat) : (s.mixBlock L).winSamples = s.winSamples := foldl_keeps (g := State.winSamples) (fun t i => t.mixFrame_winSamples i) _ _
@[simp] theorem State.mixBlock_windowMs (s : State) (L : Nat) : (s.mixBlock L).windowMs = s.windowMs := foldl_keeps (g := State.windowMs) (fun t i => t.mixFrame_windowMs i) _ _
@[simp] theorem State.mixBlock_semi1 (s : State) (L : Nat) : (s.mixBlock L).semi1 = s.semi1 := foldl_keeps (g := State.semi1) (fun t i => t.mixFrame_semi1 i) _ _
@[simp] theorem State.mixBlock_semi2 (s : State) (L : Nat) : (s.mixBlock L).semi2 = s.semi2 := foldl_keeps (g := State.semi2) (fun t i => t.mixFrame_semi2 i) _ _
@[simp] theorem State.mixBlock_freq1 (s : State) (L : Nat) : (s.mixBlock L).freq1 = s.freq1 := foldl_keeps (g := State.freq1) (fun t i => t.mixFrame_freq1 i) _ _
@[simp] theorem State.mixBlock_freq2 (s : State) (L : Nat) : (s.mixBlock L).freq2 = s.freq2 := foldl_keeps (g := State.freq2) (fun t i => t.mixFrame_freq2 i) _ _
@[simp] theorem State.mixBlock_msEff (s : State) (L : Nat) : (s.mixBlock L).msEff = s.msEff := foldl_keeps (g := State.msEff) (fun t i => t.mixFrame_msEff i) _ _
@[simp] theorem State.mixBlock_semi1Eff (s : State) (L : Nat) : (s.mixBlock L).semi1Eff = s.semi1Eff := foldl_keeps (g := State.semi1Eff) (fun t i => t.mixFrame_semi1Eff i) _ _
@[simp] theorem State.mixBlock_semi2Eff (s : State) (L : Nat) : (s.mixBlock L).semi2Eff = s.semi2Eff := foldl_keeps (g := State.semi2Eff) (fun t i => t.mixFrame_semi2Eff i) _ _
@[simp] theorem State.mixBlock_dl (s : State) (L : Nat) : (s.mixBlock L).dl = s.dl := foldl_keeps (g := State.dl) (fun t i => t.mixFrame_dl i) _ _
@[simp] theorem State.mixBlock_pending (s : State) (L : Nat) : (s.mixBlock L).pending = s.pending := foldl_keeps (g := State.pending) (fun t i => t.mixFrame_pending i) _ _
@[simp] theorem State.mixBlock_events (s : State) (L : Nat) : (s.mixBlock L).events = s.events := foldl_keeps (g := State.events) (fun t i => t.mixFrame_events i) _ _
@[simp] theorem State.mixBlock_response (s : State) (L : Nat) : (s.mixBlock L).response = s.response := foldl_keeps (g := State.response) (fun t i => t.mixFrame_response i) _ _

end Sys2Proof.Machine
end

