-- ==== Sys2Proof/Laws/Ops.lean ====
section
/-! SUPPORT. What each shared operation can do, said once: the checked command, the phasor file, the clamps,
the parameter latch, the block copy and the mix. -/

namespace Sys2Proof.Machine

/-! ### Checked commands -/

/-- A command with checks goes on: with its error recorded, or with its whole effect. -/
theorem guarded_cases (c : Option ErrCode) (b s : State) :
    (∃ e, c = some e ∧ guarded c b s = .next (s.recordError e)) ∨ (c = none ∧ guarded c b s = .next b) := by
  cases c with
  | none => exact .inr ⟨rfl, rfl⟩
  | some e => exact .inl ⟨e, rfl, rfl⟩

@[simp] theorem guarded_some (e : ErrCode) (b s : State) : guarded (some e) b s = .next (s.recordError e) := rfl

@[simp] theorem guarded_none (b s : State) : guarded none b s = .next b := rfl

theorem notPrepared_eq_none {s : State} : s.notPrepared = none ↔ s.status.prepared = true := by
  unfold State.notPrepared; split <;> simp_all

theorem badLen_eq_none {s : State} {n : Nat} : s.badLen n = none ↔ s.blockLen n ≤ s.blockSize.toNat := by
  unfold State.badLen; split <;> simp_all

theorem badCh_eq_none {s : State} {ch : Nat} : s.badCh ch = none ↔ ch < s.hw.nch := by
  unfold State.badCh; split <;> simp_all

theorem badChIdx_eq_none {s : State} {ch i : Nat} :
    s.badChIdx ch i = none ↔ ch < s.hw.nch ∧ i < s.lastlen.toNat := by
  unfold State.badChIdx; split
  · simp; omega
  · simp; omega

theorem badConfig_eq_none {s : State} {rate bs : Word} :
    s.badConfig rate bs = none ↔ isFinitePos rate = true ∧ 1 ≤ bs.toNat ∧ bs.toNat ≤ s.hw.bmax := by
  have h0 : bs = 0#32 ↔ bs.toNat = 0 := by
    rw [← BitVec.toNat_inj]; rfl
  unfold State.badConfig
  simp only [h0]
  split
  · simp_all
  · split
    · simp_all; omega
    · simp_all; omega

/-! ### The phasor file -/

theorem phasorAt_eq (s : State) (v : Voice) (c : Nat) : s.phasorAt v c = (s.phasors v).getD c ⟨0#32, 0#32⟩ := rfl

theorem phasors_setPhasors_ne (s : State) {v u : Voice} (l : List Phasor) (h : u ≠ v) :
    (s.setPhasors v l).phasors u = s.phasors u := by
  cases v <;> cases u <;> first | rfl | exact absurd rfl h

@[simp] theorem phasors_length_setPh (s : State) (v u : Voice) (c : Nat) (w : Word) :
    ((s.setPh v c w).phasors u).length = (s.phasors u).length := by
  cases v <;> cases u <;> simp [State.setPh, State.setPhasors, State.phasors]

@[simp] theorem phasors_length_setInc (s : State) (v u : Voice) (c : Nat) (w : Word) :
    ((s.setInc v c w).phasors u).length = (s.phasors u).length := by
  cases v <;> cases u <;> simp [State.setInc, State.setPhasors, State.phasors]

@[simp] theorem phasors_length_setIncAll (s : State) (v u : Voice) (w : Word) :
    ((s.setIncAll v w).phasors u).length = (s.phasors u).length := by
  cases v <;> cases u <;> simp [State.setIncAll, State.setPhasors, State.phasors]

theorem phasorAt_setPh_self (s : State) (v : Voice) {c : Nat} (w : Word) (h : c < (s.phasors v).length) :
    (s.setPh v c w).phasorAt v c = ⟨w, (s.phasorAt v c).inc⟩ := by
  cases v <;> simp_all [State.setPh, State.setPhasors, State.phasorAt, State.phasors]

theorem phasorAt_setPh_ne (s : State) {v u : Voice} {c k : Nat} (w : Word) (h : (u, k) ≠ (v, c)) :
    (s.setPh v c w).phasorAt u k = s.phasorAt u k := by
  cases v <;> cases u <;> simp_all [State.setPh, State.setPhasors, State.phasorAt, State.phasors, List.getElem?_set] <;>
    rw [if_neg (Ne.symm h)]

theorem phasorAt_setInc_self (s : State) (v : Voice) {c : Nat} (w : Word) (h : c < (s.phasors v).length) :
    (s.setInc v c w).phasorAt v c = ⟨(s.phasorAt v c).ph, w⟩ := by
  cases v <;> simp_all [State.setInc, State.setPhasors, State.phasorAt, State.phasors]

theorem phasorAt_setInc_ne (s : State) {v u : Voice} {c k : Nat} (w : Word) (h : (u, k) ≠ (v, c)) :
    (s.setInc v c w).phasorAt u k = s.phasorAt u k := by
  cases v <;> cases u <;> simp_all [State.setInc, State.setPhasors, State.phasorAt, State.phasors, List.getElem?_set] <;>
    rw [if_neg (Ne.symm h)]

theorem phasorAt_setIncAll_self (s : State) (v : Voice) {c : Nat} (w : Word) (h : c < (s.phasors v).length) :
    (s.setIncAll v w).phasorAt v c = ⟨(s.phasorAt v c).ph, w⟩ := by
  cases v <;> simp_all [State.setIncAll, State.setPhasors, State.phasorAt, State.phasors]

theorem phasorAt_setIncAll_ne (s : State) {v u : Voice} (c : Nat) (w : Word) (h : u ≠ v) :
    (s.setIncAll v w).phasorAt u c = s.phasorAt u c := by
  cases v <;> cases u <;> first | rfl | exact absurd rfl h

/-- Setting increments moves no phase (R157). -/
theorem ph_setIncAll (s : State) (v u : Voice) (c : Nat) (w : Word) :
    ((s.setIncAll v w).phasorAt u c).ph = (s.phasorAt u c).ph := by
  by_cases h : u = v
  · subst h
    by_cases hc : c < (s.phasors u).length
    · rw [phasorAt_setIncAll_self s u w hc]
    · have h1 : ((s.setIncAll u w).phasors u).length ≤ c := by simpa using not_lt.1 hc
      rw [phasorAt_eq, phasorAt_eq, List.getD_eq_default _ _ h1, List.getD_eq_default _ _ (not_lt.1 hc)]
  · rw [phasorAt_setIncAll_ne s c w h]

@[simp] theorem phasors_length_stepPhase (s : State) (v u : Voice) (c : Nat) :
    ((s.stepPhase v c).phasors u).length = (s.phasors u).length := phasors_length_setPh ..

/-- One phasor step (R151). -/
theorem phasorAt_stepPhase_self (s : State) (v : Voice) {c : Nat} (h : c < (s.phasors v).length) :
    (s.stepPhase v c).phasorAt v c = ⟨(s.phasorAt v c).ph + (s.phasorAt v c).inc, (s.phasorAt v c).inc⟩ :=
  phasorAt_setPh_self s v _ h

theorem phasorAt_stepPhase_ne (s : State) {v u : Voice} {c k : Nat} (h : (u, k) ≠ (v, c)) :
    (s.stepPhase v c).phasorAt u k = s.phasorAt u k := phasorAt_setPh_ne s _ h

@[simp] theorem phasors_length_stepBoth (s : State) (u : Voice) (c : Nat) :
    ((s.stepBoth c).phasors u).length = (s.phasors u).length := by simp [State.stepBoth]

/-- Both voices' steps of one channel (R182). -/
theorem phasorAt_stepBoth_self (s : State) (v : Voice) {c : Nat} (h1 : c < (s.phasors .one).length)
    (h2 : c < (s.phasors .two).length) :
    (s.stepBoth c).phasorAt v c = ⟨(s.phasorAt v c).ph + (s.phasorAt v c).inc, (s.phasorAt v c).inc⟩ := by
  cases v
  · rw [State.stepBoth, phasorAt_stepPhase_ne _ (by simp), phasorAt_stepPhase_self _ _ h1]
  · rw [State.stepBoth, phasorAt_stepPhase_self _ _ (by simpa using h2), phasorAt_stepPhase_ne _ (by simp)]

theorem phasorAt_stepBoth_ne (s : State) (v : Voice) {c k : Nat} (h : k ≠ c) :
    (s.stepBoth c).phasorAt v k = s.phasorAt v k := by
  rw [State.stepBoth, phasorAt_stepPhase_ne _ (by simp [h]), phasorAt_stepPhase_ne _ (by simp [h])]

/-- A grain reads no phasor and no part of the I/O buffer. -/
theorem grain_congr {s t : State} (c i : Nat) (P : Word) (h : t.dl = s.dl ∧ t.widx = s.widx ∧ t.lastlen = s.lastlen ∧
    t.cap = s.cap ∧ t.winSamples = s.winSamples ∧ t.hw = s.hw) : t.grain c i P = s.grain c i P := by
  obtain ⟨h1, h2, h3, h4, h5, h6⟩ := h
  simp only [State.grain, State.interp, State.readSlot, State.dlAt, State.grainInt, State.grainFrac, State.grainD,
    State.env, h1, h2, h3, h4, h5, h6]
  rfl

/-- What one output sample reads (R185): the two phasors of its channel, the delay RAM and the session. -/
theorem mixValue_congr {s t : State} (c i : Nat) (hp : ∀ v, t.phasorAt v c = s.phasorAt v c) (h : t.dl = s.dl ∧
    t.widx = s.widx ∧ t.lastlen = s.lastlen ∧ t.cap = s.cap ∧ t.winSamples = s.winSamples ∧ t.hw = s.hw) :
    t.mixValue c i = s.mixValue c i := by
  have e : ∀ u : State, ((u.stepPhase .one c).phasorAt .two c) = u.phasorAt .two c := fun u =>
    phasorAt_stepPhase_ne u (by simp)
  have g : ∀ P, (t.stepPhase .one c).grain c i P = (s.stepPhase .one c).grain c i P := fun P =>
    grain_congr c i P (by simpa using h)
  simp only [State.mixValue, State.voiceValue, e, g, hp, grain_congr c i _ h]

/-! ### Addresses -/

/-- Different entries of the I/O buffer share no byte. -/
theorem iobufAddr_apart {p : Params} {c i c' i' : Nat} (hi : i < p.bmax) (hi' : i' < p.bmax) (h : (c, i) ≠ (c', i')) :
    iobufAddr p c i + 4 ≤ iobufAddr p c' i' ∨ iobufAddr p c' i' + 4 ≤ iobufAddr p c i := by
  have : c * p.bmax + i ≠ c' * p.bmax + i' := by
    intro he
    rcases lt_trichotomy c c' with hc | rfl | hc
    · have := Nat.mul_le_mul_right p.bmax (Nat.succ_le_of_lt hc)
      rw [Nat.succ_mul] at this; omega
    · exact h (by rw [Nat.add_left_cancel he])
    · have := Nat.mul_le_mul_right p.bmax (Nat.succ_le_of_lt hc)
      rw [Nat.succ_mul] at this; omega
  unfold iobufAddr
  omega

/-- Different slots of the delay RAM share no byte. -/
theorem dlAddr_apart {p : Params} {c k c' k' : Nat} (hk : k < p.nmax) (hk' : k' < p.nmax) (h : (c, k) ≠ (c', k')) :
    dlAddr p c k + 4 ≤ dlAddr p c' k' ∨ dlAddr p c' k' + 4 ≤ dlAddr p c k := by
  have : c * p.nmax + k ≠ c' * p.nmax + k' := by
    intro he
    rcases lt_trichotomy c c' with hc | rfl | hc
    · have := Nat.mul_le_mul_right p.nmax (Nat.succ_le_of_lt hc)
      rw [Nat.succ_mul] at this; omega
    · exact h (by rw [Nat.add_left_cancel he])
    · have := Nat.mul_le_mul_right p.nmax (Nat.succ_le_of_lt hc)
      rw [Nat.succ_mul] at this; omega
  unfold dlAddr
  omega

/-- An entry of the I/O buffer lies in its region (R47). -/
theorem iobufAddr_in {p : Params} {c i : Nat} (hc : c < p.nch) (hi : i < p.bmax) :
    iobufBase ≤ iobufAddr p c i ∧ iobufAddr p c i + 4 ≤ iobufBase + 4 * p.nch * p.bmax := by
  have := Nat.mul_le_mul_right p.bmax (Nat.succ_le_of_lt hc)
  rw [Nat.succ_mul] at this
  unfold iobufAddr
  rw [mul_assoc]
  omega

/-- A slot of the delay RAM lies in it (R48). -/
theorem dlAddr_in {p : Params} {c k : Nat} (hc : c < p.nch) (hk : k < p.nmax) :
    dlAddr p c k + 4 ≤ 4 * p.nch * p.nmax := by
  have := Nat.mul_le_mul_right p.nmax (Nat.succ_le_of_lt hc)
  rw [Nat.succ_mul] at this
  unfold dlAddr
  rw [mul_assoc]
  omega

/-! ### Folds of word writes -/

/-- What a fold of word writes leaves: the canonical form, the listed addresses, and every byte outside the words
written. -/
theorem foldl_writeWord {β : Type} (addr : β → Nat) (w : Memory → β → Word) (l : List β) (m : Memory) :
    (m.wf → (l.foldl (fun m b => m.writeWord (addr b) (w m b)) m).wf) ∧
    (∀ P : Nat → Prop, (∀ b ∈ l, ∀ j < 4, P (addr b + j)) → Memory.KeysIn P m →
      Memory.KeysIn P (l.foldl (fun m b => m.writeWord (addr b) (w m b)) m)) ∧
    ∀ a, (∀ b ∈ l, a < addr b ∨ addr b + 4 ≤ a) →
      (l.foldl (fun m b => m.writeWord (addr b) (w m b)) m).readByte a = m.readByte a := by
  induction l generalizing m with
  | nil => exact ⟨id, fun _ _ h => h, fun _ _ => rfl⟩
  | cons b l ih =>
    obtain ⟨h1, h2, h3⟩ := ih (m.writeWord (addr b) (w m b))
    refine ⟨fun h => h1 (Memory.wf_writeWord h _ _), fun P hP hm => h2 P (fun x hx => hP x (List.mem_cons_of_mem _ hx)) ?_,
      fun a ha => (h3 a fun x hx => ha x (List.mem_cons_of_mem _ hx)).trans ?_⟩
    · exact Memory.keysIn_writeWord (hP b (List.mem_cons_self)) hm
    · exact Memory.readByte_writeWord_ne m _ (ha b List.mem_cons_self)

/-! ### The window bound -/

/-- A bounded window lies in `[1, room]` where there is room (R42, R206). -/
theorem boundWindow_range {ws room : Nat} (h : 1 ≤ room) :
    1 ≤ (boundWindow ws room).1 ∧ (boundWindow ws room).1 ≤ room ∧ (boundWindow ws room).1 = min room (max 1 ws) ∧
      ((boundWindow ws room).2 = true ↔ (boundWindow ws room).1 ≠ ws) := by
  have e : boundWindow ws room = (min room (max 1 ws), decide (min room (max 1 ws) ≠ ws)) := by
    unfold boundWindow
    by_cases h1 : ws < 1
    · obtain rfl : ws = 0 := by omega
      simp only [h1, if_true]
      rw [if_neg (by omega), show min room (max 1 0) = 1 by omega]; rfl
    · simp only [h1, if_false]
      by_cases h2 : room < ws
      · rw [if_pos h2, show min room (max 1 ws) = room by omega]
        simp [show room ≠ ws by omega]
      · rw [if_neg h2, show min room (max 1 ws) = ws by omega]; simp
  rw [e]
  refine ⟨?_, ?_, rfl, by simp⟩ <;> dsimp only <;> omega

/-- The capacity PREPARE takes (R202). -/
theorem capacity_range {nmax bs : Nat} (rate m : Word) (h : bs + 1 ≤ nmax) :
    bs + 1 ≤ (capacity nmax rate bs m).1 ∧ (capacity nmax rate bs m).1 ≤ nmax := by
  simp only [capacity]
  generalize ceilNat _ _ = c
  by_cases h1 : c < bs + 1
  · simp only [h1, if_true]; rw [if_neg (by omega)]; omega
  · simp only [h1, if_false]; split <;> omega

/-! ### The step -/

/-- What a step can do: nothing, a host access, the end of a `wait`, a reset, or the engine's step on the pending
command. -/
theorem step_cases (s : State) :
    (s.events = [] ∧ s.pending = none ∧ step s = .next s) ∨
    (∃ a rest, s.events = .access a :: rest ∧ step s = .next (hostAccess a { s with events := rest })) ∨
    (∃ rest, s.events = .wait :: rest ∧ s.pending = none ∧ step s = .next (pollStatus { s with events := rest })) ∨
    (∃ rest, (s.events = .reset :: rest ∨ ∃ a, s.events = .resetDuring a :: rest) ∧
      step s = .next ({ s with events := rest } : State).afterReset) ∨
    (∃ rest, s.events = .engine :: rest ∧ s.pending = none ∧ step s = .next { s with events := rest }) ∨
    ∃ p rest, s.pending = some p ∧
      (s.events = .engine :: rest ∨ (s.events = [] ∧ rest = []) ∨ (∃ r, s.events = .wait :: r ∧ rest = s.events)) ∧
      step s = engineStep p { s with events := rest } := by
  obtain hp | ⟨p, hp⟩ : s.pending = none ∨ ∃ p, s.pending = some p := by
    cases s.pending with
    | none => exact .inl rfl
    | some p => exact .inr ⟨p, rfl⟩
  · obtain he | ⟨e, rest, he⟩ : s.events = [] ∨ ∃ e rest, s.events = e :: rest := by
      cases s.events with
      | nil => exact .inl rfl
      | cons e r => exact .inr ⟨e, r, rfl⟩
    · exact .inl ⟨he, hp, by simp [step, stepMachine, he, engineTurn, hp]⟩
    · cases e with
      | access a => exact .inr <| .inl ⟨a, rest, he, by simp [step, stepMachine, he, takeEvent]⟩
      | wait => exact .inr <| .inr <| .inl ⟨rest, he, hp, by simp [step, stepMachine, he, takeEvent, State.busy, hp]⟩
      | engine =>
        exact .inr <| .inr <| .inr <| .inr <| .inl ⟨rest, he, hp, by simp [step, stepMachine, he, takeEvent, engineTurn, hp]⟩
      | reset => exact .inr <| .inr <| .inr <| .inl ⟨rest, .inl he, by simp [step, stepMachine, he, takeEvent]⟩
      | resetDuring a =>
        exact .inr <| .inr <| .inr <| .inl ⟨rest, .inr ⟨a, he⟩, by simp [step, stepMachine, he, takeEvent]⟩
  · obtain he | ⟨e, rest, he⟩ : s.events = [] ∨ ∃ e rest, s.events = e :: rest := by
      cases s.events with
      | nil => exact .inl rfl
      | cons e r => exact .inr ⟨e, r, rfl⟩
    · refine .inr <| .inr <| .inr <| .inr <| .inr ⟨p, [], hp, .inr (.inl ⟨he, rfl⟩), ?_⟩
      rw [show ({ s with events := [] } : State) = s from he ▸ rfl]
      simp [step, stepMachine, he, engineTurn, hp]
    · cases e with
      | access a => exact .inr <| .inl ⟨a, rest, he, by simp [step, stepMachine, he, takeEvent]⟩
      | wait =>
        exact .inr <| .inr <| .inr <| .inr <| .inr ⟨p, s.events, hp, .inr (.inr ⟨rest, he, rfl⟩), by
          change step s = engineStep p s
          simp [step, stepMachine, he, takeEvent, State.busy, engineTurn, hp]⟩
      | engine =>
        exact .inr <| .inr <| .inr <| .inr <| .inr ⟨p, rest, hp, .inl he, by
          simp [step, stepMachine, he, takeEvent, engineTurn, hp]⟩
      | reset => exact .inr <| .inr <| .inr <| .inl ⟨rest, .inl he, by simp [step, stepMachine, he, takeEvent]⟩
      | resetDuring a =>
        exact .inr <| .inr <| .inr <| .inl ⟨rest, .inr ⟨a, he⟩, by simp [step, stepMachine, he, takeEvent]⟩

end Sys2Proof.Machine
end

