-- ==== Sys2Proof/Laws/Mixer.lean ====
section
/-! SUPPORT. Everything the block mix can do, for any order of its samples: what it leaves alone, how far each
phasor steps, what each entry of the I/O buffer holds, and which bytes it writes. -/

namespace Sys2Proof.Machine

/-- The mix over samples in a given order: pairs of channel and index. -/
def State.mixOver (s : State) (order : List (Nat × Nat)) : State := order.foldl (fun t x => t.mixInto x.1 x.2) s

/-- The order of R184: sample-outer, channel-inner. -/
def blockOrder (nch L : Nat) : List (Nat × Nat) := (List.range L).flatMap fun i => (List.range nch).map fun c => (c, i)

/-- How many samples of channel `c` an order visits. -/
def visits (order : List (Nat × Nat)) (c : Nat) : Nat := (order.filter fun x => x.1 == c).length

@[simp] theorem mixOver_nil (s : State) : s.mixOver [] = s := rfl

@[simp] theorem mixOver_cons (s : State) (x : Nat × Nat) (l : List (Nat × Nat)) :
    s.mixOver (x :: l) = (s.mixInto x.1 x.2).mixOver l := rfl

theorem mixOver_append (s : State) (l m : List (Nat × Nat)) : s.mixOver (l ++ m) = (s.mixOver l).mixOver m :=
  List.foldl_append

/-- The block mix is the mix in R184's order. -/
theorem mixBlock_eq (s : State) (L : Nat) : s.mixBlock L = s.mixOver (blockOrder s.hw.nch L) := by
  have frame : ∀ (l : List Nat) (i : Nat) (t : State),
      l.foldl (fun t c => t.mixInto c i) t = t.mixOver (l.map fun c => (c, i)) := by
    intro l i
    induction l with
    | nil => exact fun _ => rfl
    | cons c l ih => exact fun t => ih _
  suffices ∀ (l : List Nat) (t : State), t.hw = s.hw →
      l.foldl (fun t i => t.mixFrame i) t = t.mixOver (l.flatMap fun i => (List.range s.hw.nch).map fun c => (c, i)) from
    this _ _ rfl
  intro l
  induction l with
  | nil => exact fun _ _ => rfl
  | cons i l ih =>
    intro t ht
    rw [List.foldl_cons, ih _ (by simpa using ht), List.flatMap_cons, mixOver_append, State.mixFrame, frame, ht]

@[simp] theorem mixOver_hw (s : State) (l : List (Nat × Nat)) : (s.mixOver l).hw = s.hw := by
  induction l generalizing s with
  | nil => rfl
  | cons x l ih => rw [mixOver_cons, ih]; simp

@[simp] theorem mixOver_length (s : State) (u : Voice) (l : List (Nat × Nat)) :
    ((s.mixOver l).phasors u).length = (s.phasors u).length := by
  induction l generalizing s with
  | nil => rfl
  | cons x l ih =>
    rw [mixOver_cons, ih]
    have : (s.mixInto x.1 x.2).phasors u = (s.stepBoth x.1).phasors u := by cases u <;> rfl
    rw [this, phasors_length_stepBoth]

/-- The mix changes the I/O buffer and the phasors, and nothing else (R184, R185). -/
theorem mixOver_frame (s : State) (l : List (Nat × Nat)) :
    s.mixOver l = { s with iobuf := (s.mixOver l).iobuf, phasors1 := (s.mixOver l).phasors1, phasors2 := (s.mixOver l).phasors2 } := by
  induction l generalizing s with
  | nil => rfl
  | cons x l ih => rw [mixOver_cons, ih]; rfl

/-- Each visit steps the two phasors of its channel once (R184 (b)). -/
theorem phasorAt_mixOver (s : State) (l : List (Nat × Nat)) (v : Voice) {c : Nat} (h1 : c < s.phasors1.length)
    (h2 : c < s.phasors2.length) :
    (s.mixOver l).phasorAt v c =
      ⟨(s.phasorAt v c).ph + BitVec.ofNat 32 (visits l c) * (s.phasorAt v c).inc, (s.phasorAt v c).inc⟩ := by
  induction l generalizing s with
  | nil => simp [visits]
  | cons x l ih =>
    have e : (s.mixInto x.1 x.2).phasorAt v c = (s.stepBoth x.1).phasorAt v c := by cases v <;> rfl
    rw [mixOver_cons, ih _ (by have := phasors_length_stepBoth s .one x.1; exact this ▸ h1)
      (by have := phasors_length_stepBoth s .two x.1; exact this ▸ h2), e]
    by_cases hx : x.1 = c
    · subst hx
      rw [phasorAt_stepBoth_self s v h1 h2]
      have hv : visits (x :: l) x.1 = visits l x.1 + 1 := by simp [visits]
      rw [hv]
      congr 1
      rw [BitVec.ofNat_add, BitVec.add_mul, BitVec.add_assoc]
      congr 1
      rw [BitVec.add_comm]; congr 1; exact (BitVec.one_mul _).symm
    · rw [phasorAt_stepBoth_ne s v (Ne.symm hx)]
      have hv : visits (x :: l) c = visits l c := by simp [visits, hx]
      rw [hv]

/-- Steps of one channel, repeated. -/
theorem phasorAt_steps (s : State) (v : Voice) (k : Nat) {c : Nat} (h1 : c < s.phasors1.length)
    (h2 : c < s.phasors2.length) :
    ((fun x : State => x.stepBoth c)^[k] s).phasorAt v c =
      ⟨(s.phasorAt v c).ph + BitVec.ofNat 32 k * (s.phasorAt v c).inc, (s.phasorAt v c).inc⟩ := by
  induction k generalizing s with
  | zero => simp
  | succ k ih =>
    rw [Function.iterate_succ_apply, ih _ (by have := phasors_length_stepBoth s .one c; exact this ▸ h1)
      (by have := phasors_length_stepBoth s .two c; exact this ▸ h2), phasorAt_stepBoth_self s v h1 h2]
    congr 1
    rw [BitVec.ofNat_add, BitVec.add_mul, BitVec.add_assoc]
    congr 1
    rw [BitVec.add_comm]; congr 1; exact (BitVec.one_mul _).symm

/-- Steps change the phasors and nothing else. -/
theorem steps_frame (s : State) (c k : Nat) :
    let t := (fun x : State => x.stepBoth c)^[k] s
    t = { s with phasors1 := t.phasors1, phasors2 := t.phasors2 } := by
  induction k generalizing s with
  | zero => rfl
  | succ k ih => simp only [Function.iterate_succ_apply]; rw [ih]; rfl

/-- The mix keeps the I/O buffer's canonical form. -/
theorem wf_mixOver {s : State} (h : s.iobuf.wf) (l : List (Nat × Nat)) : (s.mixOver l).iobuf.wf := by
  induction l generalizing s with
  | nil => exact h
  | cons x l ih => exact ih (Memory.wf_writeWord h _ _)

/-- The mix lists bytes of the entries it visits, and those listed before. -/
theorem keysIn_mixOver {P : Nat → Prop} {s : State} (h : Memory.KeysIn P s.iobuf) {l : List (Nat × Nat)}
    (hl : ∀ x ∈ l, ∀ j < 4, P (iobufAddr s.hw x.1 x.2 + j)) : Memory.KeysIn P (s.mixOver l).iobuf := by
  induction l generalizing s with
  | nil => exact h
  | cons x l ih =>
    exact ih (Memory.keysIn_writeWord (hl x List.mem_cons_self) h) fun y hy => hl y (List.mem_cons_of_mem _ hy)

/-- A byte outside the entries visited reads as before (R184 (c)). -/
theorem readByte_mixOver (s : State) {l : List (Nat × Nat)} {a : Nat}
    (h : ∀ x ∈ l, a < iobufAddr s.hw x.1 x.2 ∨ iobufAddr s.hw x.1 x.2 + 4 ≤ a) :
    (s.mixOver l).iobuf.readByte a = s.iobuf.readByte a := by
  induction l generalizing s with
  | nil => rfl
  | cons x l ih =>
    refine (ih (s.mixInto x.1 x.2) ?_).trans (Memory.readByte_writeWord_ne _ _ (h x List.mem_cons_self))
    rw [State.mixInto_hw]
    exact fun y hy => h y (List.mem_cons_of_mem _ hy)

/-- An entry visited once holds the sample mixed when its turn came. -/
theorem iobufAt_mixOver {s : State} (hw : s.iobuf.wf) (l m : List (Nat × Nat)) (c k : Nat) (hk : k < s.hw.bmax)
    (hm : ∀ x ∈ m, x.2 < s.hw.bmax ∧ x ≠ (c, k)) :
    (s.mixOver (l ++ (c, k) :: m)).iobufAt c k = (s.mixOver l).mixValue c k := by
  rw [mixOver_append, mixOver_cons]
  generalize ht : s.mixOver l = t
  have htw : t.iobuf.wf := ht ▸ wf_mixOver hw l
  have hth : t.hw = s.hw := by rw [← ht, mixOver_hw]
  have keep : ∀ (u : State), u.hw = s.hw → (∀ x ∈ m, x.2 < s.hw.bmax ∧ x ≠ (c, k)) →
      (u.mixOver m).iobufAt c k = u.iobufAt c k := by
    intro u hu hm
    induction m generalizing u with
    | nil => rfl
    | cons x m ih =>
      have hx := hm x List.mem_cons_self
      rw [mixOver_cons, ih (fun y hy => hm y (List.mem_cons_of_mem _ hy)) (u.mixInto x.1 x.2) (by simpa using hu)
        fun y hy => hm y (List.mem_cons_of_mem _ hy)]
      unfold State.iobufAt
      have := iobufAddr_apart (p := s.hw) hk hx.1 (c := c) (c' := x.1) (by rintro h; exact hx.2 h.symm)
      rw [State.mixInto_hw, hu]
      change Memory.readWord ((u.iobuf).writeWord (iobufAddr u.hw x.1 x.2) _) _ = _
      rw [hu]
      exact Memory.readWord_writeWord_ne _ _ (by omega)
  rw [keep _ (by simpa using hth) hm]
  unfold State.iobufAt
  rw [State.mixInto_hw]
  exact Memory.readWord_writeWord_self htw _ _

/-- What was mixed at a turn depends on how often the channel was visited before, and on nothing else (R185). -/
theorem mixValue_mixOver (s : State) (l : List (Nat × Nat)) (i : Nat) {c : Nat} (h1 : c < s.phasors1.length)
    (h2 : c < s.phasors2.length) :
    (s.mixOver l).mixValue c i = ((fun x : State => x.stepBoth c)^[visits l c] s).mixValue c i := by
  have hf := mixOver_frame s l
  have hg := steps_frame s c (visits l c)
  apply mixValue_congr
  · intro v
    rw [phasorAt_mixOver s l v h1 h2, phasorAt_steps s v _ h1 h2]
  · rw [hf, hg]
    exact ⟨rfl, rfl, rfl, rfl, rfl, rfl⟩

/-- R184's order visits each channel's samples once each, in increasing order. -/
theorem blockOrder_channel (nch L : Nat) {c : Nat} (h : c < nch) :
    ((blockOrder nch L).filter fun x => x.1 == c).map Prod.snd = List.range L := by
  have one : ∀ i, ((List.range nch).map fun c => (c, i)).filter (fun x : Nat × Nat => x.1 == c) = [(c, i)] := by
    intro i
    rw [List.filter_map]
    have : (List.range nch).filter ((fun x : Nat × Nat => x.1 == c) ∘ fun c => (c, i)) = [c] := by
      have hd := List.nodup_range (n := nch)
      have e : ((fun x : Nat × Nat => x.1 == c) ∘ fun c => (c, i)) = fun d => d == c := rfl
      rw [e, List.filter_beq, List.count_eq_one_of_mem hd (List.mem_range.2 h)]
      rfl
    rw [this]; rfl
  unfold blockOrder
  rw [List.filter_flatMap]
  simp only [one]
  induction List.range L with
  | nil => rfl
  | cons i l ih => rw [List.flatMap_cons, List.map_append, ih]; rfl

end Sys2Proof.Machine
end

