-- ==== Sys2Proof/Laws/Invariant.lean ====
section
/-! SUPPORT. What each shared operation does to the invariant: recording an error, the parameter latch, the block
write, the mix, and the host's accesses keep it. -/

namespace Sys2Proof.Laws

open Sys2Proof.Machine

/-- A state that agrees with one in the invariant on the parameters, the file's lengths and `PREPARED` is in it if its stores, its
error fields and its session are. -/
theorem inv_of {s t : State} (h : s.Inv) (hw : t.hw = s.hw) (st : t.StoresOk) (e : t.status.ErrOk)
  (pr : t.status.prepared = s.status.prepared) (l1 : t.phasors1.length = s.phasors1.length) (l2 : t.phasors2.length = s.phasors2.length)
  (ses : s.status.prepared = true → t.SessionOk) (bl : s.status.prepared = false → t.SessionBlank) : t.Inv :=
  ⟨hw ▸ h.params, by rw [l1, hw, h.file1], by rw [l2, hw, h.file2], st, e, fun hp => ses (pr ▸ hp), fun hp => bl (pr ▸ hp)⟩

/-- Recording an error keeps `ERRCODE` in step with `ERR`. -/
theorem errOk_record {t : Status} (h : t.ErrOk)
    (e : ErrCode) : ({t with errcode := if t.err then t.errcode else e.code, err := true} : Status).ErrOk := by
  constructor
  · constructor
    · intro h; cases h
    · intro h2
      dsimp only at h2
      by_cases he : t.err = true
      · rw [if_pos he] at h2; have := h.zero.2 h2; simp [he] at this
      · rw [if_neg he] at h2; cases e <;> simp [ErrCode.code] at h2
  · dsimp only; split
    · exact h.known
    · cases e <;> decide

theorem inv_recordError {s : State} (h : s.Inv) (e : ErrCode) : (s.recordError e).Inv :=
  inv_of h rfl ⟨h.stores.iobufWf, h.stores.iobufIn, h.stores.dlWf, h.stores.dlIn⟩ (errOk_record h.errors e) rfl rfl rfl
   (fun hp => let q := h.session hp; ⟨q.rate, q.blockPos, q.blockMax, q.capMin, q.capMax, q.index, q.last, q.winMin, q.winMax⟩)
   (fun hp => let q := h.blank hp; ⟨q.session, q.latched, q.phases, q.count⟩)

theorem errOk_of {t u : Status} (h : t.ErrOk) (h1 : u.err = t.err) (h2 : u.errcode = t.errcode) : u.ErrOk := by
  constructor
  · rw [h1, h2]; exact h.zero
  · rw [h2]; exact h.known

theorem phasors_length_latchVoice (s : State)
    (f v ms se u) : ((s.latchVoice f v ms se).phasors u).length = (s.phasors u).length := by
  unfold State.latchVoice; split
  · simp only [State.retune, phasors_length_setIncAll]; cases v <;> cases u <;> rfl
  · rfl

/-- The latch puts a window into a session that has a rate, a block size, a capacity and indices in range. -/
theorem inv_applyParams {s : State} (f : Bool) (hp : s.hw.legal = true) (f1 : s.phasors1.length = s.hw.nch)
    (f2 : s.phasors2.length = s.hw.nch)
  (st : s.StoresOk) (er : s.status.ErrOk) (pr : s.status.prepared = true)
  (rate : isFinitePos s.sr = true) (bp : 1 ≤ s.blockSize.toNat) (bm : s.blockSize.toNat ≤ s.hw.bmax) (cm : s.blockSize.toNat + 1 ≤ s.cap.toNat)
  (cM : s.cap.toNat ≤ s.hw.nmax) (ix : s.widx.toNat < s.cap.toNat) (la : s.lastlen.toNat ≤ s.blockSize.toNat) : (s.applyParams f).Inv := by
  have hroom : 1 ≤ s.room := by unfold State.room; omega
  obtain ⟨b1, b2, -, -⟩ := boundWindow_range (ws := windowRaw s.msIn.1 s.sr) hroom
  have hcap := s.cap.isLt
  have hw : (BitVec.ofNat 32 s.windowIn.1).toNat = s.windowIn.1 := by
    rw [BitVec.toNat_ofNat, Nat.mod_eq_of_lt]; unfold State.windowIn; unfold State.room at *; omega
  constructor
  · simpa using hp
  · have h1 := phasors_length_latchVoice (s.latchVoice f .one s.msIn.1 (s.semiIn .one).1) f .two s.msIn.1 (s.semiIn .two).1 .one
    replace h1 := h1.trans (phasors_length_latchVoice _ _ _ _ _ _)
    have hw' : (s.applyParams f).hw = s.hw := by simp
    rw [hw']; exact h1.trans f1
  · have h1 := phasors_length_latchVoice (s.latchVoice f .one s.msIn.1 (s.semiIn .one).1) f .two s.msIn.1 (s.semiIn .two).1 .two
    replace h1 := h1.trans (phasors_length_latchVoice _ _ _ _ _ _)
    have hw' : (s.applyParams f).hw = s.hw := by simp
    rw [hw']; exact h1.trans f2
  · exact ⟨by simpa using st.iobufWf, by simpa using st.iobufIn, by simpa using st.dlWf, by simpa using st.dlIn⟩
  · exact errOk_of er rfl rfl
  · intro _
    refine ⟨by simpa using rate, by simpa using bp, by simpa using bm, by simpa using cm, by simpa using cM, by simpa using ix, by simpa using la, ?_, ?_⟩
    · show 1 ≤ (BitVec.ofNat 32 s.windowIn.1).toNat
      rw [hw]; exact b1
    · show (BitVec.ofNat 32 s.windowIn.1).toNat ≤ (s.applyParams f).cap.toNat - (s.applyParams f).blockSize.toNat
      rw [hw]; simp only [State.applyParams_cap, State.applyParams_blockSize]; exact b2
  · intro h; simp [State.applyParams, Status.noteParams, pr] at h

/-- The block copy stays in the delay RAM and in canonical form. -/
theorem copyBlock_ok (s : State) (L : Nat) (h : s.Inv) (hp : s.status.prepared = true) :
   (s.copyBlock L).wf ∧ ∀ x ∈ s.copyBlock L, x.1 < 4 * s.hw.nch * s.hw.nmax := by
  have hs := h.session hp
  have inner : ∀ c < s.hw.nch, ∀ m : Memory, (m.wf ∧ Memory.KeysIn (· < 4 * s.hw.nch * s.hw.nmax) m) →
     ((s.copyChannel L c m).wf ∧ Memory.KeysIn (· < 4 * s.hw.nch * s.hw.nmax) (s.copyChannel L c m)) := by
    intro c hc m ⟨h1, h2⟩
    obtain ⟨a, b, -⟩ := foldl_writeWord (fun k => dlAddr s.hw c (s.writeSlot k)) (fun _ k => s.iobufAt c k) (List.range L) m
    refine ⟨a h1, b _ (fun k _ j hj => ?_) h2⟩
    have : s.writeSlot k < s.hw.nmax := lt_of_lt_of_le (Nat.mod_lt _ (by have := hs.capMin; omega)) hs.capMax
    have := dlAddr_in hc this
    omega
  suffices ∀ l : List Nat, (∀ c ∈ l, c < s.hw.nch) → ∀ m : Memory, (m.wf ∧ Memory.KeysIn (· < 4 * s.hw.nch * s.hw.nmax) m) →
     ((l.foldl (fun m c => s.copyChannel L c m) m).wf ∧ Memory.KeysIn (· < 4 * s.hw.nch * s.hw.nmax) (l.foldl (fun m c => s.copyChannel L c m) m)) from
    this _ (fun c hc => List.mem_range.1 hc) _ ⟨h.stores.dlWf, h.stores.dlIn⟩
  intro l
  induction l with
  | nil => exact fun _ m h => h
  | cons c l ih => intro hl m hm; exact ih (fun d hd => hl d (List.mem_cons_of_mem _ hd)) _ (inner c (hl c List.mem_cons_self) m hm)

/-- The block write keeps the invariant. -/
theorem inv_writeBlock {s : State} (L : Nat) (h : s.Inv) (hp : s.status.prepared = true)
    (hL : L ≤ s.blockSize.toNat) : (s.writeBlock L).Inv := by
  have hs := h.session hp
  obtain ⟨w1, w2⟩ := copyBlock_ok s L h hp
  refine inv_of h rfl ⟨h.stores.iobufWf, h.stores.iobufIn, w1, w2⟩ h.errors rfl rfl rfl (fun _ => ?_) (fun hh => by simp [hp] at hh)
  have hb := s.blockSize.isLt
  have hc := s.cap.isLt
  have hm : (s.widx.toNat + L) % s.cap.toNat < s.cap.toNat := Nat.mod_lt _ (by have := hs.capMin; omega)
  refine ⟨hs.rate, hs.blockPos, hs.blockMax, hs.capMin, hs.capMax, ?_, ?_, hs.winMin, hs.winMax⟩
  · show (BitVec.ofNat 32 _).toNat < _
    rw [BitVec.toNat_ofNat]; exact lt_of_le_of_lt (Nat.mod_le _ _) hm
  · show (BitVec.ofNat 32 _).toNat ≤ _
    rw [BitVec.toNat_ofNat]; exact le_trans (Nat.mod_le _ _) hL

/-- A command that writes phasors, results, the I/O buffer or flags keeps the invariant if those parts do. -/
theorem inv_streams {s t : State} (h : s.Inv) (hp : s.status.prepared = true)
    (l : ∀ u, (t.phasors u).length = (s.phasors u).length)
  (e : t = {s with phasors1 := t.phasors1, phasors2 := t.phasors2, res0 := t.res0, res1 := t.res1, res2 := t.res2, blkcnt := t.blkcnt, iobuf := t.iobuf, status := t.status})
  (i1 : t.iobuf.wf) (i2 : ∀ x ∈ t.iobuf, iobufBase ≤ x.1 ∧ x.1 < iobufBase + 4 * s.hw.nch * s.hw.bmax)
  (er : t.status.ErrOk) (hp' : t.status.prepared = true): t.Inv := by
  have q := h.session hp
  have l1 := l .one; have l2 := l .two
  refine inv_of h (by rw [e]) ⟨i1, ?_, ?_, ?_⟩ er (hp'.trans hp.symm) l1 l2 ?_ (fun hh => by simp [hp] at hh)
  · rw [show t.hw = s.hw by rw [e]]; exact i2
  · rw [show t.dl = s.dl by rw [e]]; exact h.stores.dlWf
  · rw [show t.hw = s.hw by rw [e], show t.dl = s.dl by rw [e]]; exact h.stores.dlIn
  · intro _; rw [e]; exact ⟨q.rate, q.blockPos, q.blockMax, q.capMin, q.capMax, q.index, q.last, q.winMin, q.winMax⟩

/-- The mix keeps the invariant. -/
theorem inv_mixBlock {u : State} (h2 : u.Inv) (hp : u.status.prepared = true) (L : Nat)
    (hL : L ≤ u.hw.bmax) : (u.mixBlock L).countBlock.Inv := by
  rw [mixBlock_eq]
  have hf := mixOver_frame u (blockOrder u.hw.nch L)
  have l1 := mixOver_length u .one (blockOrder u.hw.nch L)
  have l2 := mixOver_length u .two (blockOrder u.hw.nch L)
  have w := wf_mixOver (s := u) h2.stores.iobufWf (blockOrder u.hw.nch L)
  have kk := keysIn_mixOver (s := u) (l := blockOrder u.hw.nch L) (P := fun a => iobufBase ≤ a ∧ a < iobufBase + 4 * u.hw.nch * u.hw.bmax) h2.stores.iobufIn (by
    intro x hx j hj
    simp only [blockOrder, List.mem_flatMap, List.mem_map, List.mem_range] at hx
    obtain ⟨k, hk, c, hc, rfl⟩ := hx
    have := iobufAddr_in (p := u.hw) hc (show k < u.hw.bmax by omega)
    obtain ⟨a1, a2⟩ := this
    dsimp only; omega)
  generalize u.mixOver (blockOrder u.hw.nch L) = t at *
  refine inv_streams (t := t.countBlock) h2 hp ?_ ?_ w kk ?_ ?_
  · intro v; cases v
    · exact l1
    · exact l2
  · unfold State.countBlock; rw [hf]
  · unfold State.countBlock; rw [hf]; exact h2.errors
  · unfold State.countBlock; rw [hf]; exact hp

theorem applyParams_prepared (s : State) : (s.applyParams false).status.prepared = s.status.prepared := by simp [State.applyParams, Status.noteParams]
theorem applyParams_block (s : State) : (s.applyParams false).blockSize = s.blockSize := by simp
theorem applyParams_params (s : State) : (s.applyParams false).hw = s.hw := by simp

/-- The parameter latch keeps the invariant in a prepared session. -/
theorem inv_latch {s : State} (h : s.Inv) (hp : s.status.prepared = true) : (s.applyParams false).Inv := by
  have q := h.session hp
  exact inv_applyParams false h.params h.file1 h.file2 h.stores h.errors hp q.rate q.blockPos q.blockMax q.capMin q.capMax q.index q.last
/-- The block write and the mix keep the invariant. -/
theorem inv_writeMix {u : State} (h : u.Inv) (hp : u.status.prepared = true) (L : Nat) (hL : L ≤ u.blockSize.toNat) :
    (((u.writeBlock L).mixBlock L).countBlock).Inv :=
  inv_mixBlock (inv_writeBlock L h hp hL) hp L (hL.trans (h.session hp).blockMax)

theorem processBlock_eq (s : State) (L : Nat) :
    s.processBlock L = (((s.applyParams false).writeBlock L).mixBlock L).countBlock := rfl

/-- PROCESS's effect keeps the invariant. -/
theorem inv_processBlock (s : State) (h : s.Inv) (hp : s.status.prepared = true) (L : Nat)
    (hL : L ≤ s.blockSize.toNat) : (s.processBlock L).Inv := by
  rw [processBlock_eq]
  have h1 := inv_latch h hp
  have hp1 := (applyParams_prepared s).trans hp
  have e := applyParams_block s
  generalize s.applyParams false = u at h1 hp1 e ⊢
  exact inv_writeMix h1 hp1 L (e ▸ hL)

/-- What the host or the handshake writes outside the session keeps the invariant if the buffer and the error fields do. -/
theorem inv_host_fields {s t : State} (h : s.Inv) (e : t = {s with args := t.args, irqEn := t.irqEn, windowMs := t.windowMs, semi1 := t.semi1, semi2 := t.semi2, pending := t.pending, events := t.events, response := t.response, status := t.status, iobuf := t.iobuf})
   (i1 : t.iobuf.wf) (i2 : ∀ x ∈ t.iobuf, iobufBase ≤ x.1 ∧ x.1 < iobufBase + 4 * s.hw.nch * s.hw.bmax)
   (er : t.status.ErrOk) (hp : t.status.prepared = s.status.prepared) : t.Inv := by
  refine inv_of h (by rw [e]) ⟨i1, ?_, ?_, ?_⟩ er hp (by rw [e]) (by rw [e]) (fun hp => ?_) (fun hp => ?_)
  · rw [show t.hw = s.hw by rw [e]]; exact i2
  · rw [show t.dl = s.dl by rw [e]]; exact h.stores.dlWf
  · rw [show t.hw = s.hw by rw [e], show t.dl = s.dl by rw [e]]; exact h.stores.dlIn
  · rw [e]; let q := h.session hp; exact ⟨q.rate, q.blockPos, q.blockMax, q.capMin, q.capMax, q.index, q.last, q.winMin, q.winMax⟩
  · rw [e]; let q := h.blank hp; exact ⟨q.session, q.latched, q.phases, q.count⟩

/-- A host write keeps the invariant. -/
theorem inv_writeLoc {s : State} {off : Nat} (h : s.Inv) (l : Loc) (hl : s.target off 4 = .ok l)
    (w : Word) : (s.writeLoc w l).Inv := by
  have ioW := h.stores.iobufWf
  have ioK := h.stores.iobufIn
  cases l with
  | reg r =>
    cases r <;> first
      | exact h
      | exact inv_host_fields h rfl ioW ioK h.errors rfl
      | (refine inv_host_fields h rfl ioW ioK ?_ ?_
         · simp only [State.writeLoc, State.writeReg, Status.hostWrite, Status.clearError]
           split
           · exact ⟨by simp, by simp⟩
           · exact errOk_of h.errors rfl rfl
         · simp only [State.writeLoc, State.writeReg, Status.hostWrite, Status.clearError]; split <;> rfl)
      | (simp only [State.writeLoc, State.writeReg, State.issue]
         split
         · exact inv_recordError h _
         · exact inv_host_fields h rfl ioW ioK (errOk_of h.errors rfl rfl) rfl)
  | ph v c => exact h
  | inc v c => exact h
  | buffer off' =>
    refine inv_host_fields h rfl (Memory.wf_writeWord ioW _ _) (Memory.keysIn_writeWord (P := fun a => iobufBase ≤ a ∧ a < _) ?_ ioK) h.errors rfl
    simp only [State.target] at hl
    split at hl
    · rename_i h4
      split at hl
      · simp at hl
      · rename_i l' hloc
        split at hl
        · simp at hl
        · injection hl with hl; subst hl
          simp only [locate] at hloc
          split at hloc
          · split at hloc
            · injection hloc with hloc; simp only [phasorLoc] at hloc; split at hloc <;> cases hloc
            · simp at hloc
          · split at hloc
            · split at hloc
              · rename_i hlt
                injection hloc with hloc; injection hloc with hloc; subst hloc
                intro j hj
                have : 4 * s.hw.nch * s.hw.bmax = 4 * (s.hw.nch * s.hw.bmax) := by ring
                unfold iobufBase at *
                omega
              · simp at hloc
            · simp at hloc
    · simp at hl

/-- A host access keeps the invariant. -/
theorem inv_hostAccess {s : State} (h : s.Inv) (a : Access) : (hostAccess a s).Inv := by
  cases a with
  | read off size =>
    simp only [hostAccess]; split <;> exact inv_host_fields h rfl h.stores.iobufWf h.stores.iobufIn h.errors rfl
  | write off size w =>
    simp only [hostAccess]
    split
    · rename_i t ht
      have : t.Inv := by
        simp only [memWrite] at ht
        split at ht
        · rename_i l hl
          injection ht with ht; subst ht
          have h4 : size = 4 := by
            simp only [State.target] at hl; split at hl
            · rename_i h; exact h.1
            · simp at hl
          subst h4
          exact inv_writeLoc h l hl w
        · simp at ht
      exact inv_host_fields this rfl this.stores.iobufWf this.stores.iobufIn this.errors rfl
    · exact inv_host_fields h rfl h.stores.iobufWf h.stores.iobufIn h.errors rfl

end Sys2Proof.Laws
end

