-- ==== Sys2Proof/Laws/PerInstr.lean ====
section
/-! SUPPORT. The per-instruction family `RowWord`: the word of every command carries its opcode and matches a
row of R103, with no bit outside the command's own fields set. -/

namespace Sys2Proof.Laws

/-- Each bit of a command word is a bit of its field (R101). -/
theorem cmdWord_bit (opc : Nat) (v : Voice) (ch n i : Nat) :
    (cmdWord opc v ch n).getLsbD i =
      if i < 16 then (BitVec.ofNat 16 n).getLsbD i
      else if i < 20 then (BitVec.ofNat 4 ch).getLsbD (i - 16)
      else if i < 21 then v == .two && i == 20
      else if i < 24 then false else (BitVec.ofNat 8 opc).getLsbD (i - 24) := by
  have e1 : ∀ j, i - 16 - 4 - 1 - 3 = j → i - 24 = j := by omega
  simp only [cmdWord, BitVec.getLsbD_append]
  by_cases h1 : i < 16
  · simp [h1]
  by_cases h2 : i < 20
  · simp [h1, h2, show i - 16 < 4 by omega]
  by_cases h3 : i < 21
  · obtain rfl : i = 20 := by omega
    simp [BitVec.getLsbD_ofBool]
  by_cases h4 : i < 24
  · simp [h1, h2, h3, h4, show ¬ i - 16 < 4 by omega, show ¬ i - 16 - 4 < 1 by omega, show i - 16 - 4 - 1 < 3 by omega]
  · simp [h1, h2, h3, h4, show ¬ i - 16 < 4 by omega, show ¬ i - 16 - 4 < 1 by omega,
      show ¬ i - 16 - 4 - 1 < 3 by omega, e1 _ rfl]

/-- Bit 20 of a command word is `V` (R101). -/
theorem vOf_cmdWord (opc : Nat) (v : Voice) (ch n : Nat) : vOf (cmdWord opc v ch n) = v := by
  rw [vOf, cmdWord_bit]; cases v <;> rfl

/-- Bits 19:16 of a command word are `CH` (R101). -/
theorem chOf_cmdWord (opc : Nat) (v : Voice) {ch : Nat} (n : Nat) (h : ch < 16) :
    chOf (cmdWord opc v ch n) = ch := by
  have e : (cmdWord opc v ch n).extractLsb' 16 4 = BitVec.ofNat 4 ch := by
    apply BitVec.eq_of_getLsbD_eq
    intro i hi
    rw [BitVec.getLsbD_extractLsb', cmdWord_bit, if_neg (by omega), if_pos (by omega)]
    simp [hi]
  rw [chOf, e, BitVec.toNat_ofNat, Nat.mod_eq_of_lt (by omega)]

/-- Bits 15:0 of a command word are `N` (R101). -/
theorem nOf_cmdWord (opc : Nat) (v : Voice) (ch : Nat) {n : Nat} (h : n < 65536) : nOf (cmdWord opc v ch n) = n := by
  have e : (cmdWord opc v ch n).extractLsb' 0 16 = BitVec.ofNat 16 n := by
    apply BitVec.eq_of_getLsbD_eq
    intro i hi
    rw [BitVec.getLsbD_extractLsb', cmdWord_bit, if_pos (by omega)]
    simp [hi]
  rw [nOf, e, BitVec.toNat_ofNat, Nat.mod_eq_of_lt (by omega)]

/-- Bits 31:24 of a command word are `OPC` (R101). -/
theorem opc_cmdWord (opc : Nat) (v : Voice) (ch n : Nat) :
    (cmdWord opc v ch n).extractLsb' 24 8 = BitVec.ofNat 8 opc := by
  apply BitVec.eq_of_getLsbD_eq
  intro i hi
  rw [BitVec.getLsbD_extractLsb', cmdWord_bit, if_neg (by omega), if_neg (by omega), if_neg (by omega),
    if_neg (by omega)]
  simp [hi]

namespace RowWord

/-- The command's word has the command's opcode and matches a row of R103. -/
def Statement (i : Instr) : Prop :=
  (encode i).extractLsb' 24 8 = BitVec.ofNat 8 i.opcode ∧ ∃ r ∈ opRows, (encode i) &&& r.mask = r.bits

theorem nop : Statement .nop := by unfold Statement; decide

theorem prepare : Statement .prepare := by unfold Statement; decide

theorem apply : Statement .apply := by unfold Statement; decide

theorem process (n : Nat) : Statement (.process n) := by
  refine ⟨opc_cmdWord .., opRows[3], by simp [opRows], BitVec.eq_of_getLsbD_eq fun i hi => ?_⟩
  simp only [encode, BitVec.getLsbD_and, cmdWord_bit]
  interval_cases i <;> simp [opRows]

theorem dlWrite (n : Nat) : Statement (.dlWrite n) := by
  refine ⟨opc_cmdWord .., opRows[4], by simp [opRows], BitVec.eq_of_getLsbD_eq fun i hi => ?_⟩
  simp only [encode, BitVec.getLsbD_and, cmdWord_bit]
  interval_cases i <;> simp [opRows]

theorem dlRead (ch i : Nat) : Statement (.dlRead ch i) := by
  refine ⟨opc_cmdWord .., opRows[5], by simp [opRows], BitVec.eq_of_getLsbD_eq fun i hi => ?_⟩
  simp only [encode, BitVec.getLsbD_and, cmdWord_bit]
  interval_cases i <;> simp [opRows]

theorem phSetfreq (v : Voice) (ch : Nat) : Statement (.phSetfreq v ch) := by
  refine ⟨opc_cmdWord .., opRows[6], by simp [opRows], BitVec.eq_of_getLsbD_eq fun i hi => ?_⟩
  simp only [encode, BitVec.getLsbD_and, cmdWord_bit]
  interval_cases i <;> simp [opRows]

theorem phAdvance (v : Voice) (ch : Nat) : Statement (.phAdvance v ch) := by
  refine ⟨opc_cmdWord .., opRows[7], by simp [opRows], BitVec.eq_of_getLsbD_eq fun i hi => ?_⟩
  simp only [encode, BitVec.getLsbD_and, cmdWord_bit]
  interval_cases i <;> simp [opRows]

theorem phReset (v : Voice) (ch : Nat) : Statement (.phReset v ch) := by
  refine ⟨opc_cmdWord .., opRows[8], by simp [opRows], BitVec.eq_of_getLsbD_eq fun i hi => ?_⟩
  simp only [encode, BitVec.getLsbD_and, cmdWord_bit]
  interval_cases i <;> simp [opRows]

theorem grainEval : Statement .grainEval := by unfold Statement; decide

theorem grainRead (ch i : Nat) : Statement (.grainRead ch i) := by
  refine ⟨opc_cmdWord .., opRows[10], by simp [opRows], BitVec.eq_of_getLsbD_eq fun i hi => ?_⟩
  simp only [encode, BitVec.getLsbD_and, cmdWord_bit]
  interval_cases i <;> simp [opRows]

theorem voiceSample (v : Voice) (ch i : Nat) : Statement (.voiceSample v ch i) := by
  refine ⟨opc_cmdWord .., opRows[11], by simp [opRows], BitVec.eq_of_getLsbD_eq fun i hi => ?_⟩
  simp only [encode, BitVec.getLsbD_and, cmdWord_bit]
  interval_cases i <;> simp [opRows]

theorem mixSample (ch i : Nat) : Statement (.mixSample ch i) := by
  refine ⟨opc_cmdWord .., opRows[12], by simp [opRows], BitVec.eq_of_getLsbD_eq fun i hi => ?_⟩
  simp only [encode, BitVec.getLsbD_and, cmdWord_bit]
  interval_cases i <;> simp [opRows]

end RowWord

end Sys2Proof.Laws
end

