-- ==== Sys2Proof/Machine/HostProgram.lean ====
section
/-! DEFINITION. Host programs as the spec writes them (R109, R110) and the host conventions for the source's
control calls (R211 to R214), each as the bus accesses it stands for. -/

namespace Sys2Proof.Machine

/-- The three presets (R213). -/
inductive Preset where
  | perfectFifth
  | weird
  | scary
deriving DecidableEq, Repr

/-- A statement of a host program (R109, R110). A decimal written with the suffix `f` is a fraction. -/
inductive Stmt where
  | sw (off : Nat) (value : Word)
  | lw (off : Nat)
  | cmd (i : Instr)
  | wait
  | doCmd (i : Instr)
  | setwin (num : Int) (den : Nat)
  | settrans (k : Voice) (num : Int) (den : Nat)
  | note (nn : Nat)
  | preset (p : Preset)
  | clr
deriving DecidableEq, Repr

/-- `sw OFF, VALUE` (R109). -/
def swEvent (off : Nat) (value : Word) : Event := .access (.write off 4 value)

/-- `SEMI1` and `SEMI2` of a preset, in that order (R213). -/
def Preset.words : Preset → Word × Word
  | .perfectFifth => (0x00000000#32, 0x40F00000#32)
  | .weird => (0xC1400000#32, 0x41400000#32)
  | .scary => (0x00000000#32, 0xC0D00000#32)

/-- The offset of the transposition register of a voice (R32, R214). -/
def semiOffset : Voice → Nat
  | .one => 0x064
  | .two => 0x068

/-- The word note `nn` writes to both transpositions: `(nn - 60)f` (R212). -/
def noteWord (nn : Nat) : Word := rne32 ((nn : Int) - 60) 1

/-- The host's accesses for one statement (R109, R110, R212 to R214). -/
def Stmt.events : Stmt → List Event
  | .sw off value => [swEvent off value]
  | .lw off => [.access (.read off 4)]
  | .cmd i => [swEvent 0x014 (encode i)]
  | .wait => [.wait]
  | .doCmd i => [swEvent 0x014 (encode i), .wait]
  | .setwin num den => [swEvent 0x060 (rne32 num den)]
  | .settrans k num den => [swEvent (semiOffset k) (rne32 num den)]
  | .note nn => [swEvent 0x064 (noteWord nn), swEvent 0x068 (noteWord nn)]
  | .preset p => [swEvent 0x064 p.words.1, swEvent 0x068 p.words.2]
  | .clr => [swEvent 0x018 0x000000F6#32]

/-- A host program as the block's coming inputs. -/
def State.withProgram (s : State) (p : List Stmt) : State := { s with events := p.flatMap Stmt.events }

end Sys2Proof.Machine
end

