-- ==== Sys2Proof/Tests/Slice0.lean ====
section
/-! SUPPORT. The model's own tests: the ill-formed commands refused, words written out from the spec's encoding,
one step of each command against the spec's worked examples, and a witness of the hypotheses of each statement. -/

open Sys2Proof Sys2Proof.Machine Sys2Proof.Claims

/-- The state with a pending command, the engine next. -/
def Sys2Proof.Machine.State.asked (s : State) (w a0 a1 a2 : Word) : State :=
  { s with pending := some ⟨w, ⟨a0, a1, a2⟩⟩, events := [.engine] }

/-- The state a step gives. -/
def Sys2Proof.Machine.State.stepped (s : State) : State :=
  match step s with
  | .next t => t
  | _ => s

namespace Sys2Proof.Tests

set_option Elab.async false

/-! ### Well-formedness: each check refuses an ill-formed command -/

theorem test_wf_process : (Instr.process 65536).wf = false := by decide

theorem test_wf_dlWrite : (Instr.dlWrite 65536).wf = false := by decide

theorem test_wf_dlRead : (Instr.dlRead 16 0).wf = false ∧ (Instr.dlRead 0 65536).wf = false := by decide

theorem test_wf_phasors : (Instr.phSetfreq .one 16).wf = false ∧ (Instr.phAdvance .two 16).wf = false ∧
    (Instr.phReset .one 16).wf = false := by decide

theorem test_wf_grainRead : (Instr.grainRead 16 0).wf = false ∧ (Instr.grainRead 0 65536).wf = false := by decide

theorem test_wf_voiceSample : (Instr.voiceSample .one 16 0).wf = false ∧ (Instr.voiceSample .two 0 65536).wf = false := by
  decide

theorem test_wf_mixSample : (Instr.mixSample 16 0).wf = false ∧ (Instr.mixSample 0 65536).wf = false := by decide

theorem test_wf_limits : (Instr.voiceSample .two 15 65535).wf = true ∧ (Instr.process 65535).wf = true := by decide

/-! ### Decoding: words written out from R101 and R103 -/

theorem test_decode_nop : decode 0x00000000#32 = .ok .nop := by decide

theorem test_decode_prepare : decode 0x01000000#32 = .ok .prepare := by decide

theorem test_decode_apply : decode 0x02000000#32 = .ok .apply := by decide

/-- OPC 0000_0011, V 0, CH 0000, N 0000_0000_0000_0100. -/
theorem test_decode_process : decode (0b00000011#8 ++ 0b000#3 ++ 0b0#1 ++ 0b0000#4 ++ 0b0000000000000100#16) =
    .ok (.process 4) := by decide

theorem test_decode_dlWrite : decode 0x10001000#32 = .ok (.dlWrite 4096) := by decide

/-- OPC 0001_0001, V 0, CH 1010, N 1000_0000_0000_0001. -/
theorem test_decode_dlRead : decode (0b00010001#8 ++ 0b000#3 ++ 0b0#1 ++ 0b1010#4 ++ 0b1000000000000001#16) =
    .ok (.dlRead 10 32769) := by decide

/-- OPC 0010_0000, V 1, CH 0011, N 0. -/
theorem test_decode_phSetfreq : decode (0b00100000#8 ++ 0b000#3 ++ 0b1#1 ++ 0b0011#4 ++ 0b0000000000000000#16) =
    .ok (.phSetfreq .two 3) := by decide

theorem test_decode_phAdvance : decode 0x21050000#32 = .ok (.phAdvance .one 5) := by decide

theorem test_decode_phReset : decode 0x22100000#32 = .ok (.phReset .two 0) := by decide

theorem test_decode_grainEval : decode 0x30000000#32 = .ok .grainEval := by decide

theorem test_decode_grainRead : decode 0x31010002#32 = .ok (.grainRead 1 2) := by decide

/-- OPC 0100_0000, V 1, CH 1100, N 0000_0000_0001_0000. -/
theorem test_decode_voiceSample : decode (0b01000000#8 ++ 0b000#3 ++ 0b1#1 ++ 0b1100#4 ++ 0b0000000000010000#16) =
    .ok (.voiceSample .two 12 16) := by decide

theorem test_decode_mixSample : decode 0x410F0007#32 = .ok (.mixSample 15 7) := by decide

/-- R104: an unknown opcode; `RSV` set; a `V` given to a command without one; an `N` given to one without one. -/
theorem test_decode_illegal : decode 0x04000000#32 = .error (.unknownOpcode 4) ∧
    decode 0x40200000#32 = .error (.unusedBitSet 0x40) ∧ decode 0x11100000#32 = .error (.unusedBitSet 0x11) ∧
    decode 0x20000001#32 = .error (.unusedBitSet 0x20) := by decide

theorem test_decode_bytes : decodeBytes [0x04#8, 0x00#8, 0x00#8, 0x03#8] = .ok (.process 4) ∧
    decodeBytes [0x04#8, 0x00#8] = .error (.notOneWord 2) ∧ decodeTableWord 32 0x03000004 = some (.process 4) := by decide

/-! ### States -/

/-- Two channels, a delay RAM of 32 samples and a buffer of 8. -/
def demoHw : Params := ⟨2, 32, 8, .default, .default⟩

/-- The samples 1.0 to 16.0. -/
def oneTo16 : List Word :=
  [0x3F800000#32, 0x40000000#32, 0x40400000#32, 0x40800000#32, 0x40A00000#32, 0x40C00000#32, 0x40E00000#32,
   0x41000000#32, 0x41100000#32, 0x41200000#32, 0x41300000#32, 0x41400000#32, 0x41500000#32, 0x41600000#32,
   0x41700000#32, 0x41800000#32]

/-- A memory with the words of a list one after another from address `a`. -/
def wordsAt : Nat → List Word → Memory
  | _, [] => []
  | a, w :: l => (wordsAt (a + 4) l).writeWord a w

/-- The session of R181's example: `CAP = 16`, `WS = 8`, `SR = 1000.0`, blocks of 4, channel 0 holding 1.0 to 16.0,
`WIDX = 0`, `LASTLEN = 4`. -/
def demo : State :=
  { State.resetOf demoHw with
    status := ⟨false, false, true, false, false, false, false, 0#8⟩
    sr := 0x447A0000#32, blockSize := 4#32, cap := 16#32, widx := 0#32, lastlen := 4#32, winSamples := 8#32
    windowMs := 0x41000000#32, msEff := 0x41000000#32
    dl := wordsAt 0 oneTo16 }

/-- The example of R184: one block of 1.0 to 4.0 written, the next, 5.0 to 8.0, in the I/O buffer. -/
def demo2 : State :=
  { demo with dl := wordsAt 0 (oneTo16.take 4), widx := 4#32, iobuf := wordsAt 0x10000 ((oneTo16.drop 4).take 4) }

/-- `demo` with its phasor of voice 0 and channel 0 set. -/
def demoAt (P I : Word) : State := { demo with phasors1 := [⟨P, I⟩, ⟨0#32, 0#32⟩] }

theorem demo_dl_in : ∀ x ∈ wordsAt 0 oneTo16, x.1 < 4 * demoHw.nch * demoHw.nmax := by decide +kernel

theorem demo_dl_wf : (wordsAt 0 oneTo16).wf := by decide +kernel

theorem demo_session : demo.SessionOk :=
  ⟨by decide, by decide, by decide, by decide, by decide, by decide, by decide, by decide, by decide⟩

/-- `demo` meets the invariant, whatever its first phasor, what is pending and what is to come. -/
theorem demo_inv (p : Option Pending) (l : List Event) (P I : Word) :
    ({ demoAt P I with pending := p, events := l } : State).Inv where
  params := (by decide : demoHw.legal = true)
  file1 := rfl
  file2 := rfl
  stores := ⟨Memory.wf_nil, fun _ h => absurd h List.not_mem_nil, demo_dl_wf, demo_dl_in⟩
  errors := (⟨by decide, by decide⟩ : demo.status.ErrOk)
  session _ := ⟨demo_session.rate, demo_session.blockPos, demo_session.blockMax, demo_session.capMin, demo_session.capMax,
    demo_session.index, demo_session.last, demo_session.winMin, demo_session.winMax⟩
  blank h := absurd h Bool.noConfusion

theorem demo_inv0 : demo.Inv := demo_inv none [] 0#32 0#32

/-! ### One step of each command, expected values from the spec's examples -/

/-- R200: `sw CMD, 0x00000000` then the engine step leaves `STATUS = 0x00000002` from reset. -/
theorem test_nop : ((State.reset.withFetchWord 32 0x00000000).stepped).statusWord = 0x00000002#32 := by decide

/-- R201's example. -/
theorem test_prepare :
    let t := (State.reset.asked 0x01000000#32 0x472C4400#32 512#32 0x3F800000#32).stepped
    t.cap = 44100#32 ∧ t.winSamples = 2205#32 ∧ t.msEff = 0x42480000#32 ∧ t.freq1 = 0#32 ∧ t.freq2 = 0#32 ∧
      t.statusWord = 0x0000000A#32 := by decide +kernel

/-- R202's third example: `maxSec = NaN` at 1000.0 Hz gives 1000 with `CLAMP_CAP`. -/
theorem test_prepare_nan :
    let t := (State.reset.asked 0x01000000#32 0x447A0000#32 64#32 0x7FC00000#32).stepped
    t.cap = 1000#32 ∧ t.status.clampCap = true := by decide +kernel

/-- The session of R201's example with `SEMI2 = 7.5`. -/
def demo44 : State :=
  { State.resetOf Params.spec with
    status := ⟨false, false, true, false, false, false, false, 0#8⟩
    sr := 0x472C4400#32, blockSize := 512#32, cap := 44100#32, winSamples := 2205#32, msEff := 0x42480000#32
    semi2 := 0x40F00000#32 }

/-- R204's example. -/
theorem test_apply :
    let t := (demo44.asked 0x02000000#32 0#32 0#32 0#32).stepped
    t.freq2 = 0x412D81E9#32 ∧ (t.phasorAt .two 1).inc = 0x00101D87#32 ∧ t.freq1 = 0#32 ∧
      (t.phasorAt .one 1).inc = 0#32 ∧ t.winSamples = 2205#32 := by decide +kernel

/-- R208's example: 20.0 clamps to 12.0, and the mapping gives 20.0 Hz. -/
theorem test_apply_clamp :
    let t := (({ demo44 with semi1 := 0x41A00000#32 } : State).asked 0x02000000#32 0#32 0#32 0#32).stepped
    t.semi1Eff = 0x41400000#32 ∧ t.freq1 = 0x41A00000#32 ∧ t.status.clampSemi = true := by decide +kernel

/-- R184's example: channel 0 of the second block. -/
theorem test_process :
    let t := (demo2.asked 0x03000004#32 0#32 0#32 0#32).stepped
    [t.iobufAt 0 0, t.iobufAt 0 1, t.iobufAt 0 2, t.iobufAt 0 3] =
      [0x3FB53BEF#32, 0x40353BEF#32, 0x4087ECF3#32, 0x40B53BEF#32] ∧ t.widx = 8#32 ∧ t.blkcnt = 1#32 := by
  decide +kernel

/-- R184: a length above `BLOCK_SIZE` is `E_BLOCK_LEN`, and nothing is processed. -/
theorem test_process_len :
    let t := (demo2.asked 0x03000005#32 0#32 0#32 0#32).stepped
    t.statusWord = 0x0000060E#32 ∧ t.widx = 4#32 ∧ t.blkcnt = 0#32 := by decide +kernel

/-- R131's example: `CAP = 16`, `WIDX = 14`, the samples 1.0 to 4.0. -/
theorem test_dlWrite :
    let t := (({ demo with dl := [], widx := 14#32, iobuf := wordsAt 0x10000 (oneTo16.take 4) } : State).asked
      0x10000004#32 0#32 0#32 0#32).stepped
    [t.dlAt 0 14, t.dlAt 0 15, t.dlAt 0 0, t.dlAt 0 1] = oneTo16.take 4 ∧ t.widx = 2#32 ∧ t.lastlen = 4#32 := by
  decide +kernel

/-- R142's example: 3.0 one sample behind, 5.0 two behind, delay 1.5. -/
theorem test_dlRead :
    ((({ demo with dl := wordsAt 0 [0x40A00000#32, 0x40400000#32, 0#32], widx := 6#32 } : State).asked 0x11000000#32
      0x3FC00000#32 0#32 0#32).stepped).res0 = 0x40800000#32 := by decide +kernel

/-- R142 (c): a delay above `dmax` reads the oldest sample, `CAP - LASTLEN + i = 12` behind 13.0, and sets `CLAMP_DELAY`. -/
theorem test_dlRead_clamp :
    let t := (demo.asked 0x11000000#32 0x42C80000#32 0#32 0#32).stepped
    t.res0 = 0x3F800000#32 ∧ t.statusWord = 0x0000004A#32 := by decide +kernel

/-- R152's example. -/
theorem test_phSetfreq :
    let t := (demo.asked 0x20110000#32 0x42FA0000#32 0#32 0#32).stepped
    (t.phasorAt .two 1).inc = 0x20000000#32 ∧ t.res0 = 0x20000000#32 ∧ (t.phasorAt .one 1).inc = 0#32 := by decide +kernel

/-- R156: 1.5 times the sample rate gives half a cycle, and a negative frequency a negative advance. -/
theorem test_incOf : incOf 0x447A0000#32 0x44BB8000#32 = 0x80000000#32 ∧
    incOf 0x447A0000#32 0xC2FA0000#32 = 0xE0000000#32 := by decide +kernel

/-- R153 (a): the phase wraps upwards. -/
theorem test_phAdvance :
    let t := ((demoAt 0xF0000000#32 0x20000000#32).asked 0x21000000#32 0#32 0#32 0#32).stepped
    t.res0 = 0xF0000000#32 ∧ t.res1 = 0x10000000#32 ∧ (t.phasorAt .one 0).ph = 0x10000000#32 := by decide +kernel

/-- R153 (a): and downwards. -/
theorem test_phAdvance_down :
    ((demoAt 0x10000000#32 0xE0000000#32).asked 0x21000000#32 0#32 0#32 0#32).stepped.res1 = 0xF0000000#32 := by
  decide +kernel

/-- R154's example; the increment stays. -/
theorem test_phReset :
    (((demoAt 0#32 7#32).asked 0x22000000#32 0x40000000#32 0#32 0#32).stepped.phasorAt .one 0) =
      ⟨0x40000000#32, 7#32⟩ := by decide +kernel

/-- R154: a channel at or above `C` is `E_ARG_RANGE`. -/
theorem test_phReset_range :
    (demo.asked 0x22020000#32 0x40000000#32 0#32 0#32).stepped.statusWord = 0x0000070E#32 := by decide +kernel

/-- R174's example. -/
theorem test_grainEval :
    let t := (demo.asked 0x30000000#32 0x40000000#32 0#32 0#32).stepped
    t.res0 = 0x3F3504F3#32 ∧ t.res1 = 6#32 ∧ t.res2 = 0#32 := by decide +kernel

/-- R174 (c): the smallest delay. -/
theorem test_grainEval_last :
    let t := (demo.asked 0x30000000#32 0xFFFFFFFF#32 0#32 0#32).stepped
    t.res1 = 0#32 ∧ t.res2 = 8#32 := by decide +kernel

/-- R175's example: 1.0 two samples behind, phase 0.75. -/
theorem test_grainRead :
    ((({ demo with dl := wordsAt 0 [0x3F800000#32], widx := 6#32 } : State).asked 0x31000000#32 0xC0000000#32 0#32
      0#32).stepped).res0 = 0x3F3504F3#32 := by decide +kernel

/-- R181's example at phase 0. -/
theorem test_voiceSample :
    let t := (demo.asked 0x40000000#32 0#32 0#32 0#32).stepped
    t.res0 = 0x41100000#32 ∧ t.res1 = 0#32 := by decide +kernel

/-- R181's example at phase 0.25. -/
theorem test_voiceSample_quarter :
    let t := ((demoAt 0x40000000#32 0#32).asked 0x40000000#32 0#32 0#32 0#32).stepped
    t.res0 = 0x414BA592#32 ∧ t.res1 = 0x40000000#32 := by decide +kernel

/-- R183's example. -/
theorem test_mixSample : (demo.asked 0x41000000#32 0#32 0#32 0#32).stepped.res0 = 0x414BE36D#32 := by decide +kernel

/-- R183: the index must be below `LASTLEN`. -/
theorem test_mixSample_range : (demo.asked 0x41000004#32 0#32 0#32 0#32).stepped.statusWord = 0x0000070E#32 := by
  decide +kernel

/-! ### The host's side -/

/-- R76, R223: a second `CMD` write while one is pending is refused with `E_BUSY`. -/
theorem test_busy :
    let t := hostAccess (.write 0x014 4 0x02000000#32) (hostAccess (.write 0x014 4 0x00000000#32) demo)
    t.statusWord = 0x0000020D#32 ∧ t.pending = some ⟨0x00000000#32, ⟨0#32, 0#32, 0#32⟩⟩ := by decide +kernel

/-- R74: an access of two bytes, and an offset between the registers. -/
theorem test_bus_error : memRead 0x018 2 demo = .error (.busError 0x018) ∧ memRead 0x03C 4 demo = .error (.busError 0x03C) := by
  decide

/-- R205's examples at `SR = 44100.0`, `CAP = 44100`, `BLOCK_SIZE = 512`. -/
theorem test_msCap : demo44.msCap = 0x447718F6#32 ∧ clampMs 0x447A0000#32 demo44.msCap = (0x43960000#32, true) ∧
    clampMs 0xFF800000#32 demo44.msCap = (0x40A00000#32, true) := by decide +kernel

/-- R206's tie: 5.0 ms at 44100.0 Hz is 221 samples. -/
theorem test_window_tie : windowRaw 0x40A00000#32 0x472C4400#32 = 221 := by decide +kernel

/-- R145: a fraction of exactly 1.0 between `2^30` and 1.0 gives 0.0. -/
theorem test_interp_one :
    add32 0x4E800000#32 (mul32 0x3F800000#32 (sub32 0x3F800000#32 0x4E800000#32)) = 0x00000000#32 := by decide +kernel

/-- R213, R212: a preset is two writes in order, and note 67 writes 7.0. -/
theorem test_preset : Stmt.events (.preset .scary) = [.access (.write 0x064 4 0x00000000#32),
    .access (.write 0x068 4 0xC0D00000#32)] ∧ noteWord 67 = 0x40E00000#32 := by decide +kernel

/-- Reset memory is in canonical form. -/
theorem test_reset_memory : State.reset.iobuf.wf ∧ State.reset.dl.wf := by decide

/-! ### Witnesses: states and operands that meet the hypotheses of each statement -/

theorem val_whole {w : Word} {k : ℤ} (h : units w = k * 2 ^ 149) : val w = k := by
  rw [val, h]; push_cast; exact mul_div_cancel_right₀ _ (by positivity)

theorem val_five : val 0x40A00000#32 = 5 := by simpa using val_whole (w := 0x40A00000#32) (k := 5) (by decide +kernel)

theorem val_twelve : val 0x41400000#32 = 12 := by
  simpa using val_whole (w := 0x41400000#32) (k := 12) (by decide +kernel)

theorem val_thousand : val 0x447A0000#32 = 1000 := by
  simpa using val_whole (w := 0x447A0000#32) (k := 1000) (by decide +kernel)

/-- R11: the overflow threshold itself, a value just inside, and a tie between 2^24 and 2^24 + 2 whose other end is
`0x4B800001`. -/
theorem witness_RoundToNearest :
    (2 ^ 128 - 2 ^ 103 : ℚ) ≤ |((2 ^ 128 - 2 ^ 103 : ℤ) : ℚ) / (1 : ℕ)| ∧ rne32 (2 ^ 128 - 2 ^ 103) 1 = infinity false ∧
    |((2 ^ 128 - 2 ^ 103 - 1 : ℤ) : ℚ) / (1 : ℕ)| < 2 ^ 128 - 2 ^ 103 ∧ isFinite (rne32 (2 ^ 128 - 2 ^ 103 - 1) 1) = true ∧
    isFinite 0x4B800001#32 = true ∧ val 0x4B800001#32 ≠ val (rne32 (2 ^ 24 + 1) 1) ∧
    |val 0x4B800001#32 - ((2 ^ 24 + 1 : ℤ) : ℚ) / (1 : ℕ)| = |val (rne32 (2 ^ 24 + 1) 1) - ((2 ^ 24 + 1 : ℤ) : ℚ) / (1 : ℕ)| := by
  have h1 : val 0x4B800001#32 = 16777218 := by
    simpa using val_whole (w := 0x4B800001#32) (k := 16777218) (by decide +kernel)
  have h2 : rne32 (2 ^ 24 + 1) 1 = 0x4B800000#32 := by decide +kernel
  have h3 : val 0x4B800000#32 = 16777216 := by
    simpa using val_whole (w := 0x4B800000#32) (k := 16777216) (by decide +kernel)
  rw [h2, h1, h3]
  refine ⟨by norm_num, by decide +kernel, by norm_num, by decide +kernel, by decide, by norm_num, ?_⟩
  norm_num [abs_of_pos, abs_of_neg]

/-- R12: one third. -/
theorem witness_RoundTowardZero : 0 < 1 ∧ 0 < 3 ∧ rtz32 1 3 = 0x3EAAAAAA#32 := by decide +kernel

/-- R13: a NaN; two infinities; one; an infinity times zero; a zero sum and a non-zero one; a zero product and a
non-zero one. -/
theorem witness_SampleArithmetic :
    isNaN 0x7FC00001#32 = true ∧ isNaN 0x3F800000#32 = false ∧ isInf 0xFF800000#32 = true ∧ isInf 0x3F800000#32 = false ∧
    isFinite 0x3F800000#32 = true ∧ isFinite 0xBF800000#32 = true ∧
    val 0x3F800000#32 + val 0xBF800000#32 = 0 ∧ ((2 : ℤ) : ℚ) / (1 : ℕ) = val 0x3F800000#32 + val 0x3F800000#32 ∧
    val 0x3F800000#32 + val 0x3F800000#32 ≠ 0 ∧ val 0x3F800000#32 * val 0x80000000#32 = 0 ∧
    ((-1 : ℤ) : ℚ) / (1 : ℕ) = val 0x3F800000#32 * val 0xBF800000#32 ∧ val 0x3F800000#32 * val 0xBF800000#32 ≠ 0 := by
  have h1 : val 0x3F800000#32 = 1 := by simpa using val_whole (w := 0x3F800000#32) (k := 1) (by decide +kernel)
  have h2 : val 0xBF800000#32 = -1 := by simpa using val_whole (w := 0xBF800000#32) (k := -1) (by decide +kernel)
  have h3 : val 0x80000000#32 = 0 := by simpa using val_whole (w := 0x80000000#32) (k := 0) (by decide +kernel)
  rw [h1, h2, h3]
  refine ⟨by decide, by decide, by decide, by decide, by decide, by decide, ?_⟩
  norm_num

/-- R24 and R25: two phases on the rise and half a cycle itself; a negative zero and a custom mapping; the whole range of
transpositions in a window of 50 ms, where both defaults are finite and the exception is far off. -/
theorem witness_Contracts : (1#32 : Word) ≠ 0#32 ∧ (1#32 : Word).toNat ≤ (0x80000000#32 : Word).toNat ∧
    (0x80000000#32 : Word).toNat ≤ 2 ^ 31 ∧ isZero 0x80000000#32 = true ∧ (∃ (f : FnChoice) (k : Nat), f = .custom k) ∧
    isFinite 0xC1400000#32 = true ∧ isFinite 0x41400000#32 = true ∧ |val 0xC1400000#32| ≤ 12 ∧ |val 0x41400000#32| ≤ 12 ∧
    val 0xC1400000#32 ≤ val 0x41400000#32 ∧ isFinitePos 0x42480000#32 = true ∧
    isFinite (mapFreq .default 0xC1400000#32 0x42480000#32) = true ∧
    isFinite (mapFreq .default 0x41400000#32 0x42480000#32) = true ∧ 1000 / val 0x42480000#32 < (2 ^ 128 - 2 ^ 103 : ℚ) := by
  have h : val 0xC1400000#32 = -12 := by simpa using val_whole (w := 0xC1400000#32) (k := -12) (by decide +kernel)
  have h50 : val 0x42480000#32 = 50 := by simpa using val_whole (w := 0x42480000#32) (k := 50) (by decide +kernel)
  rw [h, h50, val_twelve]
  refine ⟨by decide, by decide, by decide, by decide, ⟨.custom 0, 0, rfl⟩, by decide, by decide, ?_, ?_, ?_, by decide,
    by decide +kernel, by decide +kernel, ?_⟩ <;> norm_num

/-- A phase before half a cycle, half a cycle and one after it, and one where the enclosure settles the rounding. -/
theorem witness_DefaultEnvelope : (0x20000000#32 : Word) ≠ 0#32 ∧ (0x80000000#32 : Word) ≠ 0#32 ∧
    (0xFFFFFFFF#32 : Word) ≠ 0#32 ∧ (sinRounded 0x20000000).isSome = true := by decide +kernel

/-- Seven semitones up in a window of 50 ms, where the enclosure settles the rounding. -/
theorem witness_DefaultMapping : isFinite 0x40E00000#32 = true ∧ isZero 0x40E00000#32 = false ∧
    |val 0x40E00000#32| ≤ 12 ∧ isFinitePos 0x42480000#32 = true ∧
    (mapRounded 0x40E00000#32 0x42480000#32).isSome = true := by
  refine ⟨by decide, by decide, ?_, by decide, by decide +kernel⟩
  rw [val, show units 0x40E00000#32 = 7 * 2 ^ 149 by decide]
  norm_num

theorem witness_Encode : (Instr.voiceSample .two 15 65535).wf = true ∧ (Instr.nop).wf = true := by decide

theorem witness_Decode : decode 0x401FFFFF#32 = .ok (.voiceSample .two 15 65535) ∧
    (∃ r ∈ opRows, (0x401FFFFF#32 &&& r.mask) = r.bits) ∧ (∀ r ∈ opRows, (0x05000000#32 &&& r.mask) ≠ r.bits) := by decide

/-- R74: the last register of each group, the last phasor word of the last channel and the last buffer word are legal;
the words after them, a pending command, another size and another alignment are not. -/
theorem witness_HostAccess :
    (memRead 0x038 4 demo).isOk = true ∧ (memRead 0x080 4 demo).isOk = true ∧ (memRead 0x18C 4 demo).isOk = true ∧
    (memRead 0x1003C 4 demo).isOk = true ∧ (memRead 0x03C 4 demo).isOk = false ∧ (memRead 0x084 4 demo).isOk = false ∧
    (memRead 0x190 4 demo).isOk = false ∧ (memRead 0x10040 4 demo).isOk = false ∧
    (memRead 0x10000 4 (demo.asked 0#32 0#32 0#32 0#32)).isOk = false ∧ (memRead 0x018 1 demo).isOk = false ∧
    (memRead 0x01A 4 demo).isOk = false := by decide +kernel

/-- R78: the first and the last buffer word, idle and busy. -/
theorem witness_Buffer : demo.Inv ∧ demo.busy = false ∧ 0x10000 ≤ 0x1003C ∧ 0x1003C % 4 = 0 ∧
    0x1003C < 0x10000 + 4 * demo.hw.nch * demo.hw.bmax ∧ (demo.asked 0#32 0#32 0#32 0#32).Inv ∧
    (demo.asked 0#32 0#32 0#32 0#32).busy = true :=
  ⟨demo_inv0, rfl, by decide, by decide, by decide, demo_inv _ _ 0#32 0#32, rfl⟩

theorem witness_Registers : ∃ t, step demo = .next t := ⟨_, rfl⟩

theorem witness_PhasorFile : demo.hw.legal = true ∧ 1 < demo.hw.nch := by decide

theorem witness_ParameterWrites : ∃ p t, (demo.asked 0#32 0#32 0#32 0#32).pending = some p ∧
    memWrite 0x024 4 7#32 (demo.asked 0#32 0#32 0#32 0#32) = .ok t ∧ 0x024 ∈ [0x060, 0x064, 0x068, 0x024, 0x028, 0x02C] :=
  ⟨_, _, rfl, rfl, by decide⟩

theorem witness_CommandWrite : demo.pending = none ∧ ∃ p, (demo.asked 0#32 0#32 0#32 0#32).pending = some p :=
  ⟨rfl, _, rfl⟩

/-- One erring command for each error of R224, at the first value out of range. -/
theorem witness_Erring :
    commandError .apply State.reset = some .notPrepared ∧
    commandError .prepare (demo.asked 0#32 0x80000000#32 4#32 0#32) = some .cfgSampleRate ∧
    commandError .prepare (demo.asked 0#32 0x447A0000#32 0#32 0#32) = some .cfgBlockSize ∧
    commandError .prepare (demo.asked 0#32 0x447A0000#32 9#32 0#32) = some .cfgBlockSize ∧
    commandError (.process 5) demo = some .blockLen ∧ commandError (.dlRead 2 0) demo = some .argRange ∧
    commandError (.dlRead 1 4) demo = some .argRange ∧ commandError (.phReset .two 2) demo = some .argRange ∧
    (6#32 : Word).getLsbD 2 = true := by decide +kernel

/-- One command without error of each kind, at the last value in range. -/
theorem witness_NoError :
    commandError .nop State.reset = none ∧ commandError .prepare (demo.asked 0#32 0x00000001#32 8#32 0#32) = none ∧
    commandError .apply demo = none ∧ commandError (.process 4) demo = none ∧ commandError (.dlWrite 0) demo = none ∧
    commandError (.mixSample 1 3) demo = none ∧ commandError (.phAdvance .one 1) demo = none := by decide +kernel

theorem witness_Interrupt : demo.pending = none ∧ ∃ t, memWrite 0x014 4 0#32 demo = .ok t := ⟨rfl, _, rfl⟩

/-- A host waiting for the pending word `w`. -/
def waiting (w : Word) : State := { demo with pending := some ⟨w, demo.args⟩, events := [.wait] }

/-- The engine next by its event, with no input to come, and during a wait. -/
theorem witness_Step :
    EngineNext (demo.asked 0x02000000#32 0#32 0#32 0#32) [] ∧
    EngineNext ({ demo with pending := some ⟨0x02000000#32, demo.args⟩ } : State) [] ∧
    EngineNext (waiting 0x02000000#32) [.wait] ∧ (waiting 0x02000000#32).pending = some ⟨0x02000000#32, demo.args⟩ ∧
    decode 0x02000000#32 = .ok .apply ∧ (∃ t, exec .apply { waiting 0x02000000#32 with events := [.wait] } = .next t) ∧
    ∃ t, exec .apply { demo.asked 0x02000000#32 0#32 0#32 0#32 with events := [] } = .next t :=
  ⟨.inl rfl, .inr (.inl ⟨rfl, rfl⟩), .inr (.inr ⟨rfl, ⟨[], rfl⟩, rfl⟩), rfl, by decide, ⟨_, rfl⟩, _, rfl⟩

theorem witness_IllegalWord : demo.pending = none ∧ EngineNext (demo.asked 0x05000000#32 0#32 0#32 0#32) [] ∧
    EngineNext (waiting 0x05000000#32) [.wait] ∧ decode 0x05000000#32 = .error (.unknownOpcode 5) :=
  ⟨rfl, .inl rfl, .inr (.inr ⟨rfl, ⟨[], rfl⟩, rfl⟩), by decide⟩

theorem witness_Wait : ({ demo with events := [.access (.write 0x014 4 0#32), .wait] } : State).pending = none := rfl

theorem witness_ParameterSeen :
    let s := demo.asked 0x02000000#32 0#32 0#32 0#32
    s.status.prepared = true ∧ s.pending = some ⟨0x02000000#32, ⟨0#32, 0#32, 0#32⟩⟩ ∧ decode 0x02000000#32 = .ok .apply ∧
    ({ s with events := [.access (.write 0x064 4 1#32), .engine] } : State).pending = s.pending ∧
    ({ s with events := [.engine, .access (.write 0x064 4 1#32)] } : State).pending = s.pending := by decide

theorem witness_Nop : EngineNext (demo.asked 0#32 0#32 0#32 0#32) [] ∧
    (demo.asked 0#32 0#32 0#32 0#32).pending = some ⟨0x00000000#32, ⟨0#32, 0#32, 0#32⟩⟩ ∧
    EngineNext (waiting 0#32) [.wait] ∧ (waiting 0#32).pending = some ⟨0x00000000#32, demo.args⟩ :=
  ⟨.inl rfl, rfl, .inr (.inr ⟨rfl, ⟨[], rfl⟩, rfl⟩), rfl⟩

/-- The smallest positive sample rate and the largest block. -/
theorem witness_Prepare :
    let s := demo.asked 0x01000000#32 0x00000001#32 8#32 0x3F800000#32
    s.Inv ∧ isFinitePos s.cmdArgs.a0 = true ∧ 1 ≤ s.cmdArgs.a1.toNat ∧ s.cmdArgs.a1.toNat ≤ s.hw.bmax :=
  ⟨demo_inv _ _ 0#32 0#32, by decide, by decide, by decide⟩

/-- A session in which APPLY changes voice 1's transposition and one in which it changes nothing. -/
theorem witness_Apply :
    demo.Inv ∧ demo.status.prepared = true ∧
    (∃ t, exec .apply { demo with semi2 := 0x40F00000#32 } = .next t ∧ t.semiEff .two ≠ demo.semiEff .two) ∧
    ∃ t, exec .apply demo = .next t ∧ t.msEff = demo.msEff ∧ ∀ v, t.semiEff v = demo.semiEff v := by
  refine ⟨demo_inv0, rfl, ⟨_, rfl, by decide +kernel⟩, _, rfl, by decide +kernel, ?_⟩
  intro v; cases v <;> decide +kernel

/-- R205 at `msCap = 12.0`: a NaN, both infinities, a value below 5, one above the room, 5.0 and 12.0 themselves; and at
`msCap = 3.0`, R205's last example. -/
theorem witness_WindowRequest :
    demo.Inv ∧ demo.status.prepared = true ∧ demo.msCap = 0x41400000#32 ∧ (5 : ℚ) ≤ val demo.msCap ∧
    isNaN 0x7FC00000#32 = true ∧ isInf 0xFF800000#32 = true ∧ signBit 0xFF800000#32 = true ∧
    isInf 0x7F800000#32 = true ∧ signBit 0x7F800000#32 = false ∧
    isFinite 0x80000000#32 = true ∧ val 0x80000000#32 < 5 ∧ isFinite 0x447A0000#32 = true ∧
    min (val demo.msCap) 300 < val 0x447A0000#32 ∧ (5 : ℚ) ≤ val 0x40A00000#32 ∧ val 0x41400000#32 ≤ min (val demo.msCap) 300 ∧
    ({ demo with cap := 7#32 } : State).msCap = 0x40400000#32 ∧ val 0x40400000#32 < 5 := by
  have h0 : demo.msCap = 0x41400000#32 := by decide +kernel
  have h1 : val 0x80000000#32 = 0 := by simpa using val_whole (w := 0x80000000#32) (k := 0) (by decide +kernel)
  have h2 : val 0x40400000#32 = 3 := by simpa using val_whole (w := 0x40400000#32) (k := 3) (by decide +kernel)
  refine ⟨demo_inv0, rfl, h0, ?_, by decide, by decide, by decide, by decide, by decide, by decide, ?_, by decide, ?_, ?_,
    ?_, by decide +kernel, ?_⟩
  · rw [h0, val_twelve]; norm_num
  · rw [h1]; norm_num
  · rw [h0, val_twelve, val_thousand]; norm_num
  · rw [val_five]
  · rw [h0, val_twelve]; norm_num
  · rw [h2]; norm_num

theorem witness_Prepared : demo.Inv ∧ demo.status.prepared = true := ⟨demo_inv0, rfl⟩

/-- R207: a NaN, an infinity, just outside both bounds, and the bounds themselves. -/
theorem witness_Transposition : isNaN 0x7FC00000#32 = true ∧ isInf 0xFF800000#32 = true ∧ isFinite 0xC1400001#32 = true ∧
    val 0xC1400001#32 < -12 ∧ 12 < val 0x41400001#32 ∧ (-12 : ℚ) ≤ val 0x41400000#32 ∧ val 0x41400000#32 ≤ 12 := by
  have h : ∀ w, units w * 2 ^ 20 = -(12582913 : ℤ) * 2 ^ 149 → val w < -12 := by
    intro w hw
    rw [val, div_lt_iff₀ (by positivity)]
    have : (units w : ℚ) * 2 ^ 20 = -12582913 * 2 ^ 149 := by exact_mod_cast hw
    nlinarith [pow_pos (show (0 : ℚ) < 2 by norm_num) 149]
  have h' : ∀ w, units w * 2 ^ 20 = (12582913 : ℤ) * 2 ^ 149 → 12 < val w := by
    intro w hw
    rw [val, lt_div_iff₀ (by positivity)]
    have : (units w : ℚ) * 2 ^ 20 = 12582913 * 2 ^ 149 := by exact_mod_cast hw
    nlinarith [pow_pos (show (0 : ℚ) < 2 by norm_num) 149]
  refine ⟨by decide, by decide, by decide, h _ (by decide +kernel), h' _ (by decide +kernel), ?_, ?_⟩ <;> rw [val_twelve]
  norm_num

/-- A block of the default length and one of the whole block size. -/
theorem witness_BlockFits : BlockFits demo 0 4 ∧ BlockFits demo 4 4 ∧ BlockFits demo 1 1 :=
  ⟨⟨demo_inv0, rfl, rfl, by decide⟩, ⟨demo_inv0, rfl, rfl, by decide⟩, ⟨demo_inv0, rfl, rfl, by decide⟩⟩

theorem witness_Indexed : Indexed demo 1 3 ∧ Indexed demo 0 0 :=
  ⟨⟨demo_inv0, rfl, by decide, by decide⟩, ⟨demo_inv0, rfl, by decide, by decide⟩⟩

/-- R140 at `dmax(0) = 12`: each class of operand, `dmax` itself and a value above it. -/
theorem witness_DelayOperand :
    demo.lastlen.toNat ≤ demo.cap.toNat ∧ isNaN 0xFFC00000#32 = true ∧ isZero 0x80000000#32 = true ∧
    isNaN 0xBF800000#32 = false ∧ isZero 0xBF800000#32 = false ∧ signBit 0xBF800000#32 = true ∧
    isInf 0x7F800000#32 = true ∧ signBit 0x7F800000#32 = false ∧ isFinite 0x447A0000#32 = true ∧
    ((demo.cap.toNat - demo.lastlen.toNat + 0 : ℕ) : ℚ) < val 0x447A0000#32 ∧ 0 < val 0x41400000#32 ∧
    val 0x41400000#32 ≤ ((demo.cap.toNat - demo.lastlen.toNat + 0 : ℕ) : ℚ) := by
  have e : demo.cap.toNat - demo.lastlen.toNat + 0 = 12 := by decide
  rw [e, val_twelve, val_thousand]
  refine ⟨by decide, by decide, by decide, by decide, by decide, by decide, by decide, by decide, by decide, ?_⟩
  norm_num

/-- R144 at the deepest delay, 12 behind sample 0. -/
theorem witness_IntegralDelay :
    let s := demo.asked 0x11000000#32 0x41400000#32 0#32 0#32
    Indexed s 0 0 ∧ isFinite s.cmdArgs.a0 = true ∧ val s.cmdArgs.a0 = (12 : ℕ) ∧
      12 ≤ s.cap.toNat - s.lastlen.toNat + 0 :=
  ⟨⟨demo_inv _ _ 0#32 0#32, rfl, by decide, by decide⟩, by decide,
    val_twelve.trans (by norm_num), by decide⟩

theorem witness_ReadBack : BlockFits demo 0 4 ∧ 1 < demo.hw.nch ∧ 3 < 4 ∧ isZero 0x80000000#32 = true :=
  ⟨witness_BlockFits.1, by decide, by decide, by decide⟩

theorem witness_ValidWindow : demo.Inv ∧ demo.status.prepared = true ∧ 3 < demo.lastlen.toNat ∧
    15 ≤ demo.cap.toNat - demo.lastlen.toNat + 3 := ⟨demo_inv0, rfl, by decide, by decide⟩

/-- R155 at 1000.0 Hz: an infinity; a finite frequency; the sample rate itself and one and a half of it. -/
theorem witness_Increment : isFinitePos 0x447A0000#32 = true ∧ isInf 0x7F800000#32 = true ∧ isFinite 0x42FA0000#32 = true ∧
    val 0x447A0000#32 = (1 : ℤ) * val 0x447A0000#32 ∧ val 0x44BB8000#32 = 3 / 2 * val 0x447A0000#32 := by
  have h : val 0x44BB8000#32 = 1500 := by simpa using val_whole (w := 0x44BB8000#32) (k := 1500) (by decide +kernel)
  rw [h, val_thousand]
  refine ⟨by decide, by decide, by decide, ?_⟩
  norm_num

theorem witness_Phasor : demo.Inv ∧ demo.status.prepared = true ∧ 1 < demo.hw.nch ∧ (Voice.two, 1) ≠ (Voice.one, 1) :=
  ⟨demo_inv0, rfl, by decide, by decide⟩

/-- R158's example: an increment of `2^29` and 8 steps. -/
theorem witness_ManySteps : (demoAt 5#32 0x20000000#32).Inv ∧ 0 < demo.hw.nch ∧
    (8 * ((demoAt 5#32 0x20000000#32).phasorAt .one 0).inc.toNat) % 2 ^ 32 = 0 :=
  ⟨demo_inv none [] 5#32 0x20000000#32, by decide, by decide⟩

/-- R176 where the fraction is not zero. -/
theorem witness_GrainWindow : demo.Inv ∧ demo.status.prepared = true ∧ 0 < demo.grainFrac 1#32 ∧
    isZero (fracWord (demo.grainFrac 1#32)) = false := ⟨demo_inv0, rfl, by decide +kernel, by decide +kernel⟩

/-- R185: channel-outer order on a block of two samples. -/
theorem witness_MixOrder : demo.Inv ∧ 2 ≤ demo.hw.bmax ∧ (∀ x ∈ [(0, 0), (0, 1), (1, 0), (1, 1)], x.1 < demo.hw.nch) ∧
    ∀ c < demo.hw.nch,
      (([(0, 0), (0, 1), (1, 0), (1, 1)] : List (Nat × Nat)).filter (fun x => x.1 == c)).map Prod.snd = List.range 2 :=
  ⟨demo_inv0, by decide, by decide, by decide⟩

theorem witness_ProcessNoError :
    let s := demo.asked 0x03000004#32 0#32 0#32 0#32
    s.status.prepared = true ∧ 4 ≤ s.blockSize.toNat ∧ EngineNext s [] ∧
      EngineNext (waiting 0x03000004#32) [.wait] ∧
      s.pending = some ⟨0x03000004#32, ⟨0#32, 0#32, 0#32⟩⟩ ∧ decode 0x03000004#32 = .ok (.process 4) :=
  ⟨rfl, by decide, .inl rfl, .inr (.inr ⟨rfl, ⟨[], rfl⟩, rfl⟩), rfl, by decide⟩

/-- R186 with channel 0 silent and the samples 1.0 to 16.0 in channel 1. -/
theorem witness_SilentRam :
    let s : State := { demo with dl := wordsAt 0x80 oneTo16 }
    s.Inv ∧ s.status.prepared = true ∧ (∀ j < s.cap.toNat, s.dlAt 0 j = 0x00000000#32) ∧ s.dlAt 1 0 = 0x3F800000#32 := by
  have wf : (wordsAt 0x80 oneTo16).wf := by decide +kernel
  have inside : ∀ x ∈ wordsAt 0x80 oneTo16, x.1 < 4 * demoHw.nch * demoHw.nmax := by decide +kernel
  refine ⟨⟨(by decide : demoHw.legal = true), rfl, rfl, ⟨Memory.wf_nil, fun _ h => absurd h List.not_mem_nil, wf, inside⟩,
    (⟨by decide, by decide⟩ : demo.status.ErrOk), fun _ => ?_, fun h => absurd h Bool.noConfusion⟩, rfl, ?_, ?_⟩
  · exact ⟨demo_session.rate, demo_session.blockPos, demo_session.blockMax, demo_session.capMin, demo_session.capMax,
      demo_session.index, demo_session.last, demo_session.winMin, demo_session.winMax⟩
  · exact (by decide +kernel : ∀ j < 16, ({ demo with dl := wordsAt 0x80 oneTo16 } : State).dlAt 0 j = 0x00000000#32)
  · decide +kernel

/-- R187: the example of R181 at unison, with a sample that is not zero, and a silent channel. -/
theorem witness_Unison :
    (∀ v, (demo.phasorAt v 0).ph = 0#32) ∧ demo.winSamples.toNat % 2 = 0 ∧
    isFinite (demo.dlAt 0 (demo.readSlot 0 demo.winSamples.toNat)) = true ∧
    isZero (demo.dlAt 0 (demo.readSlot 0 (demo.winSamples.toNat / 2))) = false ∧
    isZero (demo.dlAt 1 (demo.readSlot 0 (demo.winSamples.toNat / 2))) = true := by
  refine ⟨fun v => by cases v <;> rfl, by decide, by decide +kernel, by decide +kernel, by decide +kernel⟩

theorem witness_Reset : ({ demo with events := [.reset] } : State).events = .reset :: [] := rfl

theorem witness_StepInv : demo.Inv ∧ ∃ t, step demo = .next t := ⟨demo_inv0, _, rfl⟩

/-- The four shapes of command that the frame tells apart, each giving a next state. -/
theorem witness_Frame : (∃ t, exec .nop demo = .next t) ∧ (∃ t, exec .apply demo = .next t) ∧
    (∃ t, exec (.process 4) demo = .next t) ∧ ∃ t, exec .prepare (demo.asked 0#32 0x447A0000#32 4#32 0#32) = .next t :=
  ⟨⟨_, rfl⟩, ⟨_, rfl⟩, ⟨_, rfl⟩, _, rfl⟩

/-- A step that prepares, and one that unprepares. -/
theorem witness_Prepares :
    (∃ t, step (State.reset.asked 0x01000000#32 0x447A0000#32 4#32 0x3F800000#32) = .next t ∧ t.status.prepared = true) ∧
    ∃ t, step ({ demo with events := [.reset] } : State) = .next t ∧ t.status.prepared = false :=
  ⟨⟨_, rfl, by decide +kernel⟩, _, rfl, by decide +kernel⟩

end Sys2Proof.Tests
end

section
/-! PROOF. The roundings to binary32 and the sample arithmetic (R11, R12, R13): the rules about single words, then the
three obligations of 00_scope.md. -/

namespace Sys2Proof.Proofs

open Sys2Proof.Machine Sys2Proof.Laws

/-! ### Rounding to nearest (R11) -/

/-- The rounding takes its sign from the rational, a result that is zero included. -/
theorem signBit_rne32 {n : ℤ} {d : ℕ} (hd : 0 < d) (hn : n ≠ 0) : signBit (rne32 n d) = decide (n < 0) := by
  have pos : (0 : ℝ) < d := by exact_mod_cast hd
  have sign := (rne32_roundsTo n hd).sign (div_ne_zero (by exact_mod_cast hn) pos.ne')
  rw [div_lt_iff₀ pos, zero_mul, Int.cast_lt_zero] at sign
  rw [Bool.eq_iff_iff, sign, decide_eq_true_iff]

/-- Settles O1: `rne32_roundsTo` says it of the real `n / d`, and a comparison of rationals is one of reals. -/
theorem roundToNearestTiesToEven : Obligations.RoundToNearestTiesToEven := by
  intro n d hd
  obtain ⟨zero, -, beyond, finite, nearest, even⟩ := rne32_roundsTo n hd
  refine ⟨fun hn => zero (by simp [hn]), fun hn large => ?_, fun hn small => ?_⟩
  · rw [← signBit_rne32 hd hn]
    exact beyond (by exact_mod_cast large)
  · have small' : |(n : ℝ) / d| < 2 ^ 128 - 2 ^ 103 := by exact_mod_cast small
    exact ⟨finite small', signBit_rne32 hd hn, fun w hw => by exact_mod_cast nearest small' w hw,
      fun w hw hne tie => even small' w hw hne (by exact_mod_cast tie)⟩

/-! ### Rounding toward zero (R12) -/

/-- In the units of `magVal`, a magnitude is compared with a rational in whole numbers. -/
theorem magVal_le_frac_iff (k n : ℕ) {d : ℕ} (hd : 0 < d) :
    (magVal k : ℚ) / 2 ^ 149 ≤ (n : ℚ) / d ↔ magVal k * d ≤ n * 2 ^ 149 := by
  rw [div_le_div_iff₀ (by positivity) (by exact_mod_cast hd)]
  exact_mod_cast Iff.rfl

theorem val_of_signBit_false {w : Word} (h : signBit w = false) : val w = magVal (w.toNat % 2 ^ 31) / 2 ^ 149 := by
  simp [val_eq, h]

theorem val_nonpos_of_signBit {w : Word} (h : signBit w = true) : val w ≤ 0 := by
  rw [val_eq, h, if_pos rfl, neg_one_mul, neg_div]
  exact neg_nonpos.2 (by positivity)

/-- Settles O2: `rtzMag_spec` says it of magnitude bits, and a word of negative sign is never larger. -/
theorem roundTowardZeroIsLargestBelow : Obligations.RoundTowardZeroIsLargestBelow := by
  intro n d hn hd
  obtain ⟨top, below, largest⟩ := rtzMag_spec n d _ rfl hn hd
  obtain ⟨mag, sign⟩ : (rtz32 n d).toNat % 2 ^ 31 = rtzMag n d ∧ signBit (rtz32 n d) = false :=
    withSign_fields false (by omega)
  have value : val (rtz32 n d) = magVal (rtzMag n d) / 2 ^ 149 := by rw [val_of_signBit_false sign, mag]
  refine ⟨by rw [isFinite_iff, mag]; exact decide_eq_true (by omega), sign, ?_, fun w hw le => ?_⟩
  · rw [value, magVal_le_frac_iff _ _ hd]
    exact below
  · rw [value]
    cases s : signBit w with
    | true => exact (val_nonpos_of_signBit s).trans (by positivity)
    | false =>
      rw [val_of_signBit_false s] at le ⊢
      rw [isFinite_iff, decide_eq_true_iff] at hw
      have := magVal_mono (largest _ (by omega) ((magVal_le_frac_iff _ _ hd).1 le))
      gcongr

/-! ### The sample arithmetic (R13) -/

theorem isNaN_of_isFinite {w : Word} (h : isFinite w = true) : isNaN w = false := by
  simp_all [isFinite, isNaN]

theorem isInf_of_isFinite {w : Word} (h : isFinite w = true) : isInf w = false := by
  simp_all [isFinite, isInf]

/-- The exact sum, in the units that `add32` adds. -/
theorem val_add_val (a b : Word) : val a + val b = ((units a + units b : ℤ) : ℚ) / unitsOne := by
  rw [val, val, unitsOne, ← add_div, Int.cast_add, Nat.cast_pow, Nat.cast_ofNat]

/-- The exact product, in the units that `mul32` multiplies. -/
theorem val_mul_val (a b : Word) : val a * val b = ((units a * units b : ℤ) : ℚ) / (unitsOne * unitsOne : ℕ) := by
  rw [val, val, unitsOne, div_mul_div_comm, Int.cast_mul, Nat.cast_mul, Nat.cast_pow, Nat.cast_ofNat]

theorem unitsOne_pos : 0 < unitsOne := Nat.two_pow_pos 149

theorem unitsOne_sq_pos : 0 < unitsOne * unitsOne := Nat.mul_pos unitsOne_pos unitsOne_pos

theorem val_add_val_eq_zero_iff (a b : Word) : val a + val b = 0 ↔ units a + units b = 0 := by
  rw [val_add_val, div_eq_zero_iff, or_iff_left (by exact_mod_cast unitsOne_pos.ne'), Int.cast_eq_zero]

theorem val_mul_val_eq_zero_iff (a b : Word) : val a * val b = 0 ↔ units a * units b = 0 := by
  rw [val_mul_val, div_eq_zero_iff, or_iff_left (by exact_mod_cast unitsOne_sq_pos.ne'), Int.cast_eq_zero]

section

variable {a b : Word}

theorem add32_of_isNaN (h : isNaN a = true ∨ isNaN b = true) : add32 a b = canonNaN := by simp [add32, h]

theorem sub32_of_isNaN (h : isNaN a = true ∨ isNaN b = true) : sub32 a b = canonNaN := by simp [sub32, h]

theorem mul32_of_isNaN (h : isNaN a = true ∨ isNaN b = true) : mul32 a b = canonNaN := by simp [mul32, h]

section Numbers

variable (na : isNaN a = false) (nb : isNaN b = false)

include na nb

theorem sub32_eq_add32_flip : sub32 a b = add32 a (b ^^^ 0x80000000#32) := by simp [sub32, na, nb]

theorem add32_inf_inf (ia : isInf a = true) (ib : isInf b = true) :
    add32 a b = if signBit a = signBit b then a else canonNaN := by
  simp [add32, na, nb, ia, ib]

theorem add32_inf_left (ia : isInf a = true) (ib : isInf b = false) : add32 a b = a := by
  simp [add32, na, nb, ia, ib]

theorem add32_inf_right (ia : isInf a = false) (ib : isInf b = true) : add32 a b = b := by
  simp [add32, na, nb, ia, ib]

theorem mul32_inf (h : isInf a = true ∨ isInf b = true) :
    mul32 a b = if isZero a = true ∨ isZero b = true then canonNaN else infinity (signBit a != signBit b) := by
  simp [mul32, na, nb, h]

end Numbers

section Finite

variable (fa : isFinite a = true) (fb : isFinite b = true)

include fa fb

/-- On finite words only the exact sum decides. -/
theorem add32_finite : add32 a b = if units a + units b = 0 then
    zeroWord (isZero a && isZero b && signBit a && signBit b) else rne32 (units a + units b) unitsOne := by
  simp [add32, isNaN_of_isFinite fa, isNaN_of_isFinite fb, isInf_of_isFinite fa, isInf_of_isFinite fb]

/-- On finite words only the exact product decides. -/
theorem mul32_finite : mul32 a b = if units a * units b = 0 then zeroWord (signBit a != signBit b)
    else rne32 (units a * units b) (unitsOne * unitsOne) := by
  simp [mul32, isNaN_of_isFinite fa, isNaN_of_isFinite fb, isInf_of_isFinite fa, isInf_of_isFinite fb]

theorem add32_zero_sum (h : val a + val b = 0) :
    add32 a b = if isZero a = true ∧ isZero b = true ∧ signBit a = true ∧ signBit b = true then 0x80000000#32
      else 0x00000000#32 := by
  rw [add32_finite fa fb, if_pos ((val_add_val_eq_zero_iff a b).1 h)]
  simp only [zeroWord, Bool.and_eq_true, and_assoc]

/-- A sum that is not zero is rounded once, however it is written as a fraction. -/
theorem add32_rounds_sum (h : val a + val b ≠ 0) {n : ℤ} {d : ℕ} (hd : 0 < d) (e : (n : ℚ) / d = val a + val b) :
    add32 a b = rne32 n d := by
  rw [add32_finite fa fb, if_neg (mt (val_add_val_eq_zero_iff a b).2 h)]
  exact rne32_congr unitsOne_pos hd ((val_add_val a b).symm.trans e.symm)

theorem mul32_zero_product (h : val a * val b = 0) : mul32 a b = zeroWord (signBit a != signBit b) := by
  rw [mul32_finite fa fb, if_pos ((val_mul_val_eq_zero_iff a b).1 h)]

/-- A product that is not zero is rounded once, however it is written as a fraction. -/
theorem mul32_rounds_product (h : val a * val b ≠ 0) {n : ℤ} {d : ℕ} (hd : 0 < d)
    (e : (n : ℚ) / d = val a * val b) : mul32 a b = rne32 n d := by
  rw [mul32_finite fa fb, if_neg (mt (val_mul_val_eq_zero_iff a b).2 h)]
  exact rne32_congr unitsOne_sq_pos hd ((val_mul_val a b).symm.trans e.symm)

end Finite

end

/-- Settles O3, one lemma a clause: NaN operands, infinities, then the finite sums and products. -/
theorem sampleArithmeticRoundsOnce : Obligations.SampleArithmeticRoundsOnce := fun _ _ =>
  ⟨fun h => ⟨add32_of_isNaN h, sub32_of_isNaN h, mul32_of_isNaN h⟩,
    fun na nb => ⟨sub32_eq_add32_flip na nb, add32_inf_inf na nb, add32_inf_left na nb, add32_inf_right na nb,
      mul32_inf na nb⟩,
    fun fa fb => ⟨add32_zero_sum fa fb, fun h _ _ => add32_rounds_sum fa fb h, mul32_zero_product fa fb,
      fun h _ _ => mul32_rounds_product fa fb h⟩⟩

end Sys2Proof.Proofs
end

section
/-! PROOF. The host's registers and the block counter (10_state.md: R33, R36, R37): the rules about a register access,
about a host access, about a command and about the engine's step, then the three obligations. -/

namespace Sys2Proof.Proofs

open Sys2Proof.Machine Sys2Proof.Claims

/-! ### Register accesses (R32, R50, R73) -/

/-- Every register stands at an aligned offset below the phasor file (R32). -/
theorem offset_of_regAt {off : Nat} {r : Reg} (h : regAt off = some r) : off < 0x100 ∧ off % 4 = 0 := by
  have all : ∀ x ∈ regMap, x.1 < 0x100 ∧ x.1 % 4 = 0 := by decide
  obtain ⟨x, found, -⟩ := Option.map_eq_some_iff.1 h
  obtain rfl : x.1 = off := by simpa using List.find?_some found
  exact all x (List.mem_of_find?_eq_some found)

/-- A full-word access at a register's offset reaches it, whether or not a command is pending (R73). -/
theorem target_reg (s : State) {off : Nat} {r : Reg} (h : regAt off = some r) : s.target off 4 = .ok (.reg r) := by
  obtain ⟨low, aligned⟩ := offset_of_regAt h
  have at_reg : locate s.hw off = some (.reg r) := by
    rw [locate, if_neg (by omega), if_neg (by unfold iobufBase; omega), h, Option.map_some]
  rw [State.target, if_pos ⟨rfl, aligned⟩, at_reg]
  rfl

theorem memRead_reg (s : State) {off : Nat} (r : Reg) (h : regAt off = some r) :
    memRead off 4 s = .ok (s.readReg r) := by
  rw [memRead, target_reg s h]; rfl

theorem memWrite_reg (s : State) (w : Word) {off : Nat} (r : Reg) (h : regAt off = some r) :
    memWrite off 4 w s = .ok (s.writeReg w r) := by
  rw [memWrite, target_reg s h]; rfl

/-- The registers whose writes are ignored (R50): all but `CMD`, `STATUS` and the RW ones. -/
def readOnly : Reg → Bool
  | .cmd | .status | .irqEn | .arg0 | .arg1 | .arg2 | .windowMs | .semi1 | .semi2 => false
  | _ => true

theorem writeReg_readOnly (s : State) (w : Word) {r : Reg} (h : readOnly r = true) : s.writeReg w r = s := by
  cases r with
  | cmd | status | irqEn | arg0 | arg1 | arg2 | windowMs | semi1 | semi2 => cases h
  | _ => rfl

theorem memWrite_readOnly (s : State) (w : Word) {off : Nat} (h : (regAt off).any readOnly = true) :
    memWrite off 4 w s = .ok s := by
  obtain ⟨r, at_off, ro⟩ := (Option.any_eq_true _ _).1 h
  rw [memWrite_reg s w r at_off, writeReg_readOnly s w ro]

/-- `IRQ_EN` bit by bit (R36). -/
theorem irqEn_word_getLsbD (q : IrqEn) :
    ∀ i < 32, q.word.getLsbD i = (decide (i = 1) && q.doneIe || decide (i = 2) && q.errIe) := by
  obtain ⟨doneIe, errIe⟩ := q
  cases doneIe <;> cases errIe <;> decide

/-- The enables read back as the two bits of the word that set them (R36). -/
theorem irqEn_word_ofWord (w : Word) : (IrqEn.ofWord w).word = w &&& 0x00000006#32 := by
  apply BitVec.eq_of_getLsbD_eq
  intro i hi
  have mask : ∀ i < 32, (0x00000006#32).getLsbD i = (decide (i = 1) || decide (i = 2)) := by decide
  rw [irqEn_word_getLsbD _ i hi, BitVec.getLsbD_and, mask i hi]
  by_cases one : i = 1
  · simp [one, IrqEn.ofWord]
  · by_cases two : i = 2 <;> simp [one, two, IrqEn.ofWord]

/-! ### Host accesses (R50, R77, R87) -/

/-- `t` differs from `s` at most in what a host access can change: `STATUS`, the RW registers, the I/O buffer, the
pending command and the response. -/
def HostFrame (s t : State) : Prop :=
  t = { s with
    status := t.status, irqEn := t.irqEn, args := t.args, windowMs := t.windowMs, semi1 := t.semi1, semi2 := t.semi2
    iobuf := t.iobuf, pending := t.pending, response := t.response }

theorem HostFrame.hw {s t : State} (h : HostFrame s t) : t.hw = s.hw := by unfold HostFrame at h; rw [h]

theorem HostFrame.blkcnt {s t : State} (h : HostFrame s t) : t.blkcnt = s.blkcnt := by unfold HostFrame at h; rw [h]

theorem hostFrame_issue (s : State) (w : Word) : HostFrame s (s.issue w) := by
  unfold State.issue
  split <;> rfl

theorem hostFrame_writeReg (s : State) (w : Word) (r : Reg) : HostFrame s (s.writeReg w r) := by
  cases r with
  | cmd => exact hostFrame_issue s w
  | _ => rfl

theorem hostFrame_writeLoc (s : State) (w : Word) (l : Loc) : HostFrame s (s.writeLoc w l) := by
  cases l with
  | reg r => exact hostFrame_writeReg s w r
  | ph v c | inc v c | buffer off => rfl

theorem hostFrame_memWrite {s t : State} {off size : Nat} {w : Word} (h : memWrite off size w s = .ok t) :
    HostFrame s t := by
  unfold memWrite at h
  split at h
  · cases h
    exact hostFrame_writeLoc s w _
  · cases h

theorem hostFrame_hostAccess (a : Access) (s : State) : HostFrame s (hostAccess a s) := by
  cases a with
  | read off size => simp only [hostAccess]; split <;> rfl
  | write off size w =>
    simp only [hostAccess]
    split
    · next t written => exact congrArg (fun u : State => { u with response := .written }) (hostFrame_memWrite written)
    · rfl

/-! ### Commands: their checks, then their effect (R107, R222, R224) -/

/-- What a command does when its checks pass. -/
def effect (i : Instr) (s : State) : State :=
  match i with
  | .nop => s
  | .prepare => (s.openSession s.cmdArgs).applyParams true
  | .apply => s.applyParams false
  | .process n => s.processBlock (s.blockLen n)
  | .dlWrite n => s.writeBlock (s.blockLen n)
  | .dlRead ch k => s.delayRead ch k s.cmdArgs.a0
  | .phSetfreq v ch => s.setFrequency v ch s.cmdArgs.a0
  | .phAdvance v ch => s.advancePhase v ch
  | .phReset v ch => s.setPh v ch s.cmdArgs.a0
  | .grainEval => s.evalGrain s.cmdArgs.a0
  | .grainRead ch k => { s with res0 := s.grain ch k s.cmdArgs.a0 }
  | .voiceSample v ch k => s.sampleVoice v ch k
  | .mixSample ch k => s.sampleMix ch k

/-- `E_NOT_PREPARED` comes before any other check (R224). -/
theorem notPrepared_or (s : State) (c : Option ErrCode) :
    s.notPrepared.or c = if s.status.prepared = false then some .notPrepared else c := by
  unfold State.notPrepared
  cases s.status.prepared <;> rfl

theorem notPrepared_eq (s : State) :
    s.notPrepared = if s.status.prepared = false then some .notPrepared else none := by
  rw [← notPrepared_or, Option.or_none]

theorem badLen_eq (s : State) (n : Nat) :
    s.badLen n = if (if n ≠ 0 then n else s.blockSize.toNat) > s.blockSize.toNat then some .blockLen else none := by
  rw [ite_not]; rfl

theorem badConfig_eq (s : State) (rate bs : Word) :
    s.badConfig rate bs = if isFinitePos rate = false then some .cfgSampleRate
      else if bs.toNat = 0 ∨ bs.toNat > s.hw.bmax then some .cfgBlockSize else none := by
  simp only [State.badConfig, Bool.not_eq_true', BitVec.toNat_eq, BitVec.toNat_ofNat, Nat.zero_mod]

/-- The checks each command makes are those of R224, and it has its effect exactly when they pass. -/
theorem exec_eq_guarded (i : Instr) (s : State) : exec i s = guarded (commandError i s) (effect i s) s := by
  cases i with
  | nop => rfl
  | prepare => exact congrArg (guarded · _ s) (badConfig_eq s _ _)
  | apply | grainEval => exact congrArg (guarded · _ s) (notPrepared_eq s)
  | process n | dlWrite n =>
    exact congrArg (guarded · _ s) ((congrArg s.notPrepared.or (badLen_eq s n)).trans (notPrepared_or s _))
  | dlRead ch k | grainRead ch k | voiceSample v ch k | mixSample ch k | phSetfreq v ch | phAdvance v ch
  | phReset v ch => exact congrArg (guarded · _ s) (notPrepared_or s _)

theorem exec_of_commandError_none {i : Instr} {s : State} (h : commandError i s = none) :
    exec i s = .next (effect i s) := by
  rw [exec_eq_guarded, h, guarded_none]

theorem exec_of_commandError_some {i : Instr} {s : State} {e : ErrCode} (h : commandError i s = some e) :
    exec i s = .next (s.recordError e) := by
  rw [exec_eq_guarded, h, guarded_some]

theorem processBlock_hw (s : State) (L : Nat) : (s.processBlock L).hw = s.hw := by
  rw [State.processBlock, State.countBlock_hw, State.mixBlock_hw, State.writeBlock_hw, State.applyParams_hw]

theorem processBlock_blkcnt (s : State) (L : Nat) : (s.processBlock L).blkcnt = s.blkcnt + 1#32 := by
  rw [State.processBlock, State.countBlock, State.mixBlock_blkcnt, State.writeBlock_blkcnt, State.applyParams_blkcnt]

/-- No command changes the implementation's parameters (R33). -/
theorem effect_hw (i : Instr) (s : State) : (effect i s).hw = s.hw := by
  cases i with
  | prepare => exact State.applyParams_hw _ true
  | process n => exact processBlock_hw s _
  | phSetfreq v ch | phAdvance v ch | phReset v ch | voiceSample v ch k | mixSample ch k | apply =>
    simp [effect, State.setFrequency, State.advancePhase, State.sampleVoice, State.sampleMix]
  | nop | dlWrite n | dlRead ch k | grainEval | grainRead ch k => rfl

/-- Every command but PREPARE and PROCESS leaves the block counter (R37). -/
theorem effect_blkcnt_of_ne {i : Instr} (hprep : i ≠ .prepare) (hproc : ∀ n, i ≠ .process n) (s : State) :
    (effect i s).blkcnt = s.blkcnt := by
  cases i with
  | prepare => exact absurd rfl hprep
  | process n => exact absurd rfl (hproc n)
  | phSetfreq v ch | phAdvance v ch | phReset v ch | voiceSample v ch k | mixSample ch k | apply =>
    simp [effect, State.setFrequency, State.advancePhase, State.sampleVoice, State.sampleMix]
  | nop | dlWrite n | dlRead ch k | grainEval | grainRead ch k => rfl

/-! ### The engine's step (R106) -/

/-- What the engine's step can do: complete an illegal word or an erring command with its error recorded, or a command
whose checks pass with its effect. -/
theorem engineStep_cases (p : Pending) (s : State) :
    (∃ x, decode p.word = .error x ∧ engineStep p s = .next (s.recordError .illegalCmd).complete) ∨
    (∃ i e, decode p.word = .ok i ∧ commandError i s = some e ∧ engineStep p s = .next (s.recordError e).complete) ∨
    ∃ i, decode p.word = .ok i ∧ commandError i s = none ∧ engineStep p s = .next (effect i s).complete := by
  cases d : decode p.word with
  | error x => exact .inl ⟨x, rfl, by rw [engineStep, d]⟩
  | ok i =>
    refine .inr ?_
    cases h : commandError i s with
    | some e => exact .inl ⟨i, e, rfl, h, by rw [engineStep, d]; exact congrArg finish (exec_of_commandError_some h)⟩
    | none => exact .inr ⟨i, rfl, h, by rw [engineStep, d]; exact congrArg finish (exec_of_commandError_none h)⟩

theorem engineStep_hw {p : Pending} {s t : State} (h : engineStep p s = .next t) : t.hw = s.hw := by
  obtain ⟨_, -, illegal⟩ | ⟨_, _, -, -, erring⟩ | ⟨i, -, -, done⟩ := engineStep_cases p s
  · cases illegal.symm.trans h; rfl
  · cases erring.symm.trans h; rfl
  · cases done.symm.trans h; exact effect_hw i s

/-- No step of the machine changes the implementation's parameters (R33). -/
theorem step_hw {s t : State} (h : step s = .next t) : t.hw = s.hw := by
  obtain ⟨-, -, idle⟩ | ⟨a, rest, -, access⟩ | ⟨rest, -, -, poll⟩ | ⟨rest, -, reset⟩ | ⟨rest, -, -, idle⟩ |
    ⟨p, rest, -, -, engine⟩ := step_cases s
  · cases idle.symm.trans h; rfl
  · cases access.symm.trans h; exact (hostFrame_hostAccess a _).hw
  · cases poll.symm.trans h; exact (hostFrame_hostAccess _ _).hw
  · cases reset.symm.trans h; rfl
  · cases idle.symm.trans h; rfl
  · exact engineStep_hw (s := { s with events := rest }) (engine.symm.trans h)

/-! ### The obligations -/

/-- Settles O12: each offset reaches its register, a read-only one keeps the state, and every step keeps the parameters. -/
theorem registersReadTheirStateAndReadOnlyOnesIgnoreWrites :
    Obligations.RegistersReadTheirStateAndReadOnlyOnesIgnoreWrites := by
  intro s
  have read {off : Nat} (r : Reg) (h : regAt off = some r) := memRead_reg s r h
  refine ⟨read .id rfl, read .version rfl, read .hwNch rfl, read .hwNmax rfl, read .hwBmax rfl, read .blkcnt rfl,
    read .arg0 rfl, read .arg1 rfl, read .arg2 rfl, read .res0 rfl, read .res1 rfl, read .res2 rfl, read .sr rfl,
    read .blockSize rfl, read .cap rfl, read .widx rfl, read .lastlen rfl, read .winSamples rfl, read .windowMs rfl,
    read .semi1 rfl, read .semi2 rfl, read .freq1 rfl, read .freq2 rfl, read .msEff rfl, read .semi1Eff rfl,
    read .semi2Eff rfl, fun off hoff w => memWrite_readOnly s w ?_, fun t h => step_hw h⟩
  revert off
  decide

/-- Settles O15: the write sets the two enables from the word, and they read back as its bits 1 and 2. -/
theorem irqEnableKeepsItsTwoBits : Obligations.IrqEnableKeepsItsTwoBits := by
  refine ⟨fun s w => ⟨{ s with irqEn := IrqEn.ofWord w }, memWrite_reg s w .irqEn rfl, ?_, rfl, rfl, rfl⟩, ?_⟩
  · rw [memRead_reg _ .irqEn rfl, ← irqEn_word_ofWord]
    rfl
  · rw [memRead_reg _ .irqEn rfl]
    rfl

/-- Settles O59: an erring command leaves the count, one whose checks pass has its effect, and no host access reaches
it. -/
theorem blockCounterCountsCompletedBlocks : Obligations.BlockCounterCountsCompletedBlocks := by
  refine ⟨fun i s t run => ?_, fun a s => (hostFrame_hostAccess a s).blkcnt, rfl⟩
  cases h : commandError i s with
  | some e =>
    cases (exec_of_commandError_some h).symm.trans run
    exact ⟨fun _ _ => nofun, fun _ => nofun, fun _ => rfl⟩
  | none =>
    cases (exec_of_commandError_none h).symm.trans run
    refine ⟨?_, ?_, ?_⟩
    · rintro n rfl -
      exact (congrArg BitVec.toNat (processBlock_blkcnt s _)).trans (BitVec.toNat_add _ _)
    · rintro rfl -
      exact State.applyParams_blkcnt _ true
    · rintro (erring | ⟨hprep, hproc⟩)
      · exact absurd rfl erring
      · exact effect_blkcnt_of_ne hprep hproc s

end Sys2Proof.Proofs
end

section
/-! PROOF. The host's bus accesses (20_memory.md): the rules about which accesses are legal, what one answers and what
it can change, then the five obligations. -/

namespace Sys2Proof.Proofs

open Sys2Proof.Machine Sys2Proof.Claims

/-! ### Which accesses are legal (R73, R74, R78) -/

/-- The offsets of R32, R45 and R47 as O10 writes them out, the I/O buffer only while no command is pending (R78). -/
def Mapped (s : State) (off : Nat) : Prop :=
  off ∈ [0x000, 0x004, 0x008, 0x00C, 0x010, 0x014, 0x018, 0x01C, 0x020, 0x024, 0x028, 0x02C, 0x030, 0x034, 0x038] ∨
  off ∈ [0x040, 0x044, 0x048, 0x04C, 0x050, 0x054, 0x060, 0x064, 0x068, 0x070, 0x074, 0x078, 0x07C, 0x080] ∨
  (0x100 ≤ off ∧ off ≤ 0x1FF ∧ (off % 0x80) / 8 < s.hw.nch) ∨
  (0x10000 ≤ off ∧ off < 0x10000 + 4 * s.hw.nch * s.hw.bmax ∧ s.pending = none)

/-- A full aligned word at a mapped offset (R73). -/
def Legal (s : State) (off size : Nat) : Prop := size = 4 ∧ off % 4 = 0 ∧ Mapped s off

theorem isSome_regAt_iff (off : Nat) : (regAt off).isSome = true ↔ off ∈ regMap.map (·.1) := by
  simp [regAt]

theorem mapped_iff (s : State) (off : Nat) :
    Mapped s off ↔ (regAt off).isSome = true ∨ (0x100 ≤ off ∧ off ≤ 0x1FF ∧ (off % 0x80) / 8 < s.hw.nch) ∨
      (0x10000 ≤ off ∧ off < 0x10000 + 4 * s.hw.nch * s.hw.bmax ∧ s.pending = none) := by
  rw [isSome_regAt_iff, regMap, List.map_append, List.mem_append, or_assoc]
  rfl

theorem regAt_eq_none_of_le {off : Nat} (h : 0x100 ≤ off) : regAt off = none := by
  refine Option.eq_none_iff_forall_ne_some.2 fun r at_off => ?_
  obtain ⟨low, -⟩ := offset_of_regAt at_off
  omega

theorem isBuffer_phasorLoc (off : Nat) : (phasorLoc off).isBuffer = false := by
  simp only [phasorLoc]
  split <;> rfl

section Target

variable (s : State) {off size : Nat}

/-- No other width and no misaligned offset is answered (R73). -/
theorem target_not_word (h : ¬(size = 4 ∧ off % 4 = 0)) : s.target off size = .error (.busError off) := if_neg h

variable (aligned : off % 4 = 0)

include aligned

/-- In the phasor file only the channels below `C` are answered (R45). -/
theorem target_phasor (lo : 0x100 ≤ off) (hi : off ≤ 0x1FF) : s.target off 4 =
    if (off % 0x80) / 8 < s.hw.nch then .ok (phasorLoc off) else .error (.busError off) := by
  rw [State.target, if_pos ⟨rfl, aligned⟩, locate, if_pos ⟨lo, by omega⟩]
  by_cases channel : (off % 0x80) / 8 < s.hw.nch <;> simp [channel, isBuffer_phasorLoc]

/-- In the I/O buffer region only the buffer's own words are answered, and only while idle (R47, R78). -/
theorem target_buffer (lo : 0x10000 ≤ off) : s.target off 4 =
    if off < 0x10000 + 4 * s.hw.nch * s.hw.bmax ∧ s.pending = none then .ok (.buffer off)
    else .error (.busError off) := by
  rw [State.target, if_pos ⟨rfl, aligned⟩, locate, if_neg (by omega), iobufBase, if_pos lo]
  by_cases inside : off < 0x10000 + 4 * s.hw.nch * s.hw.bmax <;>
    cases p : s.pending <;> simp [inside, p, Loc.isBuffer, State.busy]

/-- While idle a word of the buffer is answered (R78). -/
theorem target_buffer_of_idle (lo : 0x10000 ≤ off) (inside : off < 0x10000 + 4 * s.hw.nch * s.hw.bmax)
    (idle : s.pending = none) : s.target off 4 = .ok (.buffer off) := by
  rw [target_buffer s aligned lo, if_pos ⟨inside, idle⟩]

/-- Outside those two regions only the registers are answered (R32). -/
theorem target_noReg (h : regAt off = none) (nph : ¬(0x100 ≤ off ∧ off ≤ 0x1FF)) (nbuf : ¬0x10000 ≤ off) :
    s.target off 4 = .error (.busError off) := by
  rw [State.target, if_pos ⟨rfl, aligned⟩, locate, if_neg (by omega), iobufBase, if_neg nbuf, h]
  rfl

end Target

/-- While BUSY every access to the I/O buffer region is a bus error, aligned or not (R78). -/
theorem target_buffer_of_busy (s : State) {off : Nat} (lo : 0x10000 ≤ off) (busy : s.busy = true) :
    s.target off 4 = .error (.busError off) := by
  by_cases aligned : off % 4 = 0
  · rw [target_buffer s aligned lo, if_neg]
    rintro ⟨-, idle⟩
    simp [State.busy, idle] at busy
  · exact target_not_word s fun ⟨_, h⟩ => aligned h

/-- What `target_cases` says of an access, from the condition on which the access's region answers it. -/
theorem target_cases_of_ite {s : State} {off size : Nat} {c : Prop} [Decidable c] {l : Loc}
    (legal : Legal s off size ↔ c)
    (reach : s.target off size = if c then .ok l else .error (.busError off)) :
    (Legal s off size ∧ ∃ l, s.target off size = .ok l) ∨
    (¬Legal s off size ∧ s.target off size = .error (.busError off)) := by
  by_cases h : c
  · exact .inl ⟨legal.2 h, l, reach.trans (if_pos h)⟩
  · exact .inr ⟨mt legal.1 h, reach.trans (if_neg h)⟩

/-- An access is legal and reaches a location, or it is not and is a bus error (R74). -/
theorem target_cases (s : State) (off size : Nat) :
    (Legal s off size ∧ ∃ l, s.target off size = .ok l) ∨
    (¬Legal s off size ∧ s.target off size = .error (.busError off)) := by
  by_cases word : size = 4 ∧ off % 4 = 0
  swap
  · exact .inr ⟨fun ⟨width, aligned, _⟩ => word ⟨width, aligned⟩, target_not_word s word⟩
  obtain ⟨rfl, aligned⟩ := word
  have legal : Legal s off 4 ↔ Mapped s off := by simp [Legal, aligned]
  rw [mapped_iff] at legal
  by_cases phasor : 0x100 ≤ off ∧ off ≤ 0x1FF
  · obtain ⟨lo, hi⟩ := phasor
    refine target_cases_of_ite (legal.trans ?_) (target_phasor s aligned lo hi)
    have below : ¬0x10000 ≤ off := by omega
    simp [regAt_eq_none_of_le lo, lo, hi, below]
  by_cases buffer : 0x10000 ≤ off
  · refine target_cases_of_ite (legal.trans ?_) (target_buffer s aligned buffer)
    have beyond : ¬off ≤ 0x1FF := by omega
    have noReg : regAt off = none := regAt_eq_none_of_le (by omega)
    simp [noReg, beyond, buffer]
  cases h : regAt off with
  | some r => exact .inl ⟨legal.2 (.inl (by rw [h]; rfl)), .reg r, target_reg s h⟩
  | none =>
    refine .inr ⟨mt legal.1 ?_, target_noReg s aligned h phasor buffer⟩
    rintro (reg | ⟨lo, hi, -⟩ | ⟨lo, -⟩)
    · simp [h] at reg
    · exact phasor ⟨lo, hi⟩
    · exact buffer lo

/-! ### What an access answers and what it can change (R77, R78, R87) -/

section Access

variable {s : State} {off size : Nat} {w : Word}

theorem memRead_of_target {l : Loc} (h : s.target off size = .ok l) : memRead off size s = .ok (s.readLoc l) := by
  rw [memRead, h]

theorem memWrite_of_target {l : Loc} (h : s.target off size = .ok l) :
    memWrite off size w s = .ok (s.writeLoc w l) := by
  rw [memWrite, h]

theorem memRead_of_target_error {f : Fault} (h : s.target off size = .error f) : memRead off size s = .error f := by
  rw [memRead, h]

theorem memWrite_of_target_error {f : Fault} (h : s.target off size = .error f) :
    memWrite off size w s = .error f := by
  rw [memWrite, h]

/-- While a command is pending no access reaches the I/O buffer (R78). -/
theorem not_isBuffer_of_target {p : Pending} {l : Loc} (pending : s.pending = some p) (h : s.target off size = .ok l) :
    ¬l.isBuffer = true := by
  unfold State.target at h
  split at h
  · split at h
    · cases h
    · split at h
      · cases h
      · next l' _ unblocked =>
        cases h
        simpa [State.busy, pending] using unblocked
  · cases h

/-- A write that is taken has the effect of a write to the location it reaches. -/
theorem memWrite_eq_ok {t : State} (h : memWrite off size w s = .ok t) :
    ∃ l, s.target off size = .ok l ∧ t = s.writeLoc w l := by
  unfold memWrite at h
  split at h
  · next l reached => exact ⟨l, reached, (Except.ok.inj h).symm⟩
  · cases h

/-- The RW registers that keep the whole word written to them (R38, R43). -/
def isStored : Reg → Bool
  | .arg0 | .arg1 | .arg2 | .windowMs | .semi1 | .semi2 => true
  | _ => false

theorem readReg_writeReg_stored (s : State) (w : Word) {r : Reg} (h : isStored r = true) :
    (s.writeReg w r).readReg r = w := by
  cases r with
  | arg0 | arg1 | arg2 | windowMs | semi1 | semi2 => rfl
  | _ => cases h

/-- Such a register reads back what was written. -/
theorem memRead_memWrite_stored {t : State} (h : (regAt off).any isStored = true)
    (written : memWrite off 4 w s = .ok t) : memRead off 4 t = .ok w := by
  obtain ⟨r, at_off, stored⟩ := (Option.any_eq_true _ _).1 h
  cases (memWrite_reg s w r at_off).symm.trans written
  rw [memRead_reg _ r at_off, readReg_writeReg_stored s w stored]

/-- An access gives the host a response and changes nothing else, or it is a write that is taken. -/
theorem hostAccess_cases (a : Access) (s : State) :
    (∃ r, hostAccess a s = { s with response := r }) ∨
    ∃ off size w t, memWrite off size w s = .ok t ∧ hostAccess a s = { t with response := .written } := by
  cases a with
  | read off size =>
    simp only [hostAccess]
    split <;> exact .inl ⟨_, rfl⟩
  | write off size w =>
    simp only [hostAccess]
    split
    · next t written => exact .inr ⟨off, size, w, t, written, rfl⟩
    · exact .inl ⟨_, rfl⟩

end Access

/-! ### The command handshake (R76, R223) -/

theorem issue_of_idle {s : State} (h : s.pending = none) (w : Word) :
    s.issue w = { s with pending := some ⟨w, s.args⟩, status := { s.status with done := false } } := by
  rw [State.issue, if_neg (by rw [State.busy, h]; nofun)]

theorem issue_of_pending {s : State} {p : Pending} (h : s.pending = some p) (w : Word) :
    s.issue w = errored s .busy := by
  rw [State.issue, if_pos (by rw [State.busy, h]; rfl)]
  rfl

/-- No register write reaches a pending command (R79, R87). -/
theorem writeReg_pending {s : State} {p : Pending} (h : s.pending = some p) (w : Word) (r : Reg) :
    (s.writeReg w r).pending = some p := by
  cases r with
  | cmd => rw [State.writeReg, issue_of_pending h]; exact h
  | _ => exact h

theorem writeReg_iobuf (s : State) (w : Word) (r : Reg) : (s.writeReg w r).iobuf = s.iobuf := by
  cases r with
  | cmd => exact State.issue_iobuf s w
  | _ => rfl

theorem writeLoc_pending {s : State} {p : Pending} (h : s.pending = some p) (w : Word) (l : Loc) :
    (s.writeLoc w l).pending = some p := by
  cases l with
  | reg r => exact writeReg_pending h w r
  | ph v c | inc v c | buffer off => exact h

/-- A write taken while a command is pending leaves it, and is not a write to the I/O buffer (R78, R87). -/
theorem memWrite_pending {s t : State} {p : Pending} {off size : Nat} {w : Word} (h : s.pending = some p)
    (written : memWrite off size w s = .ok t) : t.pending = some p ∧ t.iobuf = s.iobuf := by
  obtain ⟨l, reached, rfl⟩ := memWrite_eq_ok written
  refine ⟨writeLoc_pending h w l, ?_⟩
  cases l with
  | reg r => exact writeReg_iobuf s w r
  | ph v c | inc v c => rfl
  | buffer off' => exact absurd rfl (not_isBuffer_of_target h reached)

/-- A host access made while a command is pending leaves it and the I/O buffer (R78, R87). -/
theorem hostAccess_pending {s : State} {p : Pending} (h : s.pending = some p) (a : Access) :
    (hostAccess a s).pending = some p ∧ (hostAccess a s).iobuf = s.iobuf := by
  obtain ⟨r, access⟩ | ⟨off, size, w, t, written, access⟩ := hostAccess_cases a s
  · rw [access]
    exact ⟨h, rfl⟩
  · obtain ⟨kept, buffer⟩ := memWrite_pending h written
    rw [access]
    exact ⟨kept, buffer⟩

theorem cmdArgs_of_pending {s : State} {p : Pending} (h : s.pending = some p) : s.cmdArgs = p.args := by
  rw [State.cmdArgs, h]

/-! ### The obligations -/

/-- Settles O10: `target_cases` tells a legal access from a bus error, and the accesses follow it. -/
theorem hostAccessIsAnsweredOrIsABusError : Obligations.HostAccessIsAnsweredOrIsABusError := by
  intro s off size w
  show (Legal s off size → _) ∧ (¬Legal s off size → _)
  obtain ⟨legal, l, reached⟩ | ⟨illegal, refused⟩ := target_cases s off size
  · have read := memRead_of_target reached
    have write := memWrite_of_target (w := w) reached
    exact ⟨fun _ => ⟨⟨_, read, by rw [hostAccess, read]⟩, _, write, by rw [hostAccess, write]⟩, absurd legal⟩
  · have read := memRead_of_target_error refused
    have write := memWrite_of_target_error (w := w) refused
    exact ⟨(absurd · illegal), fun _ => ⟨read, write, by rw [hostAccess, read], by rw [hostAccess, write]⟩⟩

/-- Settles O11: while busy no buffer offset is legal; while idle the write is one of a word of the canonical buffer. -/
theorem bufferIsTheHostsExactlyWhileIdle : Obligations.BufferIsTheHostsExactlyWhileIdle := by
  intro s off w inv lo
  refine ⟨fun busy => ?_, fun idle aligned inside => ?_⟩
  · have refused := target_buffer_of_busy s lo busy
    exact ⟨memRead_of_target_error refused, memWrite_of_target_error refused⟩
  · have noPending : s.pending = none := by simpa [State.busy] using idle
    have write := memWrite_of_target (w := w) (target_buffer_of_idle s aligned lo inside noPending)
    refine ⟨_, write, rfl, ?_, fun a out => Memory.readByte_writeWord_ne _ w out⟩
    rw [memRead_of_target (target_buffer_of_idle (s.writeLoc w (.buffer off)) aligned lo inside noPending)]
    exact congrArg _ (Memory.readWord_writeWord_self inv.stores.iobufWf off w)

/-- Settles O16: each offset reaches its register whatever is pending, and no write reaches a pending command. -/
theorem parameterAndArgumentWritesAlwaysTaken : Obligations.ParameterAndArgumentWritesAlwaysTaken := by
  intro s w
  have write {off : Nat} (r : Reg) (h : regAt off = some r) := memWrite_reg s w r h
  refine ⟨write .windowMs rfl, write .semi1 rfl, write .semi2 rfl, write .arg0 rfl, write .arg1 rfl, write .arg2 rfl,
    ⟨_, write .irqEn rfl⟩, ⟨_, write .status rfl⟩, fun off hoff t written => ?_, fun p off t pending written => ?_⟩
  · have stored : ∀ off ∈ [0x060, 0x064, 0x068, 0x024, 0x028, 0x02C], (regAt off).any isStored = true := by decide
    exact memRead_memWrite_stored (stored off hoff) written
  · obtain ⟨kept, -⟩ := memWrite_pending pending written
    exact ⟨kept, cmdArgs_of_pending kept⟩

/-- Settles O17: `CMD` issues the word, and reads 0. -/
theorem commandWriteAcceptsOrReportsBusy : Obligations.CommandWriteAcceptsOrReportsBusy := by
  intro s w
  have write : memWrite 0x014 4 w s = .ok (s.issue w) := memWrite_reg s w .cmd rfl
  refine ⟨fun idle => ?_, fun p pending => ⟨?_, pending, rfl⟩, memRead_reg s .cmd rfl⟩
  · rw [write, issue_of_idle idle]
  · rw [write, issue_of_pending pending]

/-- Settles O18: a host access changes nothing outside its frame, and while a command is pending neither that command
nor the I/O buffer. -/
theorem hostCannotTouchAPendingCommand : Obligations.HostCannotTouchAPendingCommand := by
  intro s p a pending
  obtain ⟨kept, buffer⟩ := hostAccess_pending pending a
  exact ⟨(hostFrame_hostAccess a s).trans (by rw [kept, buffer, ← pending]), cmdArgs_of_pending kept⟩

end Sys2Proof.Proofs
end

section
/-! PROOF. The command word (30_encoding.md: R103, R104, R105): the rules about the opcode map and the decoder and
about the engine's turn, then the two obligations. -/

namespace Sys2Proof.Proofs

open Sys2Proof.Machine Sys2Proof.Claims

/-! ### The rows of the opcode map (R103, R105) -/

/-- Every mask covers `OPC`, and a row fixes no other bit to 1 (R103). -/
theorem opRows_cover_opc :
    ∀ r ∈ opRows, r.mask &&& 0xFF000000#32 = 0xFF000000#32 ∧ r.bits &&& 0xFF000000#32 = r.bits := by
  decide

/-- The rows' `OPC` values differ (R105). -/
theorem nodup_opRows_bits : (opRows.map OpRow.bits).Nodup := by decide

/-- A word that matches a row has that row's `OPC` (R105). -/
theorem opc_of_match {w : Word} {r : OpRow} (mem : r ∈ opRows) (h : w &&& r.mask = r.bits) :
    w &&& 0xFF000000#32 = r.bits := by
  obtain ⟨covers, only⟩ := opRows_cover_opc r mem
  rw [← covers, ← BitVec.and_assoc, h, only]

/-- At most one row matches a word (R105). -/
theorem eq_of_match {w : Word} {r q : OpRow} (hr : r ∈ opRows) (hq : q ∈ opRows) (mr : w &&& r.mask = r.bits)
    (mq : w &&& q.mask = q.bits) : r = q :=
  List.inj_on_of_nodup_map nodup_opRows_bits hr hq ((opc_of_match hr mr).symm.trans (opc_of_match hq mq))

theorem hit_iff_match {r : OpRow} {w : Word} : r.hit w = true ↔ w &&& r.mask = r.bits := beq_iff_eq

/-! ### The fields (R101) -/

theorem chOf_eq (w : Word) : chOf w = ((w >>> 16) &&& 0xF#32).toNat := by
  rw [chOf, BitVec.extractLsb'_toNat, BitVec.toNat_and, BitVec.toNat_ushiftRight]
  exact (Nat.and_two_pow_sub_one_eq_mod _ 4).symm

theorem nOf_eq (w : Word) : nOf w = (w &&& 0xFFFF#32).toNat := by
  rw [nOf, BitVec.extractLsb'_toNat, BitVec.toNat_and]
  exact (Nat.and_two_pow_sub_one_eq_mod _ 16).symm

/-! ### The decoder (R104, R105) -/

theorem decode_of_match {w : Word} {r : OpRow} (mem : r ∈ opRows) (h : w &&& r.mask = r.bits) :
    decode w = .ok (r.build (vOf w) (chOf w) (nOf w)) := by
  cases found : opRows.find? (·.hit w) with
  | none => exact absurd (hit_iff_match.2 h) (List.find?_eq_none.1 found r mem)
  | some q =>
    have hit : q.hit w = true := by simpa using List.find?_some found
    obtain rfl := eq_of_match mem (List.mem_of_find?_eq_some found) h (hit_iff_match.1 hit)
    rw [decode, found]

theorem decode_of_noMatch {w : Word} (h : ∀ r ∈ opRows, w &&& r.mask ≠ r.bits) : ∃ e, decode w = .error e := by
  have unfound : opRows.find? (·.hit w) = none :=
    List.find?_eq_none.2 fun r mem hit => h r mem (hit_iff_match.1 hit)
  rw [decode, unfound]
  dsimp only
  split
  · exact ⟨_, rfl⟩
  · exact ⟨_, rfl⟩

/-- A word is illegal exactly when it matches no row (R104). -/
theorem decode_error_iff (w : Word) : (∃ e, decode w = .error e) ↔ ∀ r ∈ opRows, w &&& r.mask ≠ r.bits :=
  ⟨fun ⟨_, illegal⟩ _ mem h => (nomatch illegal.symm.trans (decode_of_match mem h)), decode_of_noMatch⟩

/-! ### The engine's turn (R106) -/

/-- With the next turn and a command pending, the engine takes its step on that command. -/
theorem step_of_engineNext {s : State} {rest : List Event} {p : Pending} (turn : EngineNext s rest)
    (pending : s.pending = some p) : step s = engineStep p { s with events := rest } := by
  obtain event | ⟨noInput, rfl⟩ | ⟨busy, ⟨r, waits⟩, rfl⟩ := turn
  · simp [step, stepMachine, event, takeEvent, engineTurn, pending]
  · rw [show ({ s with events := [] } : State) = s from noInput ▸ rfl]
    simp [step, stepMachine, noInput, engineTurn, pending]
  · show step s = engineStep p s
    simp [step, stepMachine, waits, takeEvent, busy, engineTurn, pending]

theorem engineStep_of_illegal {p : Pending} {e : DecodeError} (illegal : decode p.word = .error e) (s : State) :
    engineStep p s = .next (s.recordError .illegalCmd).complete := by
  rw [engineStep, illegal]

/-! ### The obligations -/

/-- Settles O8: the decoder takes the one row that matches, for the rows' `OPC` values differ and every mask covers
`OPC`. -/
theorem decodeFollowsTheOneMatchingRow : Obligations.DecodeFollowsTheOneMatchingRow := by
  refine fun w => ⟨fun r mem h => ?_, ?_, decode_of_noMatch⟩
  · rw [decode_of_match mem h, chOf_eq, nOf_eq]
    rfl
  · refine (List.pairwise_map.1 nodup_opRows_bits).imp_of_mem fun hr hq differ ⟨mr, mq⟩ => differ ?_
    rw [eq_of_match hr hq mr mq]

/-- Settles O23: acceptance does not look at the word, and the engine's step on an illegal one records the error and
completes. -/
theorem illegalWordIsFoundAtExecution : Obligations.IllegalWordIsFoundAtExecution := by
  refine ⟨decode_error_iff, fun s w idle => ?_, fun s rest p e turn pending illegal => ?_⟩
  · have write : memWrite 0x014 4 w s = .ok (s.issue w) := memWrite_reg s w .cmd rfl
    rw [write, issue_of_idle idle]
    exact ⟨_, rfl, rfl, rfl⟩
  · rw [step_of_engineNext turn pending, engineStep_of_illegal illegal]
    rfl

end Sys2Proof.Proofs
end

section
/-! PROOF. The circular delay buffer (41_circular_delay_buffer.md): the rules about a fold of word writes, the block
write, the slots and a read at delay zero, then the obligation. -/

namespace Sys2Proof.Proofs

open Sys2Proof.Machine Sys2Proof.Claims

/-! ### Folds of word writes -/

/-- A word that shares no byte with the words written reads as before. -/
theorem readWord_foldl_writeWord_ne {β : Type} {addr : β → Nat} (w : β → Word) {a : Nat} {l : List β}
    {m : Memory} (apart : ∀ x ∈ l, a + 4 ≤ addr x ∨ addr x + 4 ≤ a) :
    (l.foldl (fun m x => m.writeWord (addr x) (w x)) m).readWord a = m.readWord a := by
  induction l generalizing m with
  | nil => rfl
  | cons x l ih =>
    obtain ⟨apart_head, apart_tail⟩ := List.forall_mem_cons.1 apart
    exact (ih apart_tail).trans (Memory.readWord_writeWord_ne m (w x) apart_head)

/-- An entry holds the word written to it, where the other entries written share no byte with it. -/
theorem readWord_foldl_writeWord {β : Type} {addr : β → Nat} (w : β → Word) {b : β} {l : List β} {m : Memory}
    (wf : m.wf) (mem : b ∈ l) (apart : ∀ x ∈ l, x ≠ b → addr b + 4 ≤ addr x ∨ addr x + 4 ≤ addr b) :
    (l.foldl (fun m x => m.writeWord (addr x) (w x)) m).readWord (addr b) = w b := by
  induction l generalizing m with
  | nil => cases mem
  | cons x l ih =>
    obtain ⟨-, apart_tail⟩ := List.forall_mem_cons.1 apart
    by_cases later : b ∈ l
    · exact ih (Memory.wf_writeWord wf _ _) later apart_tail
    · obtain rfl : b = x := (List.mem_cons.1 mem).resolve_right later
      have kept := readWord_foldl_writeWord_ne w (m := m.writeWord (addr b) (w b)) fun x hx =>
        apart_tail x hx (ne_of_mem_of_not_mem hx later)
      exact kept.trans (Memory.readWord_writeWord_self wf _ _)

/-! ### The block write (R131) -/

/-- The block copy is one fold of word writes over the channels and indices of the block. -/
theorem copyBlock_eq_foldl (s : State) (L : Nat) :
    s.copyBlock L = (List.range s.hw.nch ×ˢ List.range L).foldl
      (fun m x => m.writeWord (dlAddr s.hw x.1 (s.writeSlot x.2)) (s.iobufAt x.1 x.2)) s.dl := by
  show _ = ((List.range s.hw.nch).flatMap fun c => (List.range L).map (Prod.mk c)).foldl _ _
  rw [List.foldl_flatMap, State.copyBlock]
  congr 1
  funext m c
  rw [List.foldl_map, State.copyChannel]

/-- Different samples of a block no longer than the capacity go to different slots. -/
theorem writeSlot_inj {s : State} {j k : Nat} (hj : j < s.cap.toNat) (hk : k < s.cap.toNat)
    (h : s.writeSlot j = s.writeSlot k) : j = k :=
  (Nat.ModEq.add_left_cancel' _ h).eq_of_lt_of_lt hj hk

/-- The slots of different samples of a block share no byte. -/
theorem writeSlot_apart {s : State} (session : s.SessionOk) {c d k j : Nat} (hk : k < s.cap.toNat)
    (hj : j < s.cap.toNat) (differ : (d, j) ≠ (c, k)) :
    dlAddr s.hw c (s.writeSlot k) + 4 ≤ dlAddr s.hw d (s.writeSlot j) ∨
      dlAddr s.hw d (s.writeSlot j) + 4 ≤ dlAddr s.hw c (s.writeSlot k) := by
  have inRam : ∀ i, s.writeSlot i < s.hw.nmax := fun i =>
    (Nat.mod_lt _ (Nat.zero_lt_of_lt hk)).trans_le session.capMax
  refine dlAddr_apart (inRam k) (inRam j) fun same => differ ?_
  obtain ⟨rfl, slot⟩ := Prod.mk.inj same
  rw [writeSlot_inj hk hj slot]

/-- The block write stores each sample, bit for bit, in its slot. -/
theorem dlAt_writeBlock {s : State} {L c k : Nat} (inv : s.Inv) (prepared : s.status.prepared = true)
    (fits : L ≤ s.blockSize.toNat) (hc : c < s.hw.nch) (hk : k < L) :
    (s.writeBlock L).dlAt c (s.writeSlot k) = s.iobufAt c k := by
  have session := inv.session prepared
  have room : L < s.cap.toNat := fits.trans_lt session.capMin
  rw [State.dlAt, State.writeBlock_hw, State.writeBlock, copyBlock_eq_foldl]
  refine readWord_foldl_writeWord (addr := fun x : Nat × Nat => dlAddr s.hw x.1 (s.writeSlot x.2)) (b := (c, k))
    (fun x => s.iobufAt x.1 x.2) inv.stores.dlWf (List.mem_product.2 ⟨List.mem_range.2 hc, List.mem_range.2 hk⟩) ?_
  rintro ⟨d, j⟩ mem differ
  have hj : j < L := List.mem_range.1 (List.mem_product.1 mem).2
  exact writeSlot_apart session (hk.trans room) (hj.trans room) differ

theorem widx_writeBlock_toNat {s : State} (L : Nat) (h : 0 < s.cap.toNat) :
    (s.writeBlock L).widx.toNat = s.writeSlot L :=
  Nat.mod_eq_of_lt ((Nat.mod_lt _ h).trans s.cap.isLt)

theorem lastlen_writeBlock_toNat {s : State} {L : Nat} (fits : L ≤ s.blockSize.toNat) :
    (s.writeBlock L).lastlen.toNat = L :=
  Nat.mod_eq_of_lt (fits.trans_lt s.blockSize.isLt)

/-! ### The slot of a read (R141) -/

/-- A read's slot in natural numbers: whole turns of the buffer do not matter. -/
theorem readSlot_eq_mod {s : State} {i d a : Nat} (turns : ℤ)
    (h : (a : ℤ) = s.widx.toNat - s.lastlen.toNat + i - d + s.cap.toNat * turns) :
    s.readSlot i d = a % s.cap.toNat := by
  have : ((a % s.cap.toNat : ℕ) : ℤ) = (s.widx.toNat - s.lastlen.toNat + i - d) % s.cap.toNat := by
    rw [Int.natCast_mod, h, Int.add_mul_emod_self_left]
  rw [State.readSlot, ← this, Int.toNat_natCast]

/-- After a block write, delay zero addresses the slot that the sample was written to (R134). -/
theorem readSlot_writeBlock {s : State} {L : Nat} (k : Nat) (fits : L ≤ s.blockSize.toNat) (h : 0 < s.cap.toNat) :
    (s.writeBlock L).readSlot k 0 = s.writeSlot k := by
  refine readSlot_eq_mod ((s.widx.toNat + L) / s.cap.toNat : ℕ) ?_
  have wrap := Nat.mod_add_div (s.widx.toNat + L) s.cap.toNat
  rw [widx_writeBlock_toNat L h, lastlen_writeBlock_toNat fits, State.writeBlock_cap, State.writeSlot]
  zify at wrap ⊢
  linarith

/-! ### A read at delay zero (R140, R141) -/

theorem isNaN_of_isZero {x : Word} (h : isZero x = true) : isNaN x = false := by
  simp_all [isZero, isNaN]

/-- A zero of either sign is within every window (R140). -/
theorem clampDelay_of_isZero (s : State) {x : Word} (i : Nat) (h : isZero x = true) :
    s.clampDelay x i = ⟨0, 0x00000000#32, false⟩ := by
  simp [State.clampDelay, isNaN_of_isZero h, h]

/-- Without a fraction the interpolator takes the stored word as it is (R141). -/
theorem interp_of_isZero (s : State) (c i d : Nat) {fr : Word} (h : isZero fr = true) :
    s.interp c i d fr = s.dlAt c (s.readSlot i d) := by
  rw [State.interp, if_pos h]

theorem delayRead_of_isZero (s : State) (ch i : Nat) {x : Word} (h : isZero x = true) :
    s.delayRead ch i x = { s with res0 := s.dlAt ch (s.readSlot i 0) } := by
  simp only [State.delayRead, clampDelay_of_isZero s i h, interp_of_isZero s ch i 0 (fr := 0x00000000#32) rfl,
    Status.noteDelay, Bool.or_false]

/-! ### DL_WRITE and DL_READ where no check fails (R131, R142, R224) -/

/-- DL_WRITE of a block that fits is the block write. -/
theorem exec_dlWrite_of_fits {s : State} {n L : Nat} (h : BlockFits s n L) :
    exec (.dlWrite n) s = .next (s.writeBlock L) := by
  obtain ⟨-, prepared, length, fits⟩ := h
  have noError : commandError (.dlWrite n) s = none := by simp [commandError, prepared, ← length, fits]
  have len : s.blockLen n = L := by rw [length, ite_not]; rfl
  rw [exec_of_commandError_none noError, effect, len]

/-- DL_READ of a channel and an index in range is the delayed read. -/
theorem exec_dlRead_of_inRange {s : State} {ch k : Nat} (prepared : s.status.prepared = true) (channel : ch < s.hw.nch)
    (index : k < s.lastlen.toNat) : exec (.dlRead ch k) s = .next (s.delayRead ch k s.cmdArgs.a0) := by
  have noError : commandError (.dlRead ch k) s = none := by simp [commandError, prepared, channel, index]
  rw [exec_of_commandError_none noError, effect]

/-! ### The obligation -/

/-- Settles O36: the block write puts the sample into the slot that a read at delay zero takes it from. -/
theorem readAtZeroDelayReturnsTheSampleJustWritten : Obligations.ReadAtZeroDelayReturnsTheSampleJustWritten := by
  intro s n L c k w q block hc hk zero
  have write := exec_dlWrite_of_fits block
  obtain ⟨inv, prepared, -, fits⟩ := block
  have session := inv.session prepared
  have capPos : 0 < s.cap.toNat := Nat.zero_lt_of_lt session.capMin
  have lastlen := lastlen_writeBlock_toNat fits
  have slot := readSlot_writeBlock k fits capPos
  have stored := dlAt_writeBlock inv prepared fits hc hk
  rw [← slot] at stored
  have named : (s.writeBlock L).readSlot k 0 = ((s.writeBlock L).widx.toNat + s.cap.toNat - L + k) % s.cap.toNat := by
    refine readSlot_eq_mod 1 ?_
    have := session.capMin
    rw [lastlen, State.writeBlock_cap]
    omega
  refine ⟨_, _, write, named ▸ stored, exec_dlRead_of_inRange prepared hc (hk.trans_eq lastlen.symm), ?_⟩
  exact (congrArg State.res0 (delayRead_of_isZero _ c k zero)).trans stored

end Sys2Proof.Proofs
end

section
/-! PROOF. The fractional delay interpolator (42_fractional_delay_interpolator.md): the rules about exact fractions, the
values of positive words and the delay operand, then the two obligations. -/

namespace Sys2Proof.Proofs

open Sys2Proof.Machine Sys2Proof.Laws Sys2Proof.Claims

/-! ### Exact fractions (R10, R140) -/

/-- A significand of 24 bits at any scale is a magnitude of the format: one that is too small is doubled until it is
full or the scale is the least. -/
theorem exists_magVal_eq (S : Nat) {m : Nat} (hm : m < 2 ^ 24) : ∃ k, magVal k = m * 2 ^ S := by
  induction S generalizing m with
  | zero => exact ⟨m, by simpa using magVal_of 0 m (.inl rfl) hm.le⟩
  | succ S ih =>
    by_cases full : 2 ^ 23 ≤ m
    · exact ⟨_, magVal_of (S + 1) m (.inr full) hm.le⟩
    · obtain ⟨k, value⟩ := ih (m := m * 2) (by omega)
      exact ⟨k, by rw [value, pow_succ', mul_assoc]⟩

/-- Cutting a magnitude down to the bits below a power of two leaves a magnitude: only bits of the significand go. -/
theorem exists_magVal_eq_mod (k T : Nat) : ∃ j, magVal j = magVal k % 2 ^ T := by
  obtain ⟨S, m, -, value, size⟩ := magVal_cases k
  rw [value]
  by_cases whole : T ≤ S
  · have dvd : 2 ^ T ∣ m * 2 ^ S := (pow_dvd_pow 2 whole).mul_left m
    exact ⟨0, by rw [Nat.mod_eq_zero_of_dvd dvd]; rfl⟩
  · obtain ⟨U, rfl⟩ := Nat.exists_eq_add_of_le (Nat.le_of_not_le whole)
    rw [pow_add, mul_comm (2 ^ S), Nat.mul_mod_mul_right]
    exact exists_magVal_eq S ((Nat.mod_le _ _).trans_lt (by omega))

theorem magUnits_of_isZero {w : Word} (h : isZero w = true) : magUnits w = 0 := by
  simp_all [isZero, magUnits]

theorem val_eq_magUnits_div {w : Word} (h : signBit w = false) : val w = magUnits w / unitsOne := by
  rw [val_of_signBit_false h, magUnits_eq, unitsOne, Nat.cast_pow, Nat.cast_ofNat]

/-- A finite magnitude is rounded to itself. -/
theorem rne32_magVal {k : Nat} (hk : k < 0x7F800000) : rne32 (magVal k) unitsOne = withSign false k := by
  rcases Nat.eq_zero_or_pos k with rfl | pos
  · rfl
  obtain ⟨mag, sign⟩ := withSign_fields false hk.le
  have magnitude : magUnits (withSign false k) = magVal k := by rw [magUnits_eq, mag]
  refine rne32_exact (by rw [isFinite_iff, mag]; exact decide_eq_true hk) ?_ unitsOne_pos ?_
  · refine Bool.eq_false_iff.2 fun zero => pos.ne' ((magVal_zero_iff k).1 ?_)
    rw [← magnitude, magUnits_of_isZero zero]
  · rw [val_eq_magUnits_div sign, magnitude, Int.cast_natCast]

/-- The fraction of a word's magnitude is itself exactly representable, so its rounding is exact (R140). -/
theorem rne32_fraction_exact (x : Word) :
    isFinite (rne32 (magUnits x % unitsOne : Nat) unitsOne) = true ∧
    signBit (rne32 (magUnits x % unitsOne : Nat) unitsOne) = false ∧
    val (rne32 (magUnits x % unitsOne : Nat) unitsOne) = (magUnits x % unitsOne : Nat) / unitsOne := by
  obtain ⟨k, value⟩ : ∃ k, magVal k = magUnits x % unitsOne := magUnits_eq x ▸ exists_magVal_eq_mod _ 149
  have finite : k < 0x7F800000 := by
    refine Nat.lt_of_not_le fun large => absurd (Nat.mod_lt (magUnits x) unitsOne_pos) (not_lt.2 ?_)
    have one : unitsOne ≤ magVal 0x7F800000 := by decide
    exact value ▸ one.trans (magVal_mono large)
  obtain ⟨mag, sign⟩ := withSign_fields false finite.le
  rw [← value, rne32_magVal finite, val_eq_magUnits_div sign, magUnits_eq, mag]
  exact ⟨by rw [isFinite_iff, mag]; exact decide_eq_true finite, sign, rfl⟩

/-! ### The values of positive words -/

theorem isZero_iff_val {w : Word} : isZero w = true ↔ val w = 0 := by
  refine ⟨fun zero => by simp [val, units, magUnits_of_isZero zero], fun value => ?_⟩
  by_contra nonzero
  have pos := magUnits_pos (Bool.eq_false_iff.2 nonzero)
  have zeroUnits : units w = 0 := by simpa [val] using value
  rw [units] at zeroUnits
  split at zeroUnits <;> omega

section Positive

variable {x : Word} (pos : 0 < val x)

include pos

theorem signBit_of_val_pos : signBit x = false :=
  Bool.eq_false_iff.2 fun sign => absurd pos (not_lt.2 (val_nonpos_of_signBit sign))

theorem isZero_of_val_pos : isZero x = false :=
  Bool.eq_false_iff.2 fun zero => pos.ne' (isZero_iff_val.1 zero)

theorem val_of_pos : val x = magUnits x / unitsOne := val_eq_magUnits_div (signBit_of_val_pos pos)

/-- A value is compared with whole samples in whole units. -/
theorem lt_val_iff_of_pos (n : Nat) : (n : ℚ) < val x ↔ n * unitsOne < magUnits x := by
  rw [val_of_pos pos, lt_div_iff₀ (by exact_mod_cast unitsOne_pos)]
  exact_mod_cast Iff.rfl

theorem floor_val_of_pos : ⌊val x⌋ = (magUnits x / unitsOne : Nat) := by
  rw [val_of_pos pos]
  exact Rat.floor_natCast_div_natCast _ _

theorem val_sub_floor_of_pos : val x - ⌊val x⌋ = (magUnits x % unitsOne : Nat) / unitsOne := by
  rw [Int.self_sub_floor, val_of_pos pos, Int.fract_div_natCast_eq_div_natCast_mod]

end Positive

/-! ### The delay operand (R140) -/

theorem dmax_eq {s : State} (i : Nat) (h : s.lastlen.toNat ≤ s.cap.toNat) :
    s.dmax i = s.cap.toNat - s.lastlen.toNat + i :=
  Nat.sub_add_comm h

section ClampDelay

variable (s : State) {x : Word} (i : Nat)

theorem clampDelay_of_isNaN (h : isNaN x = true) : s.clampDelay x i = ⟨0, 0#32, true⟩ := if_pos h

theorem clampDelay_of_neg (number : isNaN x = false) (nonzero : isZero x = false) (sign : signBit x = true) :
    s.clampDelay x i = ⟨0, 0#32, true⟩ := by
  simp [State.clampDelay, number, nonzero, sign]

theorem clampDelay_of_isInf (h : isInf x = true) (sign : signBit x = false) :
    s.clampDelay x i = ⟨s.dmax i, 0#32, true⟩ := by
  have number : isNaN x = false := by simp_all [isInf, isNaN]
  have nonzero : isZero x = false := by simp_all [isInf, isZero]
  simp [State.clampDelay, number, nonzero, sign, h]

/-- A positive finite delay is compared with `dmax` and, within the window, split into whole samples and the rest. -/
theorem clampDelay_of_pos (finite : isFinite x = true) (pos : 0 < val x) :
    s.clampDelay x i = if (s.dmax i : ℚ) < val x then ⟨s.dmax i, 0#32, true⟩
      else ⟨magUnits x / unitsOne, rne32 (magUnits x % unitsOne : Nat) unitsOne, false⟩ := by
  simp [State.clampDelay, isNaN_of_isFinite finite, isInf_of_isFinite finite, isZero_of_val_pos pos,
    signBit_of_val_pos pos, lt_val_iff_of_pos pos]

/-- A whole delay within the window has no fraction (R144). -/
theorem clampDelay_of_whole {d : Nat} (finite : isFinite x = true) (value : val x = d) (h : d ≤ s.dmax i) :
    s.clampDelay x i = ⟨d, 0#32, false⟩ := by
  rcases Nat.eq_zero_or_pos d with rfl | dpos
  · exact clampDelay_of_isZero s i (isZero_iff_val.2 (by rw [value, Nat.cast_zero]))
  have pos : 0 < val x := by rw [value]; exact_mod_cast dpos
  have whole : magUnits x = d * unitsOne := by
    rw [val_of_pos pos, div_eq_iff (by exact_mod_cast unitsOne_pos.ne')] at value
    exact_mod_cast value
  have within : ¬(s.dmax i : ℚ) < val x := by rw [value]; exact_mod_cast not_lt.2 h
  rw [clampDelay_of_pos s i finite pos, if_neg within, whole, Nat.mul_div_cancel _ unitsOne_pos, Nat.mul_mod_left]
  rfl

end ClampDelay

/-- A read at a whole delay within the window takes the stored word and reports nothing (R144). -/
theorem delayRead_of_whole {s : State} {i d : Nat} {x : Word} (ch : Nat) (finite : isFinite x = true)
    (value : val x = d) (h : d ≤ s.dmax i) :
    s.delayRead ch i x = { s with res0 := s.dlAt ch (s.readSlot i d) } := by
  simp only [State.delayRead, clampDelay_of_whole s i finite value h, interp_of_isZero s ch i d (fr := 0#32) rfl,
    Status.noteDelay, Bool.or_false]

/-! ### The obligations -/

/-- Settles O33, a lemma a class of operands; within the window the fraction is exact by `rne32_fraction_exact`. -/
theorem delayOperandIsClampedToTheWindow : Obligations.DelayOperandIsClampedToTheWindow := by
  intro s x i last
  dsimp only
  rw [← dmax_eq i last]
  refine ⟨clampDelay_of_isNaN s i, clampDelay_of_isZero s i, clampDelay_of_neg s i, clampDelay_of_isInf s i,
    fun finite beyond => ?_, fun finite pos within => ?_⟩
  · have pos : 0 < val x := (Nat.cast_nonneg _).trans_lt beyond
    rw [clampDelay_of_pos s i finite pos, if_pos beyond]
  · rw [clampDelay_of_pos s i finite pos, if_neg (not_lt.2 within), val_sub_floor_of_pos pos, floor_val_of_pos pos]
    exact ⟨rfl, rfl, rne32_fraction_exact x⟩

/-- Settles O35: a whole delay has no fraction, so the read takes one stored word, `d` behind sample `k`. -/
theorem integralDelayReadsTheStoredWord : Obligations.IntegralDelayReadsTheStoredWord := by
  intro s ch k d indexed finite value within
  obtain ⟨inv, prepared, channel, index⟩ := indexed
  obtain ⟨-, -, -, capMin, -, -, last, -, -⟩ := inv.session prepared
  have lastCap : s.lastlen.toNat ≤ s.cap.toNat := by omega
  have slot : s.readSlot k d = (s.widx.toNat + 2 * s.cap.toNat - s.lastlen.toNat + k - d) % s.cap.toNat :=
    readSlot_eq_mod 2 (by omega)
  rw [exec_dlRead_of_inRange prepared channel index,
    delayRead_of_whole ch finite value (within.trans_eq (dmax_eq k lastCap).symm), slot]
  rfl

end Sys2Proof.Proofs
end

section
/-! PROOF. The phasor (43_phase_accumulator_phasor.md): the integer rounding, the sign of a word, the increment as one
rounding of the exact quotient, then the obligation. -/

namespace Sys2Proof.Proofs

open Sys2Proof.Machine Sys2Proof.Laws

/-! ### Rounding to an integer, ties to even (R17) -/

theorem roundHalfEven_natCast (n d : ℕ) : roundHalfEven n d = roundHalfEvenNat n d := rfl

/-- Ties go to even on both sides of zero, so the rounding is odd. -/
theorem roundHalfEven_neg (n : ℤ) (d : ℕ) : roundHalfEven (-n) d = -roundHalfEven n d := by
  rcases lt_trichotomy n 0 with neg | rfl | pos
  · simp [roundHalfEven, neg, neg.le]
  · simp [roundHalfEven, roundHalfEvenNat]
  · simp [roundHalfEven, pos, pos.le]

section

variable {d : ℕ} (hd : 0 < d)

include hd

/-- `roundHalfEvenNat_near` as a distance between rationals. -/
theorem roundHalfEvenNat_nearest (n : ℕ) : |(roundHalfEvenNat n d : ℚ) - n / d| ≤ 1 / 2 ∧
    (|(roundHalfEvenNat n d : ℚ) - n / d| = 1 / 2 → Even (roundHalfEvenNat n d)) := by
  obtain ⟨above, below, tie⟩ := roundHalfEvenNat_near n d hd
  set q := roundHalfEvenNat n d
  have pos : (0 : ℚ) < 2 * d := by exact_mod_cast Nat.mul_pos two_pos hd
  have doubled : |(q : ℚ) - n / d| * (2 * d) = |(2 * q * d - 2 * n : ℚ)| := by
    have whole : (2 * q * d - 2 * n : ℚ) = (q - n / d) * (2 * d) := by field_simp
    rw [whole, abs_mul, abs_of_pos pos]
  refine ⟨le_of_mul_le_mul_right ?_ pos, fun half => Nat.even_iff.2 (tie ?_)⟩
  · rw [doubled, abs_le]
    have above' : (2 * q * d : ℚ) ≤ 2 * n + d := by exact_mod_cast above
    have below' : (2 * n : ℚ) ≤ 2 * q * d + d := by exact_mod_cast below
    constructor <;> linarith
  · have extreme : |(2 * q * d - 2 * n : ℚ)| = d := by rw [← doubled, half]; ring
    refine (eq_or_eq_neg_of_abs_eq extreme).imp (fun up => ?_) (fun down => ?_)
    · exact_mod_cast (by linarith : (2 * q * d : ℚ) = 2 * n + d)
    · exact_mod_cast (by linarith : (2 * n : ℚ) = 2 * q * d + d)

/-- R17: within one half of the rational, and even at a tie. -/
theorem roundHalfEven_nearest (n : ℤ) : |(roundHalfEven n d : ℚ) - n / d| ≤ 1 / 2 ∧
    (|(roundHalfEven n d : ℚ) - n / d| = 1 / 2 → Even (roundHalfEven n d)) := by
  have natural (m : ℕ) := roundHalfEvenNat_nearest hd m
  obtain ⟨m, rfl | rfl⟩ := n.eq_nat_or_neg
  · simpa [roundHalfEven_natCast] using natural m
  · have distance :
        |((-roundHalfEvenNat m d : ℤ) : ℚ) - ((-m : ℤ) : ℚ) / d| = |(roundHalfEvenNat m d : ℚ) - m / d| := by
      rw [abs_sub_comm]
      congr 1
      push_cast
      ring
    rw [roundHalfEven_neg, roundHalfEven_natCast, distance, even_neg, Int.even_coe_nat]
    exact natural m

/-- A quotient that is an integer is its own rounding. -/
theorem roundHalfEven_of_div_eq {n z : ℤ} (h : (n : ℚ) / d = z) : roundHalfEven n d = z := by
  have near := (roundHalfEven_nearest hd n).1
  rw [h, ← Int.cast_sub, ← Int.cast_abs] at near
  have apart : |roundHalfEven n d - z| < 1 := by exact_mod_cast near.trans_lt one_half_lt_one
  exact sub_eq_zero.1 (Int.abs_lt_one_iff.1 apart)

end

/-! ### The sign of a word (R10) -/

section

variable (w : Word)

theorem toNat_flipSign_mod : (w ^^^ 0x80000000#32).toNat % 2 ^ 31 = w.toNat % 2 ^ 31 := by
  rw [BitVec.toNat_xor, Nat.xor_mod_two_pow]
  exact Nat.xor_zero _

theorem signBit_flipSign : signBit (w ^^^ 0x80000000#32) = !signBit w := by
  simp [signBit]

theorem isFinite_flipSign : isFinite (w ^^^ 0x80000000#32) = isFinite w := by
  rw [isFinite_iff, isFinite_iff, toNat_flipSign_mod]

theorem units_flipSign : units (w ^^^ 0x80000000#32) = -units w := by
  rw [units, units, signBit_flipSign, magUnits_eq, magUnits_eq, toNat_flipSign_mod]
  cases signBit w <;> simp

end

/-! ### The increment (R155, R156) -/

theorem incOf_of_not_finite {f : Word} (sr : Word) (h : isNaN f = true ∨ isInf f = true) : incOf sr f = 0#32 := by
  simp [incOf, h]

/-- The exact quotient, as the fraction of integers that `incOf` rounds. -/
theorem val_div_val_mul {sr : Word} (f : Word) (rate : isFinitePos sr = true) :
    val f / val sr * 2 ^ 32 = ((units f * 2 ^ 32 : ℤ) : ℚ) / magUnits sr := by
  rw [val, val, (units_of_pos rate).1, div_div_div_cancel_right₀ (by norm_num), div_mul_eq_mul_div]
  norm_cast

section

variable {sr f : Word} (finite : isFinite f = true)

include finite

theorem incOf_of_isFinite : incOf sr f = BitVec.ofInt 32 (roundHalfEven (units f * 2 ^ 32) (magUnits sr)) := by
  simp [incOf, isNaN_of_isFinite finite, isInf_of_isFinite finite]

/-- R156: a negative frequency gives the two's-complement word of the negative advance. -/
theorem incOf_flipSign : incOf sr (f ^^^ 0x80000000#32) = 0#32 - incOf sr f := by
  rw [incOf_of_isFinite (by rwa [isFinite_flipSign]), incOf_of_isFinite finite, units_flipSign, neg_mul,
    roundHalfEven_neg, BitVec.ofInt_neg, BitVec.zero_sub]

variable (rate : isFinitePos sr = true)

include rate

/-- R155: one rounding of the exact quotient. -/
theorem incOf_nearest : ∃ z : ℤ, incOf sr f = BitVec.ofInt 32 z ∧ |(z : ℚ) - val f / val sr * 2 ^ 32| ≤ 1 / 2 ∧
    (|(z : ℚ) - val f / val sr * 2 ^ 32| = 1 / 2 → Even z) := by
  rw [val_div_val_mul _ rate]
  exact ⟨_, incOf_of_isFinite finite, roundHalfEven_nearest (units_of_pos rate).2 _⟩

/-- An advance that is a whole number of units is not rounded, only reduced modulo one cycle. -/
theorem incOf_of_whole {r : ℚ} {z : ℤ} (ratio : val f = r * val sr) (whole : r * 2 ^ 32 = z) :
    incOf sr f = BitVec.ofInt 32 z := by
  have nonzero : val sr ≠ 0 := by
    rw [Ne, ← isZero_iff_val]
    simp_all [isFinitePos]
  rw [incOf_of_isFinite finite, roundHalfEven_of_div_eq (units_of_pos rate).2]
  rw [← val_div_val_mul _ rate, ratio, mul_div_cancel_right₀ r nonzero, whole]

theorem incOf_of_multiple (k : ℤ) (ratio : val f = k * val sr) : incOf sr f = 0#32 := by
  rw [incOf_of_whole finite rate (z := k * 2 ^ 32) ratio (by push_cast; rfl), BitVec.ofInt_mul]
  exact BitVec.mul_zero

theorem incOf_of_one_and_a_half (ratio : val f = 3 / 2 * val sr) : incOf sr f = 0x80000000#32 :=
  (incOf_of_whole finite rate (z := 3 * 2 ^ 31) ratio (by norm_num)).trans (by decide)

end

/-- Settles O38, one lemma a clause: all but the first rest on the one rounding `incOf_of_isFinite`. -/
theorem incrementIsTheRoundedFrequency : Obligations.IncrementIsTheRoundedFrequency := fun sr _ rate =>
  ⟨incOf_of_not_finite sr, fun finite => ⟨incOf_nearest finite rate, incOf_flipSign finite,
    incOf_of_multiple finite rate, incOf_of_one_and_a_half finite rate⟩⟩

end Sys2Proof.Proofs
end

section
/-! PROOF. The grain envelope shaper (44_grain_envelope_shaper.md): the bounds on the two parts of a grain's delay, the
range of its fraction word, then the obligation. -/

namespace Sys2Proof.Proofs

open Sys2Proof.Machine Sys2Proof.Laws

/-! ### The grain's delay (R171) -/

section

variable (s : State) (P : Word)

/-- A phase only shortens the delay of the whole window. -/
theorem grainD_le : s.grainD P ≤ s.winSamples.toNat * 2 ^ 32 :=
  Nat.mul_le_mul_left _ (Nat.sub_le _ _)

theorem grainInt_le_winSamples : s.grainInt P ≤ s.winSamples.toNat :=
  Nat.div_le_of_le_mul ((grainD_le s P).trans_eq (Nat.mul_comm _ _))

theorem grainFrac_lt : s.grainFrac P < 2 ^ 32 := Nat.mod_lt _ (Nat.two_pow_pos 32)

/-- Only the whole window has `dInt = WS`, and it leaves no remainder. -/
theorem grainInt_lt_winSamples (h : 0 < s.grainFrac P) : s.grainInt P < s.winSamples.toNat := by
  have parts : 2 ^ 32 * s.grainInt P + s.grainFrac P = s.grainD P := Nat.div_add_mod _ _
  have bound := grainD_le s P
  omega

end

/-! ### The fraction word (R172) -/

theorem val_fracWord_zero : val (fracWord 0) = 0 := isZero_iff_val.1 rfl

/-- A fraction below 1 rounds into `[0, 1]`; near its upper end it rounds to 1. -/
theorem fracWord_range {m : ℕ} (h : m < 2 ^ 32) :
    isFinite (fracWord m) = true ∧ 0 ≤ val (fracWord m) ∧ val (fracWord m) ≤ 1 := by
  rcases Nat.eq_zero_or_pos m with rfl | pos
  · rw [val_fracWord_zero]
    exact ⟨rfl, le_rfl, zero_le_one⟩
  · have positive : (0 : ℝ) < (m : ℤ) := by exact_mod_cast pos
    have below : ((m : ℤ) : ℝ) ≤ (2 ^ 32 : ℕ) := by exact_mod_cast h.le
    exact roundsTo_unit (rne32_roundsTo m (Nat.two_pow_pos 32)) (div_pos positive (positive.trans_le below))
      (div_le_one_of_le₀ below (Nat.cast_nonneg _))

/-- Rounding makes no fraction out of none. -/
theorem pos_of_val_fracWord_pos {m : ℕ} (h : 0 < val (fracWord m)) : 0 < m := by
  refine Nat.pos_of_ne_zero fun none => h.ne' ?_
  rw [none, val_fracWord_zero]

/-! ### The obligation -/

/-- Settles O44: the bounds on the two parts of the delay, carried to `dmax` by the session's ranges (R41, R42, R54). -/
theorem grainReadsStayInTheWindow : Obligations.GrainReadsStayInTheWindow := by
  intro s P k inv prepared
  obtain ⟨-, -, -, -, -, -, last, -, winMax⟩ := inv.session prepared
  have within := grainInt_le_winSamples s P
  have inside := grainInt_lt_winSamples s P
  have lastRoom : s.cap.toNat - s.blockSize.toNat ≤ s.cap.toNat - s.lastlen.toNat := Nat.sub_le_sub_left last _
  obtain ⟨finite, lower, upper⟩ := fracWord_range (grainFrac_lt s P)
  refine ⟨within, inside, winMax, lastRoom, Nat.le_add_right _ _, by omega, finite, lower, upper, fun positive => ?_⟩
  have := inside (pos_of_val_fracWord_pos positive)
  omega

end Sys2Proof.Proofs
end

section
/-! PROOF. Engine control (46_engine_control.md: R200 to R208): NOP, the comparisons and the two clamps of the requested
parameters, the window in samples, the parameter latch and PREPARE, then the five obligations. -/

namespace Sys2Proof.Proofs

open Sys2Proof.Machine Sys2Proof.Laws Sys2Proof.Claims

/-! ### The engine's step on a legal word (R106) -/

theorem engineStep_of_decode {p : Pending} {i : Instr} (legal : decode p.word = .ok i) (s : State) :
    engineStep p s = finish (exec i s) := by
  rw [engineStep, legal]

/-! ### The classes of words (R10, R19) -/

theorem isNaN_or_isInf_or_isFinite (w : Word) : isNaN w = true ∨ isInf w = true ∨ isFinite w = true := by
  by_cases special : expField w = 255
  · by_cases fraction : fracField w = 0
    · simp [isInf, special, fraction]
    · simp [isNaN, special, fraction]
  · simp [isFinite, special]

theorem isNaN_of_isInf {w : Word} (h : isInf w = true) : isNaN w = false := by
  simp_all [isInf, isNaN]

theorem isFinitePos_iff {w : Word} : isFinitePos w = true ↔ isFinite w = true ∧ 0 < val w := by
  refine ⟨fun h => ?_, fun ⟨finite, pos⟩ => ?_⟩
  · obtain ⟨whole, pos⟩ := units_of_pos h
    refine ⟨by simp_all [isFinitePos], ?_⟩
    rw [val, whole]
    positivity
  · simp [isFinitePos, finite, signBit_of_val_pos pos, isZero_of_val_pos pos]

/-- No finite word reaches `2^128`. -/
theorem val_lt_of_isFinite {w : Word} (h : isFinite w = true) : val w < 2 ^ 128 := by
  rw [isFinite_iff, decide_eq_true_iff] at h
  have top : magVal 0x7F800000 = 2 ^ 23 * 2 ^ 254 := magVal_of 254 (2 ^ 23) (.inr le_rfl) (by norm_num)
  have below : magVal (w.toNat % 2 ^ 31) < 2 ^ 128 * 2 ^ 149 := (magVal_lt h).trans_eq (by rw [top]; norm_num)
  cases sign : signBit w with
  | true => exact (val_nonpos_of_signBit sign).trans_lt (by positivity)
  | false =>
    rw [val_of_signBit_false sign, div_lt_iff₀ (by positivity)]
    exact_mod_cast below

/-! ### Words with a whole value (R10) -/

theorem val_of_units {w : Word} {k : ℤ} (h : units w = k * unitsOne) : val w = k := by
  rw [val, h, Int.cast_mul, unitsOne, Int.cast_natCast, Nat.cast_pow, Nat.cast_ofNat,
    mul_div_cancel_right₀ _ (by positivity)]

theorem val_bound_five : val 0x40A00000#32 = 5 := by
  exact_mod_cast val_of_units (w := 0x40A00000#32) (k := 5) (by decide)

theorem val_bound_threeHundred : val 0x43960000#32 = 300 := by
  exact_mod_cast val_of_units (w := 0x43960000#32) (k := 300) (by decide)

theorem val_bound_twelve : val 0x41400000#32 = 12 := by
  exact_mod_cast val_of_units (w := 0x41400000#32) (k := 12) (by decide)

theorem val_bound_negTwelve : val 0xC1400000#32 = -12 := by
  exact_mod_cast val_of_units (w := 0xC1400000#32) (k := -12) (by decide)

/-! ### Comparisons (R16) -/

section Comparison

variable {a b : Word}

theorem lt32_of_isFinite (fa : isFinite a = true) (fb : isFinite b = true) :
    lt32 a b = decide (val a < val b) := by
  have scaled : val a < val b ↔ units a < units b := by
    rw [val, val, div_lt_div_iff_of_pos_right (by positivity), Int.cast_lt]
  simp [lt32, isInf_of_isFinite fa, isInf_of_isFinite fb, scaled]

theorem lt32_of_isInf_left (ia : isInf a = true) (fb : isFinite b = true) : lt32 a b = signBit a := by
  simp [lt32, ia, isInf_of_isFinite fb]

theorem lt32_of_isInf_right (fa : isFinite a = true) (ib : isInf b = true) : lt32 a b = !signBit b := by
  simp [lt32, isInf_of_isFinite fa, ib]

end Comparison

/-! ### The transposition (R207) -/

section Transposition

variable {x : Word}

theorem clampSemi_of_isNaN (h : isNaN x = true) : clampSemi x = (0x00000000#32, true) := if_pos h

theorem clampSemi_of_isInf (h : isInf x = true) :
    clampSemi x = (if signBit x = true then 0xC1400000#32 else 0x41400000#32, true) := by
  rw [clampSemi, lt32_of_isInf_left h rfl, lt32_of_isInf_right rfl h]
  cases signBit x <;> simp [isNaN_of_isInf h]

theorem clampSemi_of_isFinite (finite : isFinite x = true) :
    clampSemi x = if val x < -12 then (0xC1400000#32, true) else if 12 < val x then (0x41400000#32, true)
      else (x, false) := by
  simp [clampSemi, isNaN_of_isFinite finite, lt32_of_isFinite finite (b := 0xC1400000#32) rfl,
    lt32_of_isFinite (a := 0x41400000#32) rfl finite, val_bound_negTwelve, val_bound_twelve]

end Transposition

/-! ### The window request (R205) -/

/-- The upper bound of a window request where `msCap` is at least 5: the word of `min(300, val(msCap))`. -/
def windowMax (cap : Word) : Word := if val cap < 300 then cap else 0x43960000#32

theorem val_windowMax (cap : Word) : val (windowMax cap) = min (val cap) 300 := by
  rw [windowMax]
  split
  · rw [min_eq_left_of_lt ‹_›]
  · rw [min_eq_right (not_lt.1 ‹_›), val_bound_threeHundred]

section WindowRequest

variable {x cap : Word} (capFinite : isFinite cap = true)

include capFinite

theorem isFinite_windowMax : isFinite (windowMax cap) = true := by
  rw [windowMax]
  split
  · exact capFinite
  · rfl

theorem upperBound_eq_windowMax :
    (if lt32 cap 0x43960000#32 then cap else 0x43960000#32) = windowMax cap :=
  if_congr (by rw [lt32_of_isFinite capFinite rfl, val_bound_threeHundred, decide_eq_true_iff]) rfl rfl

theorem clampMs_of_small (x : Word) (small : val cap < 5) : clampMs x cap = (cap, x != cap) := by
  simp [clampMs, lt32_of_isFinite capFinite (b := 0x40A00000#32) rfl, val_bound_five, small]

section Large

variable (large : 5 ≤ val cap)

include large

/-- Where the room holds 5 ms, a request is compared with 5 and with the upper bound. -/
theorem clampMs_of_large (x : Word) :
    clampMs x cap = if isNaN x then (0x40A00000#32, true) else if lt32 x 0x40A00000#32 then (0x40A00000#32, true)
      else if lt32 (windowMax cap) x then (windowMax cap, true) else (x, false) := by
  simp only [clampMs, upperBound_eq_windowMax capFinite, lt32_of_isFinite capFinite (b := 0x40A00000#32) rfl,
    val_bound_five, decide_eq_true_eq, not_lt.2 large, if_false]

theorem clampMs_of_isNaN (h : isNaN x = true) : clampMs x cap = (0x40A00000#32, true) := by
  rw [clampMs_of_large capFinite large, if_pos h]

theorem clampMs_of_isInf (h : isInf x = true) :
    clampMs x cap = (if signBit x = true then 0x40A00000#32 else windowMax cap, true) := by
  rw [clampMs_of_large capFinite large, lt32_of_isInf_left h rfl,
    lt32_of_isInf_right (isFinite_windowMax capFinite) h]
  cases signBit x <;> simp [isNaN_of_isInf h]

theorem clampMs_of_isFinite (finite : isFinite x = true) :
    clampMs x cap = if val x < 5 then (0x40A00000#32, true)
      else if min (val cap) 300 < val x then (windowMax cap, true) else (x, false) := by
  simp only [clampMs_of_large capFinite large, isNaN_of_isFinite finite, lt32_of_isFinite finite (b := 0x40A00000#32) rfl,
    lt32_of_isFinite (isFinite_windowMax capFinite) finite, val_bound_five, val_windowMax, decide_eq_true_eq,
    Bool.false_eq_true, if_false]

end Large

end WindowRequest

/-- The effective window is positive and no longer than `msCap`. -/
theorem clampMs_range {cap : Word} (capPos : isFinitePos cap = true) (x : Word) :
    isFinitePos (clampMs x cap).1 = true ∧ val (clampMs x cap).1 ≤ val cap := by
  obtain ⟨capFinite, positive⟩ := isFinitePos_iff.1 capPos
  by_cases large : 5 ≤ val cap
  · have five : isFinitePos 0x40A00000#32 = true ∧ val 0x40A00000#32 ≤ val cap := ⟨rfl, val_bound_five.trans_le large⟩
    have upper : isFinitePos (windowMax cap) = true ∧ val (windowMax cap) ≤ val cap := by
      rw [isFinitePos_iff, val_windowMax]
      exact ⟨⟨isFinite_windowMax capFinite, lt_min positive (by norm_num)⟩, min_le_left _ _⟩
    obtain number | infinite | finite := isNaN_or_isInf_or_isFinite x
    · rwa [clampMs_of_isNaN capFinite large number]
    · rw [clampMs_of_isInf capFinite large infinite]
      dsimp only
      split
      · exact five
      · exact upper
    · rw [clampMs_of_isFinite capFinite large finite]
      split
      · exact five
      · split
        · exact upper
        · rename_i lower within
          exact ⟨isFinitePos_iff.2 ⟨finite, by linarith⟩, (not_lt.1 within).trans (min_le_left _ _)⟩
  · rw [clampMs_of_small capFinite x (not_le.1 large)]
    exact ⟨capPos, le_rfl⟩

/-! ### The room (R205) -/

theorem room_pos {s : State} (session : s.SessionOk) : 1 ≤ s.room :=
  Nat.le_sub_of_add_le' session.capMin

/-- The room in milliseconds, as the fraction of whole numbers that `msCap` rounds. -/
theorem room_ms_eq {s : State} (rate : isFinitePos s.sr = true) :
    (s.room : ℚ) * 1000 / val s.sr = (s.room * 1000 * unitsOne : ℕ) / (magUnits s.sr : ℕ) := by
  rw [val_of_pos (isFinitePos_iff.1 rate).2, div_div_eq_mul_div]
  push_cast
  rfl

/-- R12 at the room: `msCap` is the largest finite word no greater, and not 0, for the least positive word fits. -/
theorem msCap_spec {s : State} (session : s.SessionOk) :
    isFinitePos s.msCap = true ∧ val s.msCap ≤ (s.room : ℚ) * 1000 / val s.sr ∧
      ∀ w, isFinite w = true → val w ≤ (s.room : ℚ) * 1000 / val s.sr → val w ≤ val s.msCap := by
  have room : (1 : ℚ) ≤ s.room := by exact_mod_cast room_pos session
  obtain ⟨rateFinite, ratePos⟩ := isFinitePos_iff.1 session.rate
  have least : val 0x00000001#32 = 1 / 2 ^ 149 := by
    rw [val, show units 0x00000001#32 = 1 by decide, Int.cast_one]
  have fits : val 0x00000001#32 ≤ (s.room : ℚ) * 1000 / val s.sr := by
    rw [least, le_div_iff₀ ratePos, div_mul_eq_mul_div, one_mul, div_le_iff₀ (by positivity)]
    have := val_lt_of_isFinite rateFinite
    linarith
  have product : 0 < s.room * 1000 * unitsOne := Nat.mul_pos (Nat.mul_pos (room_pos session) (by norm_num)) unitsOne_pos
  obtain ⟨finite, -, below, largest⟩ :=
    roundTowardZeroIsLargestBelow _ _ product (units_of_pos session.rate).2
  rw [← room_ms_eq session.rate] at below largest
  have positive : 0 < val s.msCap := lt_of_lt_of_le (by rw [least]; positivity) (largest _ rfl fits)
  exact ⟨isFinitePos_iff.2 ⟨finite, positive⟩, below, largest⟩

/-! ### The window in samples (R206) -/

theorem roundHalfAway_natCast (m d : ℕ) : roundHalfAway m d = ((2 * m + d) / (2 * d) : ℕ) := rfl

/-- Half away from zero is half up where the rational is not negative (R17). -/
theorem roundHalfAway_eq_floor (m : ℕ) {d : ℕ} (hd : 0 < d) : roundHalfAway m d = ⌊(m : ℚ) / d + 1 / 2⌋ := by
  have sum : (m : ℚ) / d + 1 / 2 = (2 * m + d : ℕ) / (2 * d : ℕ) := by
    have : (d : ℚ) ≠ 0 := by exact_mod_cast hd.ne'
    push_cast
    field_simp
  rw [roundHalfAway_natCast, sum, Rat.floor_natCast_div_natCast, Int.natCast_div]

theorem windowRaw_eq_floor {ms sr : Word} (window : isFinitePos ms = true) (rate : isFinitePos sr = true) :
    (windowRaw ms sr : ℤ) = ⌊val ms * val sr / 1000 + 1 / 2⌋ := by
  have exactly : val ms * val sr / 1000 = (magUnits ms * magUnits sr : ℕ) / (1000 * unitsOne * unitsOne : ℕ) := by
    rw [val_of_pos (isFinitePos_iff.1 window).2, val_of_pos (isFinitePos_iff.1 rate).2, div_mul_div_comm, div_div]
    push_cast
    ring
  have scale : 0 < 1000 * unitsOne * unitsOne := by have := unitsOne_pos; positivity
  rw [exactly, ← roundHalfAway_eq_floor _ scale, windowRaw, (units_of_pos window).1, ← Nat.cast_mul,
    roundHalfAway_natCast, Int.toNat_natCast]

/-- The raw window is the exact one rounded to nearest, ties up. -/
theorem windowRaw_nearest {ms sr : Word} (window : isFinitePos ms = true) (rate : isFinitePos sr = true) :
    val ms * val sr / 1000 - 1 / 2 < windowRaw ms sr ∧ (windowRaw ms sr : ℚ) ≤ val ms * val sr / 1000 + 1 / 2 := by
  rw [← Int.cast_natCast, windowRaw_eq_floor window rate]
  have above := Int.lt_floor_add_one (val ms * val sr / 1000 + 1 / 2)
  exact ⟨by linarith, Int.floor_le _⟩

section Window

variable {s : State} (session : s.SessionOk)

include session

theorem msIn_range : isFinitePos s.msIn.1 = true ∧ val s.msIn.1 ≤ val s.msCap :=
  clampMs_range (msCap_spec session).1 _

/-- `msCap` never overstates the room, so the upper bound of the window never takes effect (R205, R206). -/
theorem windowRaw_le_room : windowRaw s.msIn.1 s.sr ≤ s.room := by
  obtain ⟨window, within⟩ := msIn_range session
  have ratePos := (isFinitePos_iff.1 session.rate).2
  have fits : val s.msIn.1 * val s.sr ≤ s.room * 1000 :=
    (le_div_iff₀ ratePos).1 (within.trans (msCap_spec session).2.1)
  have near := (windowRaw_nearest window session.rate).2
  have below : (windowRaw s.msIn.1 s.sr : ℚ) < s.room + 1 := by linarith
  exact Nat.lt_succ_iff.1 (by exact_mod_cast below)

end Window

/-! ### The parameter latch (R204) -/

section Latch

variable (s : State) (force : Bool)

/-- The pair is taken apart first, so that no check by computation goes into `clampMs` and `rtz32`. -/
theorem applyParams_msEff : (s.applyParams force).msEff = s.msIn.1 := by
  unfold State.applyParams
  cases s.msIn
  rfl

theorem applyParams_semiEff (v : Voice) : (s.applyParams force).semiEff v = (s.semiIn v).1 := by
  cases v <;> rfl

theorem applyParams_status : (s.applyParams force).status =
    s.status.noteParams (s.msIn.2 || s.windowIn.2) ((s.semiIn .one).2 || (s.semiIn .two).2) := by
  rw [State.applyParams]

theorem applyParams_room : (s.applyParams force).room = s.room := by
  simp [State.room]

theorem applyParams_msCap : (s.applyParams force).msCap = s.msCap := by
  simp [State.msCap, applyParams_room]

variable {s} (room : 1 ≤ s.room)

include room

/-- `WIN_SAMPLES` holds the bounded window, which fits its register. -/
theorem winSamples_applyParams_toNat :
    (s.applyParams force).winSamples.toNat = min s.room (max 1 (windowRaw s.msIn.1 s.sr)) := by
  obtain ⟨-, small, bounded, -⟩ := boundWindow_range (ws := windowRaw s.msIn.1 s.sr) room
  have fits : s.windowIn.1 < 2 ^ 32 := small.trans_lt ((Nat.sub_le _ _).trans_lt s.cap.isLt)
  rw [← bounded]
  show (BitVec.ofNat 32 s.windowIn.1).toNat = s.windowIn.1
  rw [BitVec.toNat_ofNat, Nat.mod_eq_of_lt fits]

theorem clampWin_applyParams : (s.applyParams force).status.clampWin =
    (s.status.clampWin || s.msIn.2 ||
      decide ((s.applyParams force).winSamples.toNat ≠ windowRaw s.msIn.1 s.sr)) := by
  obtain ⟨-, -, bounded, reported⟩ := boundWindow_range (ws := windowRaw s.msIn.1 s.sr) room
  have flag : decide (s.windowIn.1 ≠ windowRaw s.msIn.1 s.sr) = s.windowIn.2 := by
    rw [Bool.eq_iff_iff, decide_eq_true_iff]
    exact reported.symm
  rw [winSamples_applyParams_toNat force room, ← bounded, applyParams_status, Bool.or_assoc]
  exact congrArg (fun b => s.status.clampWin || (s.msIn.2 || b)) flag.symm

/-- The latch takes every requested parameter, clamped for the state's own session. -/
theorem latched_applyParams : Latched s (s.applyParams force) where
  window := by rw [applyParams_msCap, applyParams_msEff, State.msIn]
  semi := applyParams_semiEff s force
  samples := by
    rw [State.applyParams_sr, State.applyParams_cap, State.applyParams_blockSize, applyParams_msEff]
    exact winSamples_applyParams_toNat force room
  clampWin := by
    rw [State.applyParams_sr, applyParams_msCap, applyParams_msEff]
    exact clampWin_applyParams force room
  clampSemi := by
    rw [applyParams_status]
    exact (Bool.or_assoc _ _ _).symm

end Latch

/-! ### Tuning the voices (R208) -/

section Tuning

variable (s : State)

theorem retune_freq (v u : Voice) (f : Word) : (s.retune v f).freq u = if u = v then f else s.freq u := by
  rw [State.retune, State.setIncAll, State.setPhasors_freq, State.setFreq_freq]

theorem phasors_length_retune (v u : Voice) (f : Word) : ((s.retune v f).phasors u).length = (s.phasors u).length := by
  rw [State.retune, phasors_length_setIncAll, State.setFreq_phasors]

theorem setFreq_phasorAt (v u : Voice) (f : Word) (c : Nat) : (s.setFreq v f).phasorAt u c = s.phasorAt u c := by
  rw [phasorAt_eq, State.setFreq_phasors]
  rfl

/-- Tuning a voice moves no phase (R157). -/
theorem ph_retune (v u : Voice) (f : Word) (c : Nat) : ((s.retune v f).phasorAt u c).ph = (s.phasorAt u c).ph := by
  rw [State.retune, ph_setIncAll, setFreq_phasorAt]

theorem inc_retune_self {v : Voice} (f : Word) {c : Nat} (h : c < (s.phasors v).length) :
    ((s.retune v f).phasorAt v c).inc = incOf s.sr f := by
  rw [State.retune, phasorAt_setIncAll_self _ _ _ (by rwa [State.setFreq_phasors])]

theorem phasorAt_retune_ne {v u : Voice} (f : Word) (c : Nat) (h : u ≠ v) :
    (s.retune v f).phasorAt u c = s.phasorAt u c := by
  rw [State.retune, phasorAt_setIncAll_ne _ _ _ h, setFreq_phasorAt]

theorem ph_latchVoice (force : Bool) (v u : Voice) (ms semi : Word) (c : Nat) :
    ((s.latchVoice force v ms semi).phasorAt u c).ph = (s.phasorAt u c).ph := by
  rw [State.latchVoice]
  split
  · exact ph_retune s v u _ c
  · rfl

/-- Both voices after the latch: each is tuned or left (R204, R208). -/
def latchBoth (s : State) (force : Bool) : State :=
  (s.latchVoice force .one s.msIn.1 (s.semiIn .one).1).latchVoice force .two s.msIn.1 (s.semiIn .two).1

theorem applyParams_freq (force : Bool) (v : Voice) : (s.applyParams force).freq v = (latchBoth s force).freq v := by
  rw [State.applyParams, latchBoth]
  cases v <;> rfl

theorem applyParams_phasorAt (force : Bool) (v : Voice) (c : Nat) :
    (s.applyParams force).phasorAt v c = (latchBoth s force).phasorAt v c := by
  rw [State.applyParams, latchBoth]
  cases v <;> rfl

/-- The latch moves no phase (R208). -/
theorem ph_applyParams (force : Bool) (v : Voice) (c : Nat) :
    ((s.applyParams force).phasorAt v c).ph = (s.phasorAt v c).ph := by
  rw [applyParams_phasorAt, latchBoth, ph_latchVoice, ph_latchVoice]

end Tuning

section Forced

variable {s : State}

/-- A forced latch tunes both voices (R208). -/
theorem latchBoth_true : latchBoth s true = (s.retune .one (mapFreq s.hw.map (s.semiIn .one).1 s.msIn.1)).retune .two
    (mapFreq s.hw.map (s.semiIn .two).1 s.msIn.1) := by
  simp [latchBoth, State.latchVoice]

theorem tuned_applyParams_true (length : ∀ v, (s.phasors v).length = s.hw.nch) (v : Voice) :
    Tuned (s.applyParams true) v := by
  have freq : (s.applyParams true).freq v = mapFreq s.hw.map (s.semiIn v).1 s.msIn.1 := by
    rw [applyParams_freq, latchBoth_true, retune_freq, retune_freq]
    cases v <;> rfl
  refine ⟨?_, fun c hc => ?_⟩
  · rw [freq, State.applyParams_hw, applyParams_semiEff, applyParams_msEff]
  · rw [State.applyParams_hw, ← length v] at hc
    rw [freq, State.applyParams_sr, applyParams_phasorAt, latchBoth_true]
    cases v with
    | one => rw [phasorAt_retune_ne _ _ c (by decide), inc_retune_self s _ hc]
    | two => rw [inc_retune_self _ _ (by rwa [phasors_length_retune]), State.retune_sr]

end Forced

/-! ### What the latch leaves unchanged (R204) -/

theorem latchVoice_frame (s : State) (force : Bool) (v : Voice) (ms semi : Word) :
    ∃ f1 f2 p1 p2, s.latchVoice force v ms semi = { s with freq1 := f1, freq2 := f2, phasors1 := p1, phasors2 := p2 } := by
  rw [State.latchVoice]
  split
  · cases v <;> exact ⟨_, _, _, _, rfl⟩
  · exact ⟨_, _, _, _, rfl⟩

/-- The latch changes the window, the effective parameters, the frequencies, the phasors and two flags (R204). -/
theorem applyParams_frame (s : State) (force : Bool) :
    ∃ ws ms t1 t2 f1 f2 p1 p2 cw cs, s.applyParams force = { s with
      winSamples := ws, msEff := ms, semi1Eff := t1, semi2Eff := t2, freq1 := f1, freq2 := f2
      phasors1 := p1, phasors2 := p2, status := { s.status with clampWin := cw, clampSemi := cs } } := by
  obtain ⟨_, _, _, _, one⟩ := latchVoice_frame s force .one s.msIn.1 (s.semiIn .one).1
  obtain ⟨_, _, _, _, two⟩ := latchVoice_frame (s.latchVoice force .one s.msIn.1 (s.semiIn .one).1) force .two
    s.msIn.1 (s.semiIn .two).1
  unfold State.applyParams
  dsimp only
  rw [two, one]
  exact ⟨_, _, _, _, _, _, _, _, _, _, rfl⟩

/-! ### The capacity (R202) -/

theorem ceilNat_eq_ceil (n : ℕ) {d : ℕ} (hd : 0 < d) : (ceilNat n d : ℤ) = ⌈(n : ℚ) / d⌉ := by
  have pos : (0 : ℚ) < d := by exact_mod_cast hd
  have below : ceilNat n d * d ≤ n + d - 1 := Nat.div_mul_le_self _ _
  have above : n + d - 1 < (ceilNat n d + 1) * d := Nat.lt_mul_of_div_lt (Nat.lt_succ_self _) hd
  rw [Nat.add_one_mul] at above
  rw [eq_comm, Int.ceil_eq_iff, lt_div_iff₀ pos, div_le_iff₀ pos, sub_mul, one_mul, sub_lt_iff_lt_add]
  exact ⟨by exact_mod_cast (by omega : ceilNat n d * d < n + d), by exact_mod_cast (by omega : n ≤ ceilNat n d * d)⟩

/-- The maximum window PREPARE works with: 1 s where its operand is not positive and finite (R202). -/
def seconds (m : Word) : Word := if isFinitePos m = true then m else 0x3F800000#32

theorem isFinitePos_seconds (m : Word) : isFinitePos (seconds m) = true := by
  rw [seconds]
  split
  · assumption
  · rfl

section Capacity

variable {rate : Word} (ratePos : isFinitePos rate = true)

include ratePos

theorem ceilNat_eq_ceil_val (m : Word) :
    (ceilNat (magUnits (seconds m) * magUnits rate) (unitsOne * unitsOne) : ℤ) = ⌈val (seconds m) * val rate⌉ := by
  rw [ceilNat_eq_ceil _ unitsOne_sq_pos, val_mul_val, (units_of_pos ratePos).1,
    (units_of_pos (isFinitePos_seconds m)).1, ← Nat.cast_mul, Int.cast_natCast]

/-- The capacity is the wanted one bounded below, then above, and it is reported exactly where it is not the wanted one
or the maximum window was not positive and finite. -/
theorem capacity_eq {nmax bs : ℕ} (m : Word) (fits : bs + 1 ≤ nmax) :
    ((capacity nmax rate bs m).1 : ℤ) = min (nmax : ℤ) (max (bs + 1) ⌈val (seconds m) * val rate⌉) ∧
      (capacity nmax rate bs m).2 =
        (!isFinitePos m || decide (((capacity nmax rate bs m).1 : ℤ) ≠ ⌈val (seconds m) * val rate⌉)) := by
  rw [← ceilNat_eq_ceil_val ratePos]
  simp only [capacity, seconds, Bool.or_assoc]
  generalize ceilNat _ _ = want
  rw [← max_def_lt, ← min_def_lt, ← Bool.decide_or]
  refine ⟨by rw [max_comm]; push_cast; rfl, congrArg (!isFinitePos m || ·) (decide_eq_decide.2 ?_)⟩
  omega

end Capacity

/-! ### PREPARE (R201 to R203) -/

theorem bounds_of_legal {p : Params} (h : p.legal = true) : p.bmax + 1 ≤ p.nmax ∧ p.nmax ≤ 2 ^ 24 := by
  simp only [Params.legal, Bool.and_eq_true, decide_eq_true_eq] at h
  omega

theorem openSession_frame (s : State) (a : Args) :
    ∃ cap p1 p2 cc, s.openSession a = { s with
      sr := a.a0, blockSize := a.a1, cap := cap, dl := [], widx := 0#32, lastlen := 0#32, blkcnt := 0#32
      phasors1 := p1, phasors2 := p2, status := { s.status with prepared := true, clampCap := cc } } :=
  ⟨_, _, _, _, rfl⟩

theorem ph_zeroPhases (l : List Phasor) (c : Nat) : ((zeroPhases l).getD c ⟨0#32, 0#32⟩).ph = 0#32 :=
  congrArg Phasor.ph (List.getD_map l ⟨0#32, 0#32⟩ fun p => (⟨0#32, p.inc⟩ : Phasor))

theorem ph_openSession (s : State) (a : Args) (v : Voice) (c : Nat) : ((s.openSession a).phasorAt v c).ph = 0#32 := by
  cases v with
  | one => exact ph_zeroPhases s.phasors1 c
  | two => exact ph_zeroPhases s.phasors2 c

theorem length_openSession (s : State) (a : Args) (v : Voice) :
    ((s.openSession a).phasors v).length = (s.phasors v).length := by
  cases v <;> exact List.length_map _

section OpenSession

variable {s : State} {a : Args} (legal : s.hw.legal = true) (block : a.a1.toNat ≤ s.hw.bmax)

include legal block

theorem cap_openSession_toNat : (s.openSession a).cap.toNat = (capacity s.hw.nmax a.a0 a.a1.toNat a.a2).1 := by
  obtain ⟨fits, small⟩ := bounds_of_legal legal
  have upper := (capacity_range a.a0 a.a2 ((Nat.succ_le_succ block).trans fits)).2
  show (BitVec.ofNat 32 _).toNat = _
  rw [BitVec.toNat_ofNat, Nat.mod_eq_of_lt (by omega)]

theorem room_openSession : 1 ≤ (s.openSession a).room := by
  obtain ⟨fits, -⟩ := bounds_of_legal legal
  have lower := (capacity_range a.a0 a.a2 ((Nat.succ_le_succ block).trans fits)).1
  rw [State.room, cap_openSession_toNat legal block]
  exact Nat.le_sub_of_add_le' lower

end OpenSession

theorem exec_prepare_of_legal {s : State} (rate : isFinitePos s.cmdArgs.a0 = true) (positive : 1 ≤ s.cmdArgs.a1.toNat)
    (block : s.cmdArgs.a1.toNat ≤ s.hw.bmax) :
    exec .prepare s = .next ((s.openSession s.cmdArgs).applyParams true) := by
  have noError : commandError .prepare s = none := by
    simp [commandError, rate, Nat.one_le_iff_ne_zero.1 positive, block]
  exact exec_of_commandError_none noError

/-! ### The obligations -/

/-- Settles O26: word 0 decodes to NOP, whose execution is the identity, so the handshake is all that is left. -/
theorem nopOnlyCompletesTheHandshake : Obligations.NopOnlyCompletesTheHandshake := by
  have nop : decode 0x00000000#32 = .ok .nop := by decide
  refine ⟨nop, fun _ => rfl, fun s rest p turn pending word => ?_⟩
  rw [step_of_engineNext turn pending, engineStep_of_decode (word ▸ nop)]
  rfl

/-- Settles O31, a lemma a class of words: NaN, the infinities, and the finite words by their value. -/
theorem transpositionIsClamped : Obligations.TranspositionIsClamped := by
  refine fun x => ⟨clampSemi_of_isNaN, clampSemi_of_isInf, fun finite => ?_⟩
  rw [clampSemi_of_isFinite finite]
  refine ⟨fun below => if_pos below, fun above => ?_, fun lower upper => ?_⟩
  · rw [if_neg (by linarith), if_pos above]
  · rw [if_neg (not_lt.2 lower), if_neg (not_lt.2 upper)]

/-- Settles O29: `msCap` by R12 at the room, and the clamp a lemma a class of requests. -/
theorem windowRequestIsClampedToTheRoom : Obligations.WindowRequestIsClampedToTheRoom := by
  intro s x inv prepared
  obtain ⟨capPos, below, largest⟩ := msCap_spec (inv.session prepared)
  have capFinite := (isFinitePos_iff.1 capPos).1
  refine ⟨capPos, below, largest, clampMs_of_small capFinite x, fun large => ?_⟩
  have onInf := clampMs_of_isInf (x := x) capFinite large
  have onFinite := clampMs_of_isFinite (x := x) capFinite large
  refine ⟨clampMs_of_isNaN capFinite large, fun infinite sign => ?_, fun infinite sign => ?_,
    fun finite low => ?_, fun finite high => ?_, fun finite lower upper => ?_⟩
  · rw [onInf infinite, if_pos sign]
  · rw [onInf infinite, if_neg (Bool.eq_false_iff.1 sign)]
    rfl
  · rw [onFinite finite, if_pos low]
  · have notLow : ¬val x < 5 := not_lt.2 ((le_min large (by norm_num)).trans high.le)
    rw [onFinite finite, if_neg notLow, if_pos high]
    rfl
  · rw [onFinite finite, if_neg (not_lt.2 lower), if_neg (not_lt.2 upper)]

/-- Settles O30: the raw window is the exact product rounded half up, at most the room, so only the lower bound acts. -/
theorem windowSamplesRoundHalfAway : Obligations.WindowSamplesRoundHalfAway := by
  intro s inv prepared
  have session := inv.session prepared
  have room := room_pos session
  obtain ⟨lower, upper⟩ := windowRaw_nearest (msIn_range session).1 session.rate
  have fits := windowRaw_le_room session
  refine ⟨lower, upper, fits, fun force => ?_⟩
  have samples : (s.applyParams force).winSamples.toNat = max 1 (windowRaw s.msIn.1 s.sr) :=
    (winSamples_applyParams_toNat force room).trans (min_eq_right (max_le room fits))
  have bounded : max 1 (windowRaw s.msIn.1 s.sr) ≠ windowRaw s.msIn.1 s.sr ↔ windowRaw s.msIn.1 s.sr < 1 := by
    rw [Ne, max_eq_right_iff, not_le]
  exact ⟨samples, by rw [clampWin_applyParams force room, samples, decide_eq_decide.2 bounded]; rfl⟩

/-- Settles O27: the session is opened, then its parameters are latched and, by force, both voices tuned. -/
theorem prepareOpensASession : Obligations.PrepareOpensASession := by
  intro s inv rate positive block
  have legal := inv.params
  have cap := cap_openSession_toNat (a := s.cmdArgs) legal block
  have latched := latched_applyParams true (room_openSession (a := s.cmdArgs) legal block)
  obtain ⟨bounded, reported⟩ := capacity_eq rate s.cmdArgs.a2 ((Nat.succ_le_succ block).trans (bounds_of_legal legal).1)
  have files (v : Voice) : ((s.openSession s.cmdArgs).phasors v).length = s.hw.nch := by
    rw [length_openSession]
    cases v
    · exact inv.file1
    · exact inv.file2
  have tuned := tuned_applyParams_true files
  refine ⟨_, exec_prepare_of_legal rate positive block, State.applyParams_sr _ _, State.applyParams_blockSize _ _,
    ?_, ?_, fun c k => ?_, State.applyParams_widx _ _, State.applyParams_lastlen _ _, State.applyParams_blkcnt _ _,
    fun v c => ?_, ?_, ?_, tuned .one, tuned .two, ?_⟩
  · rw [State.applyParams_cap, cap]
    exact bounded
  · rw [State.applyParams_cap, cap, Bool.or_assoc]
    exact congrArg (s.status.clampCap || ·) reported
  · rw [State.dlAt, State.applyParams_dl]
    exact Memory.readWord_nil _
  · rw [ph_applyParams, ph_openSession]
  · rfl
  · obtain ⟨window, semi, samples, clampWin, clampSemi⟩ := latched
    exact ⟨window, fun v => (semi v).trans (by cases v <;> rfl), samples, clampWin, clampSemi⟩
  · obtain ⟨_, _, _, _, _, _, _, _, _, _, latch⟩ := applyParams_frame (s.openSession s.cmdArgs) true
    obtain ⟨_, _, _, _, session⟩ := openSession_frame s s.cmdArgs
    rw [latch, session]

end Sys2Proof.Proofs
end

section
/-! PROOF. Exceptions (60_exceptions.md: R222, R226, R228, R241): the rules about the error record, the host's write to
`STATUS`, the interrupt output and PROCESS in a prepared session, then the three obligations. -/

namespace Sys2Proof.Proofs

open Sys2Proof.Machine Sys2Proof.Claims

/-! ### The error record (R222) -/

theorem recordError_eq_errored (s : State) (e : ErrCode) : s.recordError e = errored s e := rfl

/-- An error recorded while `ERR` is 0 is the one reported. -/
theorem errcode_errored_of_clear {s : State} (h : s.status.err = false) (e : ErrCode) :
    (errored s e).status.errcode = e.code :=
  if_neg (Bool.eq_false_iff.1 h)

/-- The first error since `ERR` was cleared is kept. -/
theorem errcode_errored_of_set {s : State} (h : s.status.err = true) (e : ErrCode) :
    (errored s e).status.errcode = s.status.errcode :=
  if_pos h

/-! ### The host's write to `STATUS` (R35, R228) -/

/-- `ERR` and `ERRCODE` go together when bit 2 is written 1. -/
theorem hostWrite_clears_error {w : Word} (h : w.getLsbD 2 = true) (t : Status) :
    (t.hostWrite w).err = false ∧ (t.hostWrite w).errcode = 0#8 := by
  rw [Status.hostWrite, if_pos h]
  exact ⟨rfl, rfl⟩

theorem hostWrite_done (t : Status) (w : Word) : (t.hostWrite w).done = (t.done && !w.getLsbD 1) := by
  rw [Status.hostWrite]
  split <;> rfl

/-- `DONE` goes when bit 1 is written 1. -/
theorem hostWrite_clears_done {w : Word} (h : w.getLsbD 1 = true) (t : Status) : (t.hostWrite w).done = false := by
  rw [hostWrite_done, h, Bool.not_true, Bool.and_false]

/-! ### The interrupt output (R226) -/

theorem irq_iff (s : State) : s.irq = true ↔
    (s.status.done = true ∧ s.irqEn.doneIe = true) ∨ (s.status.err = true ∧ s.irqEn.errIe = true) := by
  rw [State.irq, Bool.or_eq_true, Bool.and_eq_true, Bool.and_eq_true]

/-- With neither flag set there is no interrupt, whatever the enables. -/
theorem irq_of_flags_clear {s : State} (done : s.status.done = false) (err : s.status.err = false) :
    s.irq = false := by
  rw [State.irq, done, err, Bool.false_and, Bool.false_and, Bool.or_false]

/-- With neither source enabled there is no interrupt, whatever the flags. -/
theorem irq_of_enables_clear {s : State} (done : s.irqEn.doneIe = false) (err : s.irqEn.errIe = false) :
    s.irq = false := by
  rw [State.irq, done, err, Bool.and_false, Bool.and_false, Bool.or_false]

/-! ### PROCESS in a prepared session (R224, R241) -/

/-- No check of R224 fails for a PROCESS within `BLOCK_SIZE`: a length 0 asks for `BLOCK_SIZE` itself (R102). -/
theorem commandError_process_of_le {s : State} {n : Nat} (prepared : s.status.prepared = true)
    (fits : n ≤ s.blockSize.toNat) : commandError (.process n) s = none := by
  have len : (if n ≠ 0 then n else s.blockSize.toNat) ≤ s.blockSize.toNat := by
    split
    · exact fits
    · exact le_rfl
  rw [commandError, if_neg (by rw [prepared]; nofun), if_neg (not_lt.2 len)]

/-- Of `STATUS` a block changes the two clamp flags of the parameter latch and nothing else (R184). -/
theorem processBlock_status (s : State) (L : Nat) : (s.processBlock L).status =
    s.status.noteParams (s.msIn.2 || s.windowIn.2) ((s.semiIn .one).2 || (s.semiIn .two).2) := by
  rw [State.processBlock, State.countBlock_status, State.mixBlock_status, State.writeBlock_status, applyParams_status]

theorem processBlock_err (s : State) (L : Nat) : (s.processBlock L).status.err = s.status.err := by
  rw [processBlock_status, Status.noteParams]

theorem processBlock_errcode (s : State) (L : Nat) : (s.processBlock L).status.errcode = s.status.errcode := by
  rw [processBlock_status, Status.noteParams]

/-- PROCESS within `BLOCK_SIZE` is the block's effect. -/
theorem exec_process_of_le {s : State} {n : Nat} (prepared : s.status.prepared = true)
    (fits : n ≤ s.blockSize.toNat) : exec (.process n) s = .next (s.processBlock (s.blockLen n)) :=
  exec_of_commandError_none (commandError_process_of_le prepared fits)

/-! ### The obligations -/

/-- Settles O19: an erring command records its error and does nothing else, and the host's write to `STATUS` clears both
fields. -/
theorem erringCommandOnlyRecordsItsError : Obligations.ErringCommandOnlyRecordsItsError := by
  refine ⟨fun i s e erring => ⟨?_, rfl, ?_, ?_⟩, fun s w bit => ?_⟩
  · rw [exec_of_commandError_some erring, recordError_eq_errored]
  · exact (errcode_errored_of_clear · e)
  · exact (errcode_errored_of_set · e)
  · exact ⟨_, memWrite_reg s w .status rfl, hostWrite_clears_error bit s.status⟩

/-- Settles O21: the level is a function of the two flags and their enables, so what clears either pair takes it
away. -/
theorem interruptIsTheEnabledFlags : Obligations.InterruptIsTheEnabledFlags := by
  refine ⟨fun s => ⟨irq_iff s, rfl, fun _ => rfl, fun _ _ _ _ => rfl, ?_, ?_, fun w t idle written => ?_⟩, rfl⟩
  · obtain ⟨err, -⟩ := hostWrite_clears_error (w := 0x00000006#32) rfl s.status
    exact ⟨_, memWrite_reg s _ .status rfl, irq_of_flags_clear (hostWrite_clears_done rfl s.status) err⟩
  · exact ⟨_, memWrite_reg s _ .irqEn rfl, irq_of_enables_clear rfl rfl⟩
  · have write : memWrite 0x014 4 w s = .ok (s.issue w) := memWrite_reg s w .cmd rfl
    rw [issue_of_idle idle] at write
    cases write.symm.trans written
    rfl

/-- Settles O50: no check fails, and the block's effect, whatever it reads, leaves all of `STATUS` but two clamp
flags. -/
theorem preparedProcessNeverErrs : Obligations.PreparedProcessNeverErrs := by
  intro s rest p n prepared fits turn pending legal
  have run := exec_process_of_le (s := { s with events := rest }) prepared fits
  rw [step_of_engineNext turn pending, engineStep_of_decode legal, run]
  exact ⟨_, rfl, processBlock_err _ _, processBlock_errcode _ _, rfl, rfl⟩

end Sys2Proof.Proofs
end

section
/-! PROOF. Reset (70_reset_and_hazards.md: R250, R251): the rules about a reset event, about what the reset keeps and
drops, and about the state it leaves, then the two obligations. -/

namespace Sys2Proof.Proofs

open Sys2Proof.Machine Sys2Proof.Claims

/-! ### The reset step (R250, R251) -/

theorem step_of_reset {s : State} {rest : List Event} (turn : s.events = .reset :: rest) :
    step s = .next { s with events := rest }.afterReset := by
  rw [step, stepMachine, turn]; rfl

/-- The access a reset interrupts plays no part. -/
theorem step_of_resetDuring {s : State} {a : Access} {rest : List Event} (turn : s.events = .resetDuring a :: rest) :
    step s = .next { s with events := rest }.afterReset := by
  rw [step, stepMachine, turn]; rfl

/-! ### The state a reset leaves (R250) -/

/-- The state after power-on is what a reset makes of itself, so a rule about every reset is one about it too. -/
theorem reset_eq_afterReset : State.reset = State.reset.afterReset := rfl

/-- The reset forgets the pending command. -/
theorem afterReset_with_pending (s : State) (p : Option Pending) :
    { s with pending := p }.afterReset = s.afterReset := rfl

theorem afterReset_statusWord (s : State) : s.afterReset.statusWord = 0#32 :=
  calc s.afterReset.statusWord
    _ = State.reset.statusWord := rfl
    _ = 0#32 := by decide

theorem afterReset_irqEn_word (s : State) : s.afterReset.irqEn.word = 0#32 :=
  calc s.afterReset.irqEn.word
    _ = State.reset.irqEn.word := rfl
    _ = 0#32 := by decide

/-- A reset masks both interrupt sources. -/
theorem afterReset_irq (s : State) : s.afterReset.irq = false := irq_of_enables_clear rfl rfl

theorem afterReset_phasors (s : State) (v : Voice) :
    s.afterReset.phasors v = List.replicate s.hw.nch ⟨0#32, 0#32⟩ := by
  cases v <;> rfl

/-- Every word of the phasor file is 0, and so is what is read beyond it. -/
theorem afterReset_phasorAt (s : State) (v : Voice) (c : Nat) : s.afterReset.phasorAt v c = ⟨0#32, 0#32⟩ := by
  rw [phasorAt_eq, afterReset_phasors, List.getD_eq_getElem?_getD, List.getElem?_getD_replicate_default_eq]

/-! ### The obligations -/

/-- Settles O53: the table holds after a reset from any state, and the state after power-on is such a state. -/
theorem resetValuesAreTheTable : Obligations.ResetValuesAreTheTable := by
  unfold Obligations.ResetValuesAreTheTable
  intro table
  have holds (s : State) : table s.afterReset := by
    have read {off : Nat} (r : Reg) (h : regAt off = some r) := memRead_reg s.afterReset r h
    exact ⟨read .id rfl, read .version rfl, read .hwNch rfl, read .hwNmax rfl, read .hwBmax rfl,
      afterReset_statusWord s, afterReset_irqEn_word s, afterReset_irq s, rfl, rfl, rfl, rfl, rfl, rfl, rfl, rfl, rfl,
      rfl, rfl, rfl, rfl, rfl, rfl, rfl, rfl, rfl, rfl, afterReset_phasorAt s, rfl⟩
  refine ⟨?_, fun s rest turn => ⟨_, step_of_reset turn, holds _, rfl⟩⟩
  rw [reset_eq_afterReset]
  exact holds State.reset

/-- Settles O54: neither the pending command nor the interrupted access reaches the state after the reset. -/
theorem resetAbandonsCommandAndAccess : Obligations.ResetAbandonsCommandAndAccess := by
  intro s rest p a
  refine ⟨?_, ?_, _, step_of_reset rfl, rfl, rfl, rfl⟩
  · rw [step_of_reset rfl, step_of_reset rfl]
    exact congrArg _ (afterReset_with_pending { s with events := rest } p)
  · rw [step_of_resetDuring rfl, step_of_reset rfl]
    exact congrArg _ (afterReset_with_pending { s with events := rest } p)

end Sys2Proof.Proofs
end

section
/-! PROOF. The command word both ways (30_encoding.md: R101, R103, R104, R109): the rules about the word of a command and
about the command of a word, then the three obligations. -/

namespace Sys2Proof.Proofs

open Sys2Proof.Machine Sys2Proof.Laws

/-! ### From a command to its word (R101, R109) -/

theorem encode_matches_row (i : Instr) : RowWord.Statement i := by
  cases i with
  | nop => exact RowWord.nop
  | prepare => exact RowWord.prepare
  | apply => exact RowWord.apply
  | process n => exact RowWord.process n
  | dlWrite n => exact RowWord.dlWrite n
  | dlRead ch k => exact RowWord.dlRead ch k
  | phSetfreq v ch => exact RowWord.phSetfreq v ch
  | phAdvance v ch => exact RowWord.phAdvance v ch
  | phReset v ch => exact RowWord.phReset v ch
  | grainEval => exact RowWord.grainEval
  | grainRead ch k => exact RowWord.grainRead ch k
  | voiceSample v ch k => exact RowWord.voiceSample v ch k
  | mixSample ch k => exact RowWord.mixSample ch k

/-- A row's bits are its `OPC` alone, so two rows of one `OPC` have the same bits (R105). -/
theorem bits_of_opc : ∀ r ∈ opRows, r.bits = r.bits.extractLsb' 24 8 ++ 0#24 := by decide

theorem extractLsb'_of_match {w : Word} {r : OpRow} (mem : r ∈ opRows) (h : w &&& r.mask = r.bits) :
    w.extractLsb' 24 8 = r.bits.extractLsb' 24 8 := by
  rw [← opc_of_match mem h, BitVec.extractLsb'_and]
  exact (BitVec.and_allOnes (x := w.extractLsb' 24 8)).symm

/-- A command whose word is put together from operands that fit decodes by the row of its opcode, the `k`-th of the table,
to that row's command with the same operands. -/
theorem decode_encode_of_row (i : Instr) (k : Nat) (v : Voice) {ch n : Nat} (fits : ch < 16 ∧ n < 65536)
    (word : encode i = cmdWord i.opcode v ch n := by rfl) (hk : k < opRows.length := by decide)
    (opc : opRows[k].bits.extractLsb' 24 8 = BitVec.ofNat 8 i.opcode := by rfl) :
    decode (encode i) = .ok (opRows[k].build v ch n) := by
  obtain ⟨code, r, mem, h⟩ := encode_matches_row i
  have same : r = opRows[k] := by
    refine List.inj_on_of_nodup_map nodup_opRows_bits mem (List.getElem_mem hk) ?_
    rw [bits_of_opc _ mem, bits_of_opc _ (List.getElem_mem hk), opc, ← code, extractLsb'_of_match mem h]
  rw [decode_of_match mem h, same, word, vOf_cmdWord, chOf_cmdWord _ _ _ fits.1, nOf_cmdWord _ _ _ fits.2]

theorem operands_fit {ch n : Nat} (h : (chFits ch && nFits n) = true) : ch < 16 ∧ n < 65536 := by
  simpa [chFits, nFits] using h

/-- Settles O6: the word matches the row of its opcode, and each field of the word is the operand put into it. -/
theorem decodeOfEncodeIsTheCommand : Obligations.DecodeOfEncodeIsTheCommand := by
  intro i fits
  have none : 0 < 16 ∧ 0 < 65536 := by decide
  cases i with
  | nop => exact decode_encode_of_row .nop 0 .one none
  | prepare => exact decode_encode_of_row .prepare 1 .one none
  | apply => exact decode_encode_of_row .apply 2 .one none
  | process n => exact decode_encode_of_row (.process n) 3 .one (operands_fit (ch := 0) fits)
  | dlWrite n => exact decode_encode_of_row (.dlWrite n) 4 .one (operands_fit (ch := 0) fits)
  | dlRead ch k => exact decode_encode_of_row (.dlRead ch k) 5 .one (operands_fit fits)
  | phSetfreq v ch => exact decode_encode_of_row (.phSetfreq v ch) 6 v ⟨of_decide_eq_true fits, none.2⟩
  | phAdvance v ch => exact decode_encode_of_row (.phAdvance v ch) 7 v ⟨of_decide_eq_true fits, none.2⟩
  | phReset v ch => exact decode_encode_of_row (.phReset v ch) 8 v ⟨of_decide_eq_true fits, none.2⟩
  | grainEval => exact decode_encode_of_row .grainEval 9 .one none
  | grainRead ch k => exact decode_encode_of_row (.grainRead ch k) 10 .one (operands_fit fits)
  | voiceSample v ch k => exact decode_encode_of_row (.voiceSample v ch k) 11 v (operands_fit fits)
  | mixSample ch k => exact decode_encode_of_row (.mixSample ch k) 12 .one (operands_fit fits)

/-! ### From a word to its command (R104) -/

theorem decode_eq_ok {w : Word} {i : Instr} (h : decode w = .ok i) :
    ∃ r ∈ opRows, w &&& r.mask = r.bits ∧ i = r.build (vOf w) (chOf w) (nOf w) := by
  by_contra! none
  obtain ⟨e, illegal⟩ := decode_of_noMatch fun r mem m =>
    none r mem m (Except.ok.inj (h.symm.trans (decode_of_match mem m)))
  exact nomatch h.symm.trans illegal

theorem chOf_lt (w : Word) : chOf w < 16 := (w.extractLsb' 16 4).isLt

theorem nOf_lt (w : Word) : nOf w < 65536 := (w.extractLsb' 0 16).isLt

/-- Fields of a word always fit. -/
theorem wf_build (w : Word) : ∀ r ∈ opRows, (r.build (vOf w) (chOf w) (nOf w)).wf = true := by
  simp [opRows, Instr.wf, chFits, nFits, chOf_lt, nOf_lt]

/-- The word of a row's command holds the row's `OPC` and those fields that the row does not fix. -/
theorem encode_build (v : Voice) (ch n : Nat) : ∀ r ∈ opRows, encode (r.build v ch n) =
    cmdWord (opcOf r.bits) (if r.mask.getLsbD 20 then .one else v) (if r.mask.getLsbD 16 then 0 else ch)
      (if r.mask.getLsbD 0 then 0 else n) := by
  simp only [opRows, List.forall_mem_cons]
  exact ⟨rfl, rfl, rfl, rfl, rfl, rfl, rfl, rfl, rfl, rfl, rfl, rfl, rfl, nofun⟩

/-- A row fixes `OPC` and the three reserved bits, each other field as a whole or not at all, and only `OPC` not to 0. -/
theorem opRows_fix_fields : ∀ r ∈ opRows, ∀ j < 32,
    (j < 16 → r.mask.getLsbD j = r.mask.getLsbD 0) ∧ (16 ≤ j → j < 20 → r.mask.getLsbD j = r.mask.getLsbD 16) ∧
    (21 ≤ j → r.mask.getLsbD j = true) ∧ (j < 24 → r.bits.getLsbD j = false) := by
  decide

/-- The bits of a field of a word, the field put back at the same width. -/
theorem getLsbD_field (w : Word) {n j : Nat} (a : Nat) (hj : j < n) :
    (BitVec.ofNat n (w.extractLsb' a n).toNat).getLsbD j = w.getLsbD (a + j) := by
  rw [BitVec.ofNat_toNat, BitVec.setWidth_eq, BitVec.getLsbD_extractLsb', decide_eq_true hj, Bool.true_and]

theorem getLsbD_ofNat_ite {n : Nat} (fixed : Bool) (m j : Nat) :
    (BitVec.ofNat n (if fixed then 0 else m)).getLsbD j = (!fixed && (BitVec.ofNat n m).getLsbD j) := by
  cases fixed <;> simp

theorem voice_two_ite (fixed : Bool) (w : Word) :
    ((if fixed then Voice.one else vOf w) == .two) = (!fixed && w.getLsbD 20) := by
  unfold vOf
  cases fixed <;> cases w.getLsbD 20 <;> rfl

/-- A bit that the row fixes to 0 is 0 in the word, so leaving it out changes nothing. -/
theorem not_and_of_fixed : ∀ {bit fixed : Bool}, (bit && fixed) = false → (!fixed && bit) = bit := by decide

/-- A word that matches a row is the word of the row's command. -/
theorem encode_build_of_match {w : Word} {r : OpRow} (mem : r ∈ opRows) (h : w &&& r.mask = r.bits) :
    encode (r.build (vOf w) (chOf w) (nOf w)) = w := by
  rw [encode_build _ _ _ r mem]
  refine BitVec.eq_of_getLsbD_eq fun j hj => ?_
  have fixed : (w.getLsbD j && r.mask.getLsbD j) = r.bits.getLsbD j := by rw [← h, BitVec.getLsbD_and]
  obtain ⟨inN, inCh, top, zero⟩ := opRows_fix_fields r mem j hj
  rw [cmdWord_bit, getLsbD_ofNat_ite, getLsbD_ofNat_ite, voice_two_ite, nOf, chOf, opcOf]
  split_ifs with n ch v opc
  · rw [inN n, zero (by omega)] at fixed
    rw [getLsbD_field w 0 n, Nat.zero_add]
    exact not_and_of_fixed fixed
  · rw [inCh (by omega) ch, zero (by omega)] at fixed
    rw [getLsbD_field w 16 (by omega), Nat.add_sub_cancel' (by omega)]
    exact not_and_of_fixed fixed
  · obtain rfl : j = 20 := by omega
    rw [zero (by omega)] at fixed
    rw [beq_self_eq_true, Bool.and_true]
    exact not_and_of_fixed fixed
  · rw [top (by omega), Bool.and_true, zero opc] at fixed
    exact fixed.symm
  · rw [top (by omega), Bool.and_true] at fixed
    rw [getLsbD_field r.bits 24 (by omega), Nat.add_sub_cancel' (by omega), fixed]

/-- Settles O7: a legal word matches a row, whose command has the fields of the word and leaves no other bit free. -/
theorem encodeOfDecodeIsTheWord : Obligations.EncodeOfDecodeIsTheWord := by
  intro w i h
  obtain ⟨r, mem, m, rfl⟩ := decode_eq_ok h
  exact ⟨wf_build w r mem, encode_build_of_match mem m⟩

/-- Settles O9 by running the decoder. -/
theorem writtenOutWordsDecode : Obligations.WrittenOutWordsDecode := by
  unfold Obligations.WrittenOutWordsDecode
  decide

end Sys2Proof.Proofs
end

section
/-! PROOF. The whole machine (R37 to R50, R106, R220 to R222): the rules about what each command's effect leaves unchanged,
then the obligations that speak of every command and every step. -/

namespace Sys2Proof.Proofs

open Sys2Proof.Machine Sys2Proof.Laws Sys2Proof.Claims

/-! ### What no command changes (R33, R38, R43) -/

/-- The host's side of the state: the parameters, the registers only the host writes, the pending command, the inputs and
the response. -/
def hostSide (s : State) : Params × Args × IrqEn × Word × Word × Word × Option Pending × List Event × BusResponse :=
  (s.hw, s.args, s.irqEn, s.windowMs, s.semi1, s.semi2, s.pending, s.events, s.response)

theorem hostSide_setPhasors (s : State) (v : Voice) (l : List Phasor) : hostSide (s.setPhasors v l) = hostSide s := by
  cases v <;> rfl

theorem hostSide_stepBoth (s : State) (c : Nat) : hostSide (s.stepBoth c) = hostSide s :=
  (hostSide_setPhasors _ _ _).trans (hostSide_setPhasors _ _ _)

theorem hostSide_applyParams (s : State) (force : Bool) : hostSide (s.applyParams force) = hostSide s := by
  obtain ⟨_, _, _, _, _, _, _, _, _, _, latch⟩ := applyParams_frame s force
  rw [latch]
  rfl

/-- The mix changes the I/O buffer and the phasors, and nothing else (R184). -/
theorem mixBlock_frame (s : State) (L : Nat) :
    ∃ io p1 p2, s.mixBlock L = { s with iobuf := io, phasors1 := p1, phasors2 := p2 } := by
  rw [mixBlock_eq]
  exact ⟨_, _, _, mixOver_frame s _⟩

theorem hostSide_mixBlock (s : State) (L : Nat) : hostSide (s.mixBlock L) = hostSide s := by
  obtain ⟨_, _, _, mix⟩ := mixBlock_frame s L
  rw [mix]
  rfl

theorem hostSide_countBlock (s : State) : hostSide s.countBlock = hostSide s := rfl

theorem hostSide_writeBlock (s : State) (L : Nat) : hostSide (s.writeBlock L) = hostSide s := rfl

theorem hostSide_processBlock (s : State) (L : Nat) : hostSide (s.processBlock L) = hostSide s := by
  rw [State.processBlock, hostSide_countBlock, hostSide_mixBlock, hostSide_writeBlock, hostSide_applyParams]

theorem effect_hostSide (i : Instr) (s : State) : hostSide (effect i s) = hostSide s := by
  cases i with
  | prepare => exact hostSide_applyParams _ true
  | apply => exact hostSide_applyParams s false
  | process n => exact hostSide_processBlock s _
  | phSetfreq v ch | phAdvance v ch | phReset v ch | voiceSample v ch k => exact hostSide_setPhasors s v _
  | mixSample ch k => exact hostSide_stepBoth s ch
  | nop | dlWrite n | dlRead ch k | grainEval | grainRead ch k => rfl

theorem effect_events (i : Instr) (s : State) : (effect i s).events = s.events := by
  have kept := effect_hostSide i s
  simp only [hostSide, Prod.mk.injEq] at kept
  obtain ⟨-, -, -, -, -, -, -, events, -⟩ := kept
  exact events

theorem effect_semi1 (i : Instr) (s : State) : (effect i s).semi1 = s.semi1 := by
  have kept := effect_hostSide i s
  simp only [hostSide, Prod.mk.injEq] at kept
  obtain ⟨-, -, -, -, semi1, -, -, -, -⟩ := kept
  exact semi1

/-! ### The flags a command's effect leaves (R35, R221) -/

theorem effect_errors (i : Instr) (s : State) :
    (effect i s).status.err = s.status.err ∧ (effect i s).status.errcode = s.status.errcode ∧
      (effect i s).status.done = s.status.done := by
  cases i with
  | prepare | apply =>
    rw [effect, applyParams_status]
    exact ⟨rfl, rfl, rfl⟩
  | process n =>
    rw [effect, processBlock_status]
    exact ⟨rfl, rfl, rfl⟩
  | phSetfreq v ch | phAdvance v ch | phReset v ch | voiceSample v ch k | mixSample ch k =>
    simp [effect, State.setFrequency, State.advancePhase, State.sampleVoice, State.sampleMix]
  | nop | dlWrite n | dlRead ch k | grainEval | grainRead ch k => exact ⟨rfl, rfl, rfl⟩

theorem effect_prepared_of_ne {i : Instr} (h : i ≠ .prepare) (s : State) :
    (effect i s).status.prepared = s.status.prepared := by
  cases i with
  | prepare => exact absurd rfl h
  | apply => rw [effect, applyParams_status]; rfl
  | process n => rw [effect, processBlock_status]; rfl
  | phSetfreq v ch | phAdvance v ch | phReset v ch | voiceSample v ch k | mixSample ch k =>
    simp [effect, State.setFrequency, State.advancePhase, State.sampleVoice, State.sampleMix]
  | nop | dlWrite n | dlRead ch k | grainEval | grainRead ch k => rfl

theorem effect_prepare_prepared (s : State) : (effect .prepare s).status.prepared = true := by
  rw [effect, applyParams_status]
  rfl

/-! ### The stores a command's effect leaves (R39, R45, R47, R48) -/

/-- Setting a phase changes no increment. -/
theorem inc_setPh (s : State) (v u : Voice) (c k : Nat) (w : Word) :
    ((s.setPh v c w).phasorAt u k).inc = (s.phasorAt u k).inc := by
  by_cases h : (u, k) = (v, c)
  · obtain ⟨rfl, rfl⟩ := Prod.mk.inj h
    by_cases hk : k < (s.phasors u).length
    · rw [phasorAt_setPh_self s u w hk]
    · rw [phasorAt_eq, State.setPh, State.setPhasors_phasors_self, List.set_eq_of_length_le (not_lt.1 hk)]
      rfl
  · rw [phasorAt_setPh_ne s w h]

/-- Setting an increment moves no phase (R157). -/
theorem ph_setInc (s : State) (v u : Voice) (c k : Nat) (w : Word) :
    ((s.setInc v c w).phasorAt u k).ph = (s.phasorAt u k).ph := by
  by_cases h : (u, k) = (v, c)
  · obtain ⟨rfl, rfl⟩ := Prod.mk.inj h
    by_cases hk : k < (s.phasors u).length
    · rw [phasorAt_setInc_self s u w hk]
    · rw [phasorAt_eq, State.setInc, State.setPhasors_phasors_self, List.set_eq_of_length_le (not_lt.1 hk)]
      rfl
  · rw [phasorAt_setInc_ne s w h]

/-- The result registers, together. -/
def results (s : State) : Word × Word × Word := (s.res0, s.res1, s.res2)

theorem results_applyParams (s : State) (force : Bool) : results (s.applyParams force) = results s := by
  obtain ⟨_, _, _, _, _, _, _, _, _, _, latch⟩ := applyParams_frame s force
  rw [latch]
  rfl

theorem results_setPhasors (s : State) (v : Voice) (l : List Phasor) : results (s.setPhasors v l) = results s := by
  cases v <;> rfl

theorem results_mixBlock (s : State) (L : Nat) : results (s.mixBlock L) = results s := by
  obtain ⟨_, _, _, mix⟩ := mixBlock_frame s L
  rw [mix]
  rfl

theorem results_countBlock (s : State) : results s.countBlock = results s := rfl

theorem results_writeBlock (s : State) (L : Nat) : results (s.writeBlock L) = results s := rfl

theorem results_processBlock (s : State) (L : Nat) : results (s.processBlock L) = results s := by
  rw [State.processBlock, results_countBlock, results_mixBlock, results_writeBlock, results_applyParams]

/-- A command outside R39's list leaves the result registers. -/
theorem effect_results {i : Instr}
    (reads : ∀ ch k, i ≠ .dlRead ch k ∧ i ≠ .grainRead ch k ∧ i ≠ .mixSample ch k) (eval : i ≠ .grainEval)
    (phasor : ∀ v ch k, i ≠ .phSetfreq v ch ∧ i ≠ .phAdvance v ch ∧ i ≠ .voiceSample v ch k) (s : State) :
    results (effect i s) = results s := by
  cases i with
  | dlRead ch k | grainRead ch k | mixSample ch k => simpa using reads ch k
  | grainEval => exact absurd rfl eval
  | phSetfreq v ch | phAdvance v ch => simpa using phasor v ch 0
  | voiceSample v ch k => simpa using phasor v ch k
  | prepare => exact results_applyParams _ true
  | apply => exact results_applyParams s false
  | process n => exact results_processBlock s _
  | phReset v ch => exact results_setPhasors s v _
  | nop | dlWrite n => rfl

/-- A command outside R45's list for the phases leaves them. -/
theorem effect_ph {i : Instr} (hprep : i ≠ .prepare) (hproc : ∀ n, i ≠ .process n) (hmix : ∀ ch k, i ≠ .mixSample ch k)
    (phasor : ∀ v ch k, i ≠ .phReset v ch ∧ i ≠ .phAdvance v ch ∧ i ≠ .voiceSample v ch k) (s : State) (v : Voice)
    (c : Nat) : ((effect i s).phasorAt v c).ph = (s.phasorAt v c).ph := by
  cases i with
  | prepare => exact absurd rfl hprep
  | process n => exact absurd rfl (hproc n)
  | mixSample ch k => exact absurd rfl (hmix ch k)
  | phReset u ch | phAdvance u ch => simpa using phasor u ch 0
  | voiceSample u ch k => simpa using phasor u ch k
  | apply => exact ph_applyParams s false v c
  | phSetfreq u ch => exact ph_setInc s u v ch c _
  | nop | dlWrite n | dlRead ch k | grainEval | grainRead ch k => rfl

/-- A command outside R45's list for the increments leaves them. -/
theorem effect_inc {i : Instr} (hprep : i ≠ .prepare) (happly : i ≠ .apply) (hproc : ∀ n, i ≠ .process n)
    (hfreq : ∀ v ch, i ≠ .phSetfreq v ch) (s : State) (v : Voice) (c : Nat) :
    ((effect i s).phasorAt v c).inc = (s.phasorAt v c).inc := by
  cases i with
  | prepare => exact absurd rfl hprep
  | apply => exact absurd rfl happly
  | process n => exact absurd rfl (hproc n)
  | phSetfreq u ch => exact absurd rfl (hfreq u ch)
  | phAdvance u ch | phReset u ch | voiceSample u ch k => exact inc_setPh s u v ch c _
  | mixSample ch k => exact (inc_setPh _ .two v ch c _).trans (inc_setPh s .one v ch c _)
  | nop | dlWrite n | dlRead ch k | grainEval | grainRead ch k => rfl

/-- A command outside R48's list leaves the delay RAM. -/
theorem effect_dl {i : Instr} (hprep : i ≠ .prepare) (hblock : ∀ n, i ≠ .process n ∧ i ≠ .dlWrite n) (s : State) :
    (effect i s).dl = s.dl := by
  cases i with
  | prepare => exact absurd rfl hprep
  | process n | dlWrite n => simpa using hblock n
  | phSetfreq v ch | phAdvance v ch | phReset v ch | voiceSample v ch k | mixSample ch k | apply =>
    simp [effect, State.setFrequency, State.advancePhase, State.sampleVoice, State.sampleMix]
  | nop | dlRead ch k | grainEval | grainRead ch k => rfl

/-- Every command but PROCESS leaves the I/O buffer (R47). -/
theorem effect_iobuf {i : Instr} (hproc : ∀ n, i ≠ .process n) (s : State) : (effect i s).iobuf = s.iobuf := by
  cases i with
  | process n => exact absurd rfl (hproc n)
  | prepare => exact State.applyParams_iobuf _ true
  | phSetfreq v ch | phAdvance v ch | phReset v ch | voiceSample v ch k | mixSample ch k | apply =>
    simp [effect, State.setFrequency, State.advancePhase, State.sampleVoice, State.sampleMix]
  | nop | dlWrite n | dlRead ch k | grainEval | grainRead ch k => rfl

/-! ### The obligations about every command -/

/-- Settles O20: the codes are the table's, and a command with no error has its effect, which leaves the three flags. -/
theorem errorCodesAreTheTableAndNoOthersAreReported : Obligations.ErrorCodesAreTheTableAndNoOthersAreReported :=
  ⟨⟨rfl, rfl, rfl, rfl, rfl, rfl, rfl⟩, fun i s noError => ⟨_, exec_of_commandError_none noError, effect_errors i s⟩⟩

/-- Settles O58: an erring command leaves every store, and the effect of one that does not err leaves each store that its
rule does not name. -/
theorem onlyTheNamedCommandsWriteEachStore : Obligations.OnlyTheNamedCommandsWriteEachStore := by
  intro i s t run
  cases h : commandError i s with
  | some e =>
    cases (exec_of_commandError_some h).symm.trans run
    exact ⟨⟨rfl, rfl, rfl, rfl, rfl, rfl, rfl, rfl, rfl⟩, fun _ _ _ => ⟨rfl, rfl, rfl⟩, fun _ _ _ _ _ _ => rfl,
      fun _ _ _ _ _ _ => rfl, fun _ _ => rfl, fun _ => rfl⟩
  | none =>
    cases (exec_of_commandError_none h).symm.trans run
    have host := effect_hostSide i s
    simp only [hostSide, Prod.mk.injEq] at host
    refine ⟨host, fun reads eval phasor => ?_, fun hprep hproc hmix phasor => effect_ph hprep hproc hmix phasor s,
      fun hprep happly hproc hfreq => effect_inc hprep happly hproc hfreq s, fun hprep hblock => effect_dl hprep hblock s,
      fun hproc => effect_iobuf hproc s⟩
    have kept := effect_results reads eval phasor s
    simpa only [results, Prod.mk.injEq] using kept

/-! ### The engine's step (R106, R222) -/

/-- The engine's step goes on, empties `PENDING`, sets `DONE` and takes no input. -/
theorem engineStep_completes (p : Pending) (s : State) :
    ∃ t, engineStep p s = .next t ∧ t.pending = none ∧ t.status.done = true ∧ t.events = s.events := by
  obtain ⟨_, -, illegal⟩ | ⟨_, _, -, -, erring⟩ | ⟨i, -, -, done⟩ := engineStep_cases p s
  · exact ⟨_, illegal, rfl, rfl, rfl⟩
  · exact ⟨_, erring, rfl, rfl, rfl⟩
  · exact ⟨_, done, rfl, rfl, effect_events i s⟩

/-- Settles O22: the engine's turn is the decoded command and the handshake. -/
theorem stepRunsTheDecodedCommand : Obligations.StepRunsTheDecodedCommand := by
  intro s rest p i t turn pending legal run
  rw [step_of_engineNext turn pending, engineStep_of_decode legal, run]
  rfl

/-- Settles O57: a command records its error or has its effect, and each kind of step names its next state. -/
theorem everyStepGoesOn : Obligations.EveryStepGoesOn := by
  refine ⟨fun i s => ?_, fun s => ?_⟩
  · cases h : commandError i s with
    | some e => exact ⟨_, exec_of_commandError_some h⟩
    | none => exact ⟨_, exec_of_commandError_none h⟩
  · obtain ⟨-, -, idle⟩ | ⟨a, rest, -, access⟩ | ⟨rest, -, -, poll⟩ | ⟨rest, -, reset⟩ | ⟨rest, -, -, idle⟩ |
      ⟨p, rest, -, -, engine⟩ := step_cases s
    · exact ⟨_, idle⟩
    · exact ⟨_, access⟩
    · exact ⟨_, poll⟩
    · exact ⟨_, reset⟩
    · exact ⟨_, idle⟩
    · obtain ⟨t, run, -, -, -⟩ := engineStep_completes p { s with events := rest }
      exact ⟨t, engine.trans run⟩

/-! ### `STATUS.PREPARED` (R35) -/

theorem hostWrite_prepared (t : Status) (w : Word) : (t.hostWrite w).prepared = t.prepared := by
  rw [Status.hostWrite]
  split <;> rfl

theorem issue_prepared (s : State) (w : Word) : (s.issue w).status.prepared = s.status.prepared := by
  rw [State.issue]
  split <;> rfl

theorem writeLoc_prepared (s : State) (w : Word) (l : Loc) : (s.writeLoc w l).status.prepared = s.status.prepared := by
  cases l with
  | reg r =>
    cases r with
    | cmd => exact issue_prepared s w
    | status => exact hostWrite_prepared s.status w
    | _ => rfl
  | ph v c | inc v c | buffer off => rfl

/-- No host access reaches `PREPARED`. -/
theorem hostAccess_prepared (a : Access) (s : State) : (hostAccess a s).status.prepared = s.status.prepared := by
  obtain ⟨r, access⟩ | ⟨off, size, w, t, written, access⟩ := hostAccess_cases a s
  · rw [access]
  · obtain ⟨l, -, rfl⟩ := memWrite_eq_ok written
    rw [access]
    exact writeLoc_prepared s w l

/-- The engine's step changes `PREPARED` only by a PREPARE that succeeds, which sets it. -/
theorem engineStep_prepared {p : Pending} {s t : State} (run : engineStep p s = .next t) :
    t.status.prepared = s.status.prepared ∨
      (decode p.word = .ok .prepare ∧ commandError .prepare s = none ∧ t.status.prepared = true) := by
  obtain ⟨_, -, illegal⟩ | ⟨_, _, -, -, erring⟩ | ⟨i, legal, noError, done⟩ := engineStep_cases p s
  · cases illegal.symm.trans run
    exact .inl rfl
  · cases erring.symm.trans run
    exact .inl rfl
  · cases done.symm.trans run
    by_cases h : i = .prepare
    · subst h
      exact .inr ⟨legal, noError, effect_prepare_prepared s⟩
    · exact .inl (effect_prepared_of_ne h s)

/-- What a step does to `PREPARED`: nothing, or it is a PREPARE that succeeds and sets it, or a reset that clears it. -/
theorem step_prepared {s t : State} (run : step s = .next t) :
    t.status.prepared = s.status.prepared ∨
    ((∃ p, s.pending = some p ∧ decode p.word = .ok .prepare ∧ commandError .prepare s = none) ∧
      t.status.prepared = true) ∨
    ((∃ rest, s.events = .reset :: rest ∨ ∃ a, s.events = .resetDuring a :: rest) ∧ t.status.prepared = false) := by
  obtain ⟨-, -, idle⟩ | ⟨a, rest, -, access⟩ | ⟨rest, -, -, poll⟩ | ⟨rest, event, reset⟩ | ⟨rest, -, -, idle⟩ |
    ⟨p, rest, pending, -, engine⟩ := step_cases s
  · cases idle.symm.trans run
    exact .inl rfl
  · cases access.symm.trans run
    exact .inl (hostAccess_prepared a { s with events := rest })
  · cases poll.symm.trans run
    exact .inl (hostAccess_prepared (.read 0x018 4) { s with events := rest })
  · cases reset.symm.trans run
    exact .inr (.inr ⟨⟨rest, event⟩, rfl⟩)
  · cases idle.symm.trans run
    exact .inl rfl
  · obtain kept | ⟨legal, noError, set⟩ := engineStep_prepared (engine.symm.trans run)
    · exact .inl kept
    · exact .inr (.inl ⟨⟨p, pending, legal, noError⟩, set⟩)

/-- Settles O60, by what a step can do to the flag. -/
theorem onlyPreparePreparesAndOnlyResetUnprepares : Obligations.OnlyPreparePreparesAndOnlyResetUnprepares := by
  intro s t run
  obtain kept | ⟨prepare, set⟩ | ⟨reset, cleared⟩ := step_prepared run
  · exact ⟨fun before after => (nomatch before.symm.trans (kept.symm.trans after)),
      fun before after => (nomatch before.symm.trans (kept.symm.trans after))⟩
  · exact ⟨fun _ _ => prepare, fun _ after => (nomatch set.symm.trans after)⟩
  · exact ⟨fun _ after => (nomatch cleared.symm.trans after), fun _ _ => reset⟩

end Sys2Proof.Proofs
end

section
/-! PROOF. The invariant of the machine (R40 to R42, R54, R221, R222): what each command's effect, the handshake and the
reset do to it, then the two obligations. -/

namespace Sys2Proof.Proofs

open Sys2Proof.Machine Sys2Proof.Laws Sys2Proof.Claims

/-! ### What a command whose checks pass may assume (R224) -/

/-- Every command but NOP and PREPARE runs in a prepared session. -/
theorem prepared_of_noError {i : Instr} {s : State} (noError : commandError i s = none) (hnop : i ≠ .nop)
    (hprep : i ≠ .prepare) : s.status.prepared = true := by
  by_contra unprepared
  rw [Bool.not_eq_true] at unprepared
  cases i with
  | nop => exact hnop rfl
  | prepare => exact hprep rfl
  | _ => simp [commandError, unprepared] at noError

/-- A block command's length fits the session. -/
theorem blockLen_le_of_noError {i : Instr} {n : Nat} {s : State} (block : i = .process n ∨ i = .dlWrite n)
    (noError : commandError i s = none) : s.blockLen n ≤ s.blockSize.toNat := by
  have prepared : s.status.prepared = true :=
    prepared_of_noError noError (by rintro rfl; simp at block) (by rintro rfl; simp at block)
  refine badLen_eq_none.1 ?_
  rw [badLen_eq]
  obtain rfl | rfl := block <;> simpa [commandError, prepared] using noError

theorem config_of_noError {s : State} (noError : commandError .prepare s = none) :
    isFinitePos s.cmdArgs.a0 = true ∧ 1 ≤ s.cmdArgs.a1.toNat ∧ s.cmdArgs.a1.toNat ≤ s.hw.bmax :=
  badConfig_eq_none.1 ((badConfig_eq s _ _).trans noError)

/-! ### The invariant through a command's effect -/

/-- Result registers and `CLAMP_DELAY` play no part in the invariant. -/
theorem inv_of_results {s t : State} (inv : s.Inv) (prepared : s.status.prepared = true)
    (h : t = { s with
      res0 := t.res0, res1 := t.res1, res2 := t.res2
      status := { s.status with clampDelay := t.status.clampDelay } }) : t.Inv := by
  rw [h]
  exact inv_streams inv prepared (fun v => by cases v <;> rfl) rfl inv.stores.iobufWf inv.stores.iobufIn
    (errOk_of inv.errors rfl rfl) prepared

/-- Phasors may be set to any words while the file keeps its length. -/
theorem inv_setPhasors {s : State} (inv : s.Inv) (prepared : s.status.prepared = true) (v : Voice) {l : List Phasor}
    (length : l.length = (s.phasors v).length) : (s.setPhasors v l).Inv := by
  have lengths (u : Voice) : ((s.setPhasors v l).phasors u).length = (s.phasors u).length := by
    rw [State.setPhasors_phasors]
    split
    · next same => rw [same, length]
    · rfl
  refine inv_streams inv prepared lengths ?_ ?_ ?_ ?_ ?_
  · cases v <;> rfl
  · simpa using inv.stores.iobufWf
  · simpa using inv.stores.iobufIn
  · simpa using inv.errors
  · simpa using prepared

theorem inv_setPh {s : State} (inv : s.Inv) (prepared : s.status.prepared = true) (v : Voice) (c : Nat) (w : Word) :
    (s.setPh v c w).Inv :=
  inv_setPhasors inv prepared v List.length_set

theorem inv_setInc {s : State} (inv : s.Inv) (prepared : s.status.prepared = true) (v : Voice) (c : Nat) (w : Word) :
    (s.setInc v c w).Inv :=
  inv_setPhasors inv prepared v List.length_set

/-- PREPARE opens a session within the ranges of R40 to R42. -/
theorem inv_prepare {s : State} (inv : s.Inv) {a : Args} (rate : isFinitePos a.a0 = true) (positive : 1 ≤ a.a1.toNat)
    (block : a.a1.toNat ≤ s.hw.bmax) : ((s.openSession a).applyParams true).Inv := by
  obtain ⟨fits, -⟩ := bounds_of_legal inv.params
  obtain ⟨capMin, capMax⟩ := capacity_range a.a0 a.a2 ((Nat.succ_le_succ block).trans fits)
  rw [← cap_openSession_toNat inv.params block] at capMin capMax
  have stores : (s.openSession a).StoresOk := ⟨inv.stores.iobufWf, inv.stores.iobufIn, Memory.wf_nil, nofun⟩
  exact inv_applyParams true inv.params ((length_openSession s a .one).trans inv.file1)
    ((length_openSession s a .two).trans inv.file2) stores (errOk_of inv.errors rfl rfl) rfl rate positive block capMin
    capMax (Nat.zero_lt_of_lt capMin) (Nat.zero_le _)

/-- Every command whose checks pass keeps the invariant. -/
theorem inv_effect {i : Instr} {s : State} (inv : s.Inv) (noError : commandError i s = none) : (effect i s).Inv := by
  have prepared := prepared_of_noError noError
  cases i with
  | nop => exact inv
  | prepare =>
    obtain ⟨rate, positive, block⟩ := config_of_noError noError
    exact inv_prepare inv rate positive block
  | apply => exact inv_latch inv (prepared nofun nofun)
  | process n =>
    exact inv_processBlock s inv (prepared nofun nofun) _ (blockLen_le_of_noError (.inl rfl) noError)
  | dlWrite n => exact inv_writeBlock _ inv (prepared nofun nofun) (blockLen_le_of_noError (.inr rfl) noError)
  | dlRead ch k | grainEval | grainRead ch k => exact inv_of_results inv (prepared nofun nofun) rfl
  | phSetfreq v ch =>
    have prepared := prepared nofun nofun
    exact inv_of_results (inv_setInc inv prepared v ch _) (by simpa using prepared) rfl
  | phAdvance v ch | voiceSample v ch k =>
    have prepared := prepared nofun nofun
    exact inv_of_results (inv_setPh inv prepared v ch _) (by simpa using prepared) rfl
  | phReset v ch => exact inv_setPh inv (prepared nofun nofun) v ch _
  | mixSample ch k =>
    have prepared := prepared nofun nofun
    have one : (s.stepPhase .one ch).Inv := inv_setPh inv prepared .one ch _
    have two : (s.stepBoth ch).Inv := inv_setPh one (by simpa using prepared) .two ch _
    exact inv_of_results two (by simpa using prepared) rfl

/-! ### The invariant through a step -/

theorem inv_with_events {s : State} (inv : s.Inv) (rest : List Event) : ({ s with events := rest } : State).Inv :=
  inv_host_fields inv rfl inv.stores.iobufWf inv.stores.iobufIn inv.errors rfl

theorem inv_complete {s : State} (inv : s.Inv) : s.complete.Inv :=
  inv_host_fields inv rfl inv.stores.iobufWf inv.stores.iobufIn (errOk_of inv.errors rfl rfl) rfl

theorem inv_engineStep {p : Pending} {s t : State} (inv : s.Inv) (run : engineStep p s = .next t) : t.Inv := by
  obtain ⟨_, -, illegal⟩ | ⟨_, _, -, -, erring⟩ | ⟨i, -, noError, done⟩ := engineStep_cases p s
  · cases illegal.symm.trans run
    exact inv_complete (inv_recordError inv _)
  · cases erring.symm.trans run
    exact inv_complete (inv_recordError inv _)
  · cases done.symm.trans run
    exact inv_complete (inv_effect inv noError)

/-- A reset leads into the invariant from any legal parameters and sound memories: every register is blank. -/
theorem inv_afterReset {s : State} (legal : s.hw.legal = true) (stores : s.StoresOk) : s.afterReset.Inv where
  params := legal
  file1 := List.length_replicate
  file2 := List.length_replicate
  stores := ⟨stores.iobufWf, stores.iobufIn, stores.dlWf, stores.dlIn⟩
  errors := ⟨⟨fun _ => rfl, fun _ => rfl⟩, Nat.zero_le 7⟩
  session := nofun
  blank _ := ⟨⟨rfl, rfl, rfl, rfl, rfl, rfl⟩, ⟨rfl, rfl, rfl, rfl, rfl⟩, afterReset_phasorAt s, rfl⟩

/-- Settles O55: the state after power-on is what a reset leaves, with legal parameters and empty memories. -/
theorem invariantHoldsAtReset : Obligations.InvariantHoldsAtReset := by
  rw [Obligations.InvariantHoldsAtReset, reset_eq_afterReset]
  exact inv_afterReset (by decide) ⟨Memory.wf_nil, nofun, Memory.wf_nil, nofun⟩

/-- Settles O56, a lemma a kind of step: the host's accesses, the reset, and the engine's step by `inv_effect`. -/
theorem stepKeepsTheInvariant : Obligations.StepKeepsTheInvariant := by
  intro s t inv run
  obtain ⟨-, -, idle⟩ | ⟨a, rest, -, access⟩ | ⟨rest, -, -, poll⟩ | ⟨rest, -, reset⟩ | ⟨rest, -, -, idle⟩ |
    ⟨p, rest, -, -, engine⟩ := step_cases s
  · cases idle.symm.trans run
    exact inv
  · cases access.symm.trans run
    exact inv_hostAccess (inv_with_events inv rest) a
  · cases poll.symm.trans run
    exact inv_hostAccess (inv_with_events inv rest) _
  · cases reset.symm.trans run
    exact inv_afterReset inv.params (inv_with_events inv rest).stores
  · cases idle.symm.trans run
    exact inv_with_events inv rest
  · exact inv_engineStep (inv_with_events inv rest) (engine.symm.trans run)

end Sys2Proof.Proofs
end

section
/-! PROOF. The phasor file and `STATUS` as the host sees them (10_state.md: R35, R45), and the handshake and the parameters
as the two agents' order makes them (20_memory.md: R83, R84, R106): the rules, then the four obligations. -/

namespace Sys2Proof.Proofs

open Sys2Proof.Machine Sys2Proof.Claims

/-! ### The phasor file (R45) -/

theorem nch_le_of_legal {p : Params} (h : p.legal = true) : p.nch ≤ 16 := by
  simp only [Params.legal, Bool.and_eq_true, decide_eq_true_eq] at h
  omega

/-- The offset of `PH[v][c]`; that of `INC[v][c]` is four bytes on. -/
def phasorOffset (v : Voice) (c : Nat) : Nat := 0x100 + 0x80 * (if v = .two then 1 else 0) + 8 * c

/-- The two words of a phasor, and of no other, stand at its offset. -/
theorem target_phasorOffset {s : State} (legal : s.hw.legal = true) (v : Voice) {c : Nat} (hc : c < s.hw.nch) :
    s.target (phasorOffset v c) 4 = .ok (.ph v c) ∧ s.target (phasorOffset v c + 4) 4 = .ok (.inc v c) := by
  have small : c < 16 := hc.trans_le (nch_le_of_legal legal)
  have place : (phasorOffset v c = 0x100 + 8 * c ∧ v = .one) ∨ (phasorOffset v c = 0x180 + 8 * c ∧ v = .two) := by
    cases v
    · exact .inl ⟨rfl, rfl⟩
    · exact .inr ⟨rfl, rfl⟩
  have channel : (phasorOffset v c % 0x80) / 8 = c ∧ ((phasorOffset v c + 4) % 0x80) / 8 = c := by omega
  rw [target_phasor s (by omega) (by omega) (by omega), target_phasor s (by omega) (by omega) (by omega), channel.1,
    channel.2, if_pos hc, if_pos hc]
  unfold phasorLoc
  rw [channel.1, channel.2, if_pos (by omega : phasorOffset v c % 8 = 0),
    if_neg (by omega : ¬(phasorOffset v c + 4) % 8 = 0)]
  obtain ⟨offset, rfl⟩ | ⟨offset, rfl⟩ := place
  · rw [if_pos (by omega), if_pos (by omega)]
    exact ⟨rfl, rfl⟩
  · rw [if_neg (by omega), if_neg (by omega)]
    exact ⟨rfl, rfl⟩

/-- Settles O13: each offset reaches its word of the file, and a write to the file is ignored. -/
theorem phasorFileIsReadableAndReadOnly : Obligations.PhasorFileIsReadableAndReadOnly := by
  intro s v c legal hc
  obtain ⟨ph, inc⟩ := target_phasorOffset legal v hc
  exact ⟨memRead_of_target ph, memRead_of_target inc, fun w => ⟨memWrite_of_target ph, memWrite_of_target inc⟩⟩

/-! ### `STATUS` (R35) -/

/-- The low byte of `STATUS`, flag by flag. -/
theorem statusWord_flags (s : State) :
    s.statusWord.getLsbD 0 = s.busy ∧ s.statusWord.getLsbD 1 = s.status.done ∧
    s.statusWord.getLsbD 2 = s.status.err ∧ s.statusWord.getLsbD 3 = s.status.prepared ∧
    s.statusWord.getLsbD 4 = s.status.clampWin ∧ s.statusWord.getLsbD 5 = s.status.clampSemi ∧
    s.statusWord.getLsbD 6 = s.status.clampDelay ∧ s.statusWord.getLsbD 7 = s.status.clampCap := by
  simp only [State.statusWord, BitVec.getLsbD_append, BitVec.getLsbD_ofBool]
  simp

/-- `ERRCODE` in bits 15:8, zero above. -/
theorem statusWord_fields (s : State) :
    s.statusWord.extractLsb' 8 8 = s.status.errcode ∧ s.statusWord.extractLsb' 16 16 = 0#16 := by
  constructor
  · refine BitVec.eq_of_getLsbD_eq fun i hi => ?_
    simp only [State.statusWord, BitVec.getLsbD_extractLsb', BitVec.getLsbD_append]
    interval_cases i <;> rfl
  · refine BitVec.eq_of_getLsbD_eq fun i hi => ?_
    simp only [State.statusWord, BitVec.getLsbD_extractLsb', BitVec.getLsbD_append]
    interval_cases i <;> rfl

/-- A write to `STATUS` clears each flag that is written 1, `ERRCODE` with `ERR`, and nothing else. -/
theorem hostWrite_eq (t : Status) (w : Word) : t.hostWrite w =
    { done := t.done && !w.getLsbD 1
      err := t.err && !w.getLsbD 2
      prepared := t.prepared
      clampWin := t.clampWin && !w.getLsbD 4
      clampSemi := t.clampSemi && !w.getLsbD 5
      clampDelay := t.clampDelay && !w.getLsbD 6
      clampCap := t.clampCap && !w.getLsbD 7
      errcode := if w.getLsbD 2 = true then 0#8 else t.errcode } := by
  rw [Status.hostWrite]
  split
  · next bit => rw [bit, Bool.not_true, Bool.and_false]; rfl
  · next bit => rw [Bool.eq_false_iff.2 bit, Bool.not_false, Bool.and_true]

/-- Settles O14: a read gives the word of the flags, and a write changes `STATUS` alone. -/
theorem statusReadsFlagsAndWriteOneClears : Obligations.StatusReadsFlagsAndWriteOneClears := by
  intro s w
  obtain ⟨busy, done, err, prepared, win, semi, delay, cap⟩ := statusWord_flags s
  obtain ⟨errcode, above⟩ := statusWord_fields s
  exact ⟨s.statusWord, _, memRead_reg s .status rfl, memWrite_reg s w .status rfl, busy, done, err, prepared, win, semi,
    delay, cap, errcode, above, rfl, hostWrite_eq s.status w⟩

/-! ### The two agents in turn (R83, R84) -/

theorem step_of_access {s : State} {a : Access} {rest : List Event} (turn : s.events = .access a :: rest) :
    step s = .next (hostAccess a { s with events := rest }) := by
  rw [step, stepMachine, turn]; rfl

/-- A write taken by a register is the register's write and the response. -/
theorem hostAccess_write_reg (s : State) (w : Word) {off : Nat} (r : Reg) (h : regAt off = some r) :
    hostAccess (.write off 4 w) s = { s.writeReg w r with response := .written } := by
  rw [hostAccess, memWrite_reg s w r h]

/-- While a command is pending, a waiting host gives the engine its turn (R110). -/
theorem step_of_wait_pending {s : State} {p : Pending} {rest : List Event} (turn : s.events = .wait :: rest)
    (pending : s.pending = some p) : step s = engineStep p s :=
  step_of_engineNext (.inr (.inr ⟨by rw [State.busy, pending]; rfl, ⟨rest, turn⟩, rfl⟩)) pending

/-- A `wait` while nothing is pending ends with a read of `STATUS` (R110). -/
theorem step_of_wait_idle {s : State} {rest : List Event} (turn : s.events = .wait :: rest) (idle : s.pending = none) :
    step s = .next { s with events := rest, response := .data s.statusWord } := by
  have read : memRead 0x018 4 { s with events := rest } = .ok s.statusWord := memRead_reg _ .status rfl
  have notBusy : ¬s.busy = true := by rw [State.busy, idle]; nofun
  rw [step, stepMachine, turn]
  simp only [takeEvent, if_neg notBusy, pollStatus, hostAccess, read]

/-- Settles O24: the write is accepted, the waiting host gives the engine its turn, and the last poll reads a completed
command. -/
theorem waitReturnsAfterTheCommand : Obligations.WaitReturnsAfterTheCommand := by
  intro s w idle events
  have issue := step_of_access events
  rw [hostAccess_write_reg _ w .cmd rfl, State.writeReg, issue_of_idle (s := { s with events := [.wait] }) idle] at issue
  obtain ⟨b, run, pending, done, inputs⟩ := engineStep_completes ⟨w, s.args⟩ { s with
    events := [.wait], pending := some ⟨w, s.args⟩, status := { s.status with done := false }, response := .written }
  have engine := (step_of_wait_pending rfl rfl).trans run
  have poll := step_of_wait_idle inputs pending
  obtain ⟨busyBit, doneBit, -⟩ := statusWord_flags b
  exact ⟨_, b, _, b.statusWord, issue, engine, poll, rfl, pending, rfl, by rw [busyBit, State.busy, pending]; rfl,
    doneBit.trans done⟩

theorem semi1Eff_apply (s : State) : (effect .apply s).semi1Eff = (clampSemi s.semi1).1 :=
  applyParams_semiEff s false .one

/-- The engine's step on APPLY in a prepared session latches the transposition that `SEMI1` holds at that step (R210). -/
theorem step_of_apply {s : State} {rest : List Event} {p : Pending} (turn : EngineNext s rest)
    (prepared : s.status.prepared = true) (pending : s.pending = some p) (legal : decode p.word = .ok .apply) :
    ∃ t, step s = .next t ∧ t.semi1 = s.semi1 ∧ t.semi1Eff = (clampSemi s.semi1).1 ∧ t.events = rest := by
  have noError : commandError .apply { s with events := rest } = none := by simp [commandError, prepared]
  rw [step_of_engineNext turn pending, engineStep_of_decode legal, exec_of_commandError_none noError]
  refine ⟨_, rfl, ?_, ?_, ?_⟩
  · rw [State.complete_semi1, effect_semi1]
  · rw [State.complete_semi1Eff, semi1Eff_apply]
  · rw [State.complete_events, effect_events]

/-- Settles O25: APPLY latches what `SEMI1` holds at its step, and the write sets `SEMI1` and no effective parameter. -/
theorem parameterSeenExactlyIfWrittenBeforeTheStep : Obligations.ParameterSeenExactlyIfWrittenBeforeTheStep := by
  intro s p w prepared pending legal
  refine ⟨fun events => ?_, fun events => ?_⟩
  · have write := step_of_access events
    rw [hostAccess_write_reg _ w .semi1 rfl] at write
    obtain ⟨b, run, semi, eff, -⟩ := step_of_apply (s := { s with events := [.engine], semi1 := w, response := .written })
      (.inl rfl) prepared pending legal
    exact ⟨_, b, write, run, semi, eff⟩
  · obtain ⟨a, run, -, eff, inputs⟩ := step_of_apply (.inl events) prepared pending legal
    have write := step_of_access inputs
    rw [hostAccess_write_reg _ w .semi1 rfl] at write
    exact ⟨a, _, run, write, rfl, eff⟩

end Sys2Proof.Proofs
end

section
/-! PROOF. The commands on phasors, delays and grains (41 to 45: R131, R141 to R143, R151 to R158, R171 to R175, R180 to
R183): the checks they pass, the rules about a phasor's steps and about one output sample, then the ten obligations. -/

namespace Sys2Proof.Proofs

open Sys2Proof.Machine Sys2Proof.Claims

/-! ### Checks that pass (R224) -/

theorem length_phasors {s : State} (inv : s.Inv) (v : Voice) : (s.phasors v).length = s.hw.nch := by
  cases v with
  | one => exact inv.file1
  | two => exact inv.file2

/-- The three phasor commands make one check beside `PREPARED`. -/
theorem noError_of_channel {s : State} {ch : Nat} (v : Voice) (prepared : s.status.prepared = true)
    (channel : ch < s.hw.nch) : commandError (.phReset v ch) s = none := by
  simp [commandError, prepared, channel]

/-- So do the four commands that read at a channel and an index. -/
theorem noError_of_indexed {s : State} {ch k : Nat} (h : Indexed s ch k) : commandError (.dlRead ch k) s = none := by
  obtain ⟨-, prepared, channel, index⟩ := h
  simp [commandError, prepared, channel, index]

theorem exec_phSetfreq_of_channel {s : State} {ch : Nat} (v : Voice) (prepared : s.status.prepared = true)
    (channel : ch < s.hw.nch) : exec (.phSetfreq v ch) s = .next (s.setFrequency v ch s.cmdArgs.a0) :=
  exec_of_commandError_none (noError_of_channel v prepared channel)

theorem exec_phAdvance_of_channel {s : State} {ch : Nat} (v : Voice) (prepared : s.status.prepared = true)
    (channel : ch < s.hw.nch) : exec (.phAdvance v ch) s = .next (s.advancePhase v ch) :=
  exec_of_commandError_none (noError_of_channel v prepared channel)

theorem exec_phReset_of_channel {s : State} {ch : Nat} (v : Voice) (prepared : s.status.prepared = true)
    (channel : ch < s.hw.nch) : exec (.phReset v ch) s = .next (s.setPh v ch s.cmdArgs.a0) :=
  exec_of_commandError_none (noError_of_channel v prepared channel)

theorem exec_grainEval_of_prepared {s : State} (prepared : s.status.prepared = true) :
    exec .grainEval s = .next (s.evalGrain s.cmdArgs.a0) :=
  exec_of_commandError_none (by simp [commandError, prepared])

theorem exec_grainRead_of_indexed {s : State} {ch k : Nat} (h : Indexed s ch k) :
    exec (.grainRead ch k) s = .next { s with res0 := s.grain ch k s.cmdArgs.a0 } :=
  exec_of_commandError_none (noError_of_indexed h)

theorem exec_voiceSample_of_indexed {s : State} {ch k : Nat} (v : Voice) (h : Indexed s ch k) :
    exec (.voiceSample v ch k) s = .next (s.sampleVoice v ch k) :=
  exec_of_commandError_none (noError_of_indexed h)

theorem exec_mixSample_of_indexed {s : State} {ch k : Nat} (h : Indexed s ch k) :
    exec (.mixSample ch k) s = .next (s.sampleMix ch k) :=
  exec_of_commandError_none (noError_of_indexed h)

/-! ### The delay buffer and the interpolator (R131, R141 to R143) -/

/-- No byte outside the slots of the block changes. -/
theorem readByte_dl_writeBlock (s : State) (L : Nat) {a : Nat} (out : ∀ c < s.hw.nch, ∀ k < L,
    a < dlAddr s.hw c (s.writeSlot k) ∨ dlAddr s.hw c (s.writeSlot k) + 4 ≤ a) :
    (s.writeBlock L).dl.readByte a = s.dl.readByte a := by
  rw [State.writeBlock, copyBlock_eq_foldl]
  obtain ⟨-, -, kept⟩ := foldl_writeWord (fun x : Nat × Nat => dlAddr s.hw x.1 (s.writeSlot x.2))
    (fun _ x => s.iobufAt x.1 x.2) (List.range s.hw.nch ×ˢ List.range L) s.dl
  refine kept a fun x mem => ?_
  obtain ⟨hc, hk⟩ := List.mem_product.1 mem
  exact out _ (List.mem_range.1 hc) _ (List.mem_range.1 hk)

/-- Settles O32: the block write stores each sample in its slot, and a fold of word writes changes no other byte. -/
theorem delayWriteStoresTheBlock : Obligations.DelayWriteStoresTheBlock := by
  intro s n L block
  have write := exec_dlWrite_of_fits block
  obtain ⟨inv, prepared, -, fits⟩ := block
  have capPos : 0 < s.cap.toNat := Nat.zero_lt_of_lt (inv.session prepared).capMin
  exact ⟨_, write, rfl, widx_writeBlock_toNat L capPos, lastlen_writeBlock_toNat fits,
    fun c hc k hk => dlAt_writeBlock inv prepared fits hc hk, fun a out => readByte_dl_writeBlock s L out⟩

/-- Settles O34: no check fails, and the interpolator reads the two slots of R141. -/
theorem delayReadReturnsTheInterpolatedSample : Obligations.DelayReadReturnsTheInterpolatedSample := by
  intro s ch k indexed
  exact exec_of_commandError_none (noError_of_indexed indexed)

/-- Settles O37: up to `dmax` the age stays below the capacity, and the slot is that age behind the newest sample. -/
theorem readsStayInTheValidWindow : Obligations.ReadsStayInTheValidWindow := by
  intro s k d inv prepared index within
  obtain ⟨-, -, -, capMin, -, -, last, -, -⟩ := inv.session prepared
  have age : s.lastlen.toNat - 1 - k + d < s.cap.toNat := by omega
  exact ⟨age, readSlot_eq_mod 1 (by omega)⟩

/-! ### The phasor commands (R151 to R154, R158) -/

/-- Settles O39, by the rules about setting one increment. -/
theorem setFrequencyChangesOneIncrement : Obligations.SetFrequencyChangesOneIncrement := by
  intro s v ch inv prepared channel
  have inFile : ch < (s.phasors v).length := channel.trans_eq (length_phasors inv v).symm
  exact ⟨_, exec_phSetfreq_of_channel v prepared channel, rfl, phasorAt_setInc_self s v _ inFile,
    fun u c other => phasorAt_setInc_ne s _ other, by cases v <;> rfl⟩

/-- Settles O40, by the rules about one phasor step. -/
theorem advanceStepsOnePhase : Obligations.AdvanceStepsOnePhase := by
  intro s v ch inv prepared channel
  have inFile : ch < (s.phasors v).length := channel.trans_eq (length_phasors inv v).symm
  have stepped := phasorAt_stepPhase_self s v inFile
  have after : (s.advancePhase v ch).res1 = (s.phasorAt v ch).ph + (s.phasorAt v ch).inc := congrArg Phasor.ph stepped
  refine ⟨_, exec_phAdvance_of_channel v prepared channel, rfl, ?_, ?_,
    fun u c other => phasorAt_stepPhase_ne s other, by cases v <;> rfl⟩
  · rw [after, BitVec.toNat_add]
  · rw [after]
    exact stepped

/-- Settles O41, by the rules about setting one phase. -/
theorem phaseResetSetsOnePhase : Obligations.PhaseResetSetsOnePhase := by
  intro s v ch inv prepared channel
  have inFile : ch < (s.phasors v).length := channel.trans_eq (length_phasors inv v).symm
  exact ⟨_, exec_phReset_of_channel v prepared channel, phasorAt_setPh_self s v _ inFile,
    fun u c other => phasorAt_setPh_ne s _ other, by cases v <;> rfl⟩

/-- The phasor after `k` steps (R158). -/
theorem phasorAt_iterate_stepPhase (s : State) (v : Voice) {c : Nat} (h : c < (s.phasors v).length) (k : Nat) :
    ((fun u : State => u.stepPhase v c)^[k] s).phasorAt v c =
      ⟨(s.phasorAt v c).ph + BitVec.ofNat 32 k * (s.phasorAt v c).inc, (s.phasorAt v c).inc⟩ := by
  induction k generalizing s with
  | zero => simp
  | succ k ih =>
    rw [Function.iterate_succ_apply, ih _ (by rwa [phasors_length_stepPhase]), phasorAt_stepPhase_self s v h,
      BitVec.ofNat_add, BitVec.add_mul, BitVec.add_assoc, BitVec.add_comm (BitVec.ofNat 32 k * _)]
    congr 3
    exact (BitVec.one_mul _).symm

/-- `k` steps advance the phase by `k INC` modulo 2^32. -/
theorem toNat_add_ofNat_mul (P I : Word) (k : Nat) :
    (P + BitVec.ofNat 32 k * I).toNat = (P.toNat + k * I.toNat) % 2 ^ 32 := by
  rw [BitVec.toNat_add, BitVec.toNat_mul, BitVec.toNat_ofNat, Nat.mod_mul_mod, Nat.add_mod_mod]

/-- Settles O42, by induction over the steps. -/
theorem phaseAfterManySteps : Obligations.PhaseAfterManySteps := by
  intro s v c k inv channel
  dsimp only
  rw [phasorAt_iterate_stepPhase s v (channel.trans_eq (length_phasors inv v).symm)]
  refine ⟨toNat_add_ofNat_mul _ _ k, rfl, fun whole => ?_⟩
  have back : (s.phasorAt v c).ph + BitVec.ofNat 32 k * (s.phasorAt v c).inc = (s.phasorAt v c).ph := by
    refine BitVec.eq_of_toNat_eq ?_
    rw [toNat_add_ofNat_mul, Nat.add_mod, whole, Nat.add_zero, Nat.mod_mod, Nat.mod_eq_of_lt (BitVec.isLt _)]
  rw [back]

/-! ### The grain commands (R174, R175) -/

/-- Settles O43: each part of the delay fits its register, and the parts make up the whole. -/
theorem grainEvalReportsTheExactDelay : Obligations.GrainEvalReportsTheExactDelay := by
  intro s prepared
  have whole := grainInt_le_winSamples s s.cmdArgs.a0
  have res1 : (BitVec.ofNat 32 (s.grainInt s.cmdArgs.a0)).toNat = s.grainInt s.cmdArgs.a0 :=
    Nat.mod_eq_of_lt (whole.trans_lt s.winSamples.isLt)
  have res2 : (BitVec.ofNat 32 (s.grainFrac s.cmdArgs.a0)).toNat = s.grainFrac s.cmdArgs.a0 :=
    Nat.mod_eq_of_lt (grainFrac_lt s _)
  refine ⟨_, exec_grainEval_of_prepared prepared, rfl, ?_, ?_, rfl⟩
  · rw [State.evalGrain, res1, res2]
    exact Nat.div_add_mod' (s.grainD s.cmdArgs.a0) (2 ^ 32)
  · rw [State.evalGrain, res1]
    exact whole

/-- Settles O45: no check fails, and the grain is R173's. -/
theorem grainReadReturnsTheShapedSample : Obligations.GrainReadReturnsTheShapedSample := by
  intro s ch k indexed
  exact exec_grainRead_of_indexed indexed

/-! ### One output sample (R180 to R183) -/

/-- The first voice's step changes nothing that the second voice reads. -/
theorem voiceValue_two_stepPhase_one (s : State) (c k : Nat) :
    (s.stepPhase .one c).voiceValue .two c k = s.voiceValue .two c k := by
  have grains (P : Word) : (s.stepPhase .one c).grain c k P = s.grain c k P :=
    grain_congr c k P ⟨by simp, by simp, by simp, by simp, by simp, by simp⟩
  rw [State.voiceValue, State.voiceValue, phasorAt_stepPhase_ne s (by simp), grains, grains]

/-- R182: both voices' contributions at the phases before the steps, added and trimmed. -/
theorem mixValue_eq (s : State) (c k : Nat) :
    s.mixValue c k = mul32 (add32 (s.voiceValue .one c k) (s.voiceValue .two c k)) trim := by
  rw [State.mixValue, voiceValue_two_stepPhase_one]

/-- Settles O46: the two grains at the phase before the step, and one step of that phasor. -/
theorem voiceSampleSumsTwoGrains : Obligations.VoiceSampleSumsTwoGrains := by
  intro s v ch k indexed
  have inFile : ch < (s.phasors v).length := indexed.channel.trans_eq (length_phasors indexed.inv v).symm
  exact ⟨_, exec_voiceSample_of_indexed v indexed, rfl, rfl, phasorAt_stepPhase_self s v inFile,
    fun u c other => phasorAt_stepPhase_ne s other, by cases v <;> rfl⟩

/-- Settles O47: the mix of both voices, and one step of each phasor of the channel. -/
theorem mixSampleTrimsTheSumOfTheVoices : Obligations.MixSampleTrimsTheSumOfTheVoices := by
  intro s ch k indexed
  have inFile (v : Voice) : ch < (s.phasors v).length := indexed.channel.trans_eq (length_phasors indexed.inv v).symm
  exact ⟨_, exec_mixSample_of_indexed indexed, mixValue_eq s ch k,
    fun v => phasorAt_stepBoth_self s v (inFile .one) (inFile .two), fun v c other => phasorAt_stepBoth_ne s v other, rfl⟩

end Sys2Proof.Proofs
end

section
/-! PROOF. The block mix (45_dual_grain_mixer.md: R184, R185): the rules about an order of samples that takes each channel's
in turn, then the two obligations. -/

namespace Sys2Proof.Proofs

open Sys2Proof.Machine Sys2Proof.Laws Sys2Proof.Claims

/-! ### Orders that take each channel's samples in turn (R185) -/

/-- The order visits the samples 0 to `L - 1` of each channel below `nch`, once each and in increasing order, and no
other. -/
structure InTurn (order : List (Nat × Nat)) (nch L : Nat) : Prop where
  channels : ∀ x ∈ order, x.1 < nch
  samples : ∀ c < nch, (order.filter fun x => x.1 == c).map Prod.snd = List.range L

theorem inTurn_blockOrder (nch L : Nat) : InTurn (blockOrder nch L) nch L where
  channels x mem := by
    simp only [blockOrder, List.mem_flatMap, List.mem_map, List.mem_range] at mem
    obtain ⟨i, -, c, hc, rfl⟩ := mem
    exact hc
  samples _ hc := blockOrder_channel nch L hc

section Order

variable {order : List (Nat × Nat)} {nch L : Nat} (turns : InTurn order nch L)

include turns

theorem InTurn.visits_eq {c : Nat} (hc : c < nch) : visits order c = L := by
  rw [visits, ← List.length_map Prod.snd, turns.samples c hc, List.length_range]

theorem InTurn.index_lt {x : Nat × Nat} (mem : x ∈ order) : x.2 < L := by
  refine List.mem_range.1 (turns.samples x.1 (turns.channels x mem) ▸ List.mem_map.2 ⟨x, ?_, rfl⟩)
  exact List.mem_filter.2 ⟨mem, beq_self_eq_true x.1⟩

/-- Before sample `k` of a channel its turn has come `k` times, and after it the sample does not come again. -/
theorem InTurn.split {c k : Nat} (hc : c < nch) (hk : k < L) :
    ∃ before after, order = before ++ (c, k) :: after ∧ visits before c = k ∧ (c, k) ∉ after := by
  have visited : (c, k) ∈ order := by
    obtain ⟨⟨d, j⟩, visit, rfl⟩ := List.mem_map.1 (turns.samples c hc ▸ List.mem_range.2 hk)
    obtain ⟨mem, same⟩ := List.mem_filter.1 visit
    obtain rfl : d = c := beq_iff_eq.1 same
    exact mem
  obtain ⟨before, after, rfl⟩ := List.append_of_mem visited
  have parts := turns.samples c hc
  rw [List.filter_append, List.filter_cons_of_pos (by simp), List.map_append, List.map_cons] at parts
  refine ⟨before, after, rfl, ?_, fun again => ?_⟩
  · have at_turn : (List.range L)[visits before c]? = some k := by
      rw [← parts, visits, ← List.length_map Prod.snd, List.getElem?_append_right le_rfl, Nat.sub_self]
      rfl
    obtain ⟨_, same⟩ := List.getElem?_eq_some_iff.1 at_turn
    rwa [List.getElem_range] at same
  · have once := List.nodup_range (n := L)
    rw [← parts] at once
    refine (List.nodup_cons.1 once.of_append_right).1 (List.mem_map.2 ⟨(c, k), ?_, rfl⟩)
    exact List.mem_filter.2 ⟨again, beq_self_eq_true c⟩

end Order

/-! ### What the mix leaves, whatever the order (R184, R185) -/

section Mix

variable {s : State} {order : List (Nat × Nat)} {L : Nat} (inv : s.Inv) (small : L ≤ s.hw.bmax)
  (turns : InTurn order s.hw.nch L)

include inv turns

theorem phasorAt_mixOver_inTurn (v : Voice) {c : Nat} (hc : c < s.hw.nch) : (s.mixOver order).phasorAt v c =
    ⟨(s.phasorAt v c).ph + BitVec.ofNat 32 L * (s.phasorAt v c).inc, (s.phasorAt v c).inc⟩ := by
  rw [phasorAt_mixOver s order v (by rwa [inv.file1]) (by rwa [inv.file2]), turns.visits_eq hc]

include small

/-- Entry `k` of a channel holds the mix after `k` steps of the channel's phasors. -/
theorem iobufAt_mixOver_inTurn {c k : Nat} (hc : c < s.hw.nch) (hk : k < L) :
    (s.mixOver order).iobufAt c k = ((fun x : State => x.stepBoth c)^[k] s).mixValue c k := by
  obtain ⟨before, after, rfl, visited, once⟩ := turns.split hc hk
  have later : ∀ x ∈ after, x.2 < s.hw.bmax ∧ x ≠ (c, k) := fun x mem =>
    ⟨(turns.index_lt (List.mem_append_right _ (List.mem_cons_of_mem _ mem))).trans_le small,
      ne_of_mem_of_not_mem mem once⟩
  rw [iobufAt_mixOver inv.stores.iobufWf before after c k (hk.trans_le small) later,
    mixValue_mixOver s before k (by rwa [inv.file1]) (by rwa [inv.file2]), visited]

omit small inv in
/-- No byte outside the entries of the block changes. -/
theorem readByte_mixOver_inTurn {a : Nat} (out : ∀ c < s.hw.nch, ∀ k < L,
    a < iobufAddr s.hw c k ∨ iobufAddr s.hw c k + 4 ≤ a) : (s.mixOver order).iobuf.readByte a = s.iobuf.readByte a :=
  readByte_mixOver s fun x mem => out _ (turns.channels x mem) _ (turns.index_lt mem)

end Mix

/-- The block mix and the count: `BLKCNT` counts one, and but for the phasors and the I/O buffer nothing else changes. -/
theorem countBlock_mixBlock_frame (u : State) (L : Nat) : (u.mixBlock L).countBlock = { u with
    iobuf := (u.mixBlock L).iobuf, phasors1 := (u.mixBlock L).phasors1, phasors2 := (u.mixBlock L).phasors2
    blkcnt := u.blkcnt + 1#32 } := by
  obtain ⟨_, _, _, mix⟩ := mixBlock_frame u L
  rw [mix]
  rfl

/-- PROCESS of a block that fits is the block's effect. -/
theorem exec_process_of_fits {s : State} {n L : Nat} (h : BlockFits s n L) :
    exec (.process n) s = .next (s.processBlock L) := by
  obtain ⟨-, prepared, length, fits⟩ := h
  have noError : commandError (.process n) s = none := by simp [commandError, prepared, ← length, fits]
  have len : s.blockLen n = L := by rw [length, ite_not]; rfl
  rw [exec_of_commandError_none noError, effect, len]

/-- Settles O48: PROCESS mixes in the order of R184, which takes each channel's samples in turn. -/
theorem processMixesTheBlockInPlace : Obligations.ProcessMixesTheBlockInPlace := by
  intro s n L block
  have run := exec_process_of_fits block
  obtain ⟨inv, prepared, -, fits⟩ := block
  have latched : ((s.applyParams false).writeBlock L).Inv :=
    inv_writeBlock L (inv_latch inv prepared) ((applyParams_prepared s).trans prepared) (by rwa [applyParams_block])
  -- Rewritten step by step: `rfl` would have the kernel compute the parameter latch.
  have hw : ((s.applyParams false).writeBlock L).hw = s.hw := by
    rw [State.writeBlock_hw, State.applyParams_hw]
  have buffer : ((s.applyParams false).writeBlock L).iobuf = s.iobuf := by
    rw [State.writeBlock_iobuf, State.applyParams_iobuf]
  have count : ((s.applyParams false).writeBlock L).blkcnt = s.blkcnt := by
    rw [State.writeBlock_blkcnt, State.applyParams_blkcnt]
  rw [State.processBlock] at run
  generalize (s.applyParams false).writeBlock L = u at run latched hw buffer count ⊢
  have small : L ≤ u.hw.bmax := hw ▸ fits.trans (inv.session prepared).blockMax
  have turns := inTurn_blockOrder u.hw.nch L
  rw [← hw, ← buffer, ← count]
  refine ⟨_, run, countBlock_mixBlock_frame u L, ?_, ?_, ?_⟩
  · intro v c hc
    exact (mixBlock_eq u L ▸ phasorAt_mixOver_inTurn latched turns v hc :)
  · intro c hc k hk
    exact (mixBlock_eq u L ▸ iobufAt_mixOver_inTurn latched small turns hc hk :)
  · intro a out
    exact (mixBlock_eq u L ▸ readByte_mixOver_inTurn turns out :)

/-! ### Any order (R185) -/

/-- Lane `j` of a word in memory is the byte there (R72). -/
theorem laneOf_readWord (m : Memory) (a : Nat) : ∀ j < 4, laneOf (m.readWord a) j = m.readByte (a + j) := by
  intro j hj
  refine BitVec.eq_of_getLsbD_eq fun i hi => ?_
  simp only [laneOf, Memory.readWord, BitVec.getLsbD_extractLsb', BitVec.getLsbD_append, hi, decide_true, Bool.true_and]
  interval_cases j <;> interval_cases i <;> rfl

/-- The orders that take each channel's samples in turn leave the same I/O buffer: each entry of the block holds the same
sample, and no other byte changes. -/
theorem iobuf_mixOver_inTurn {s : State} {L : Nat} {order order' : List (Nat × Nat)} (inv : s.Inv)
    (small : L ≤ s.hw.bmax) (turns : InTurn order s.hw.nch L) (turns' : InTurn order' s.hw.nch L) :
    (s.mixOver order).iobuf = (s.mixOver order').iobuf := by
  refine Memory.ext_of_readByte (wf_mixOver inv.stores.iobufWf _) (wf_mixOver inv.stores.iobufWf _) fun a => ?_
  by_cases inside : ∃ c < s.hw.nch, ∃ k < L, iobufAddr s.hw c k ≤ a ∧ a < iobufAddr s.hw c k + 4
  · obtain ⟨c, hc, k, hk, lo, hi⟩ := inside
    have entry := (iobufAt_mixOver_inTurn inv small turns hc hk).trans
      (iobufAt_mixOver_inTurn inv small turns' hc hk).symm
    rw [State.iobufAt, State.iobufAt, mixOver_hw, mixOver_hw] at entry
    have lane := congrArg (laneOf · (a - iobufAddr s.hw c k)) entry
    rwa [laneOf_readWord _ _ _ (by omega), laneOf_readWord _ _ _ (by omega), Nat.add_sub_cancel' lo] at lane
  · push Not at inside
    have out : ∀ c < s.hw.nch, ∀ k < L, a < iobufAddr s.hw c k ∨ iobufAddr s.hw c k + 4 ≤ a := fun c hc k hk =>
      (lt_or_ge a _).imp_right (inside c hc k hk)
    rw [readByte_mixOver_inTurn turns out, readByte_mixOver_inTurn turns' out]

/-- They leave the same phasors. -/
theorem phasors_mixOver_inTurn {s : State} {L : Nat} {order order' : List (Nat × Nat)} (inv : s.Inv)
    (turns : InTurn order s.hw.nch L) (turns' : InTurn order' s.hw.nch L) (v : Voice) :
    (s.mixOver order).phasors v = (s.mixOver order').phasors v := by
  refine List.ext_getElem (by rw [mixOver_length, mixOver_length]) fun c hc hc' => ?_
  have channel : c < s.hw.nch := by rwa [mixOver_length, length_phasors inv] at hc
  have same := (phasorAt_mixOver_inTurn inv turns v channel).trans (phasorAt_mixOver_inTurn inv turns' v channel).symm
  rwa [phasorAt_eq, phasorAt_eq, List.getD_eq_getElem _ _ hc, List.getD_eq_getElem _ _ hc'] at same

/-- Settles O49: the given order and R184's leave the same I/O buffer and the same phasors, and change nothing else. -/
theorem mixOrderDoesNotMatter : Obligations.MixOrderDoesNotMatter := by
  intro s L order inv small channels samples
  have turns : InTurn order s.hw.nch L := ⟨channels, samples⟩
  have turns' := inTurn_blockOrder s.hw.nch L
  have one : (s.mixOver order).phasors1 = _ := phasors_mixOver_inTurn inv turns turns' .one
  have two : (s.mixOver order).phasors2 = _ := phasors_mixOver_inTurn inv turns turns' .two
  rw [mixBlock_eq, mixOver_frame s (blockOrder s.hw.nch L), ← iobuf_mixOver_inTurn inv small turns turns']
  exact (mixOver_frame s order).trans (by rw [one, two]; rfl)

end Sys2Proof.Proofs
end

section
/-! PROOF. APPLY (46_engine_control.md: R204, R208): what the latch does to each voice, then the obligation. -/

namespace Sys2Proof.Proofs

open Sys2Proof.Machine Sys2Proof.Claims

/-! ### The latch, voice by voice (R208) -/

section Voices

variable (s : State)

/-- A voice whose effective window and transposition are those last latched is left as it is. -/
theorem latchVoice_of_same (v : Voice) {ms semi : Word} (window : ms = s.msEff) (transposition : semi = s.semiEff v) :
    s.latchVoice false v ms semi = s := by
  simp [State.latchVoice, window, transposition]

/-- One that differs in either is tuned. -/
theorem latchVoice_of_changed (v : Voice) {ms semi : Word} (changed : ms ≠ s.msEff ∨ semi ≠ s.semiEff v) :
    s.latchVoice false v ms semi = s.retune v (mapFreq s.hw.map semi ms) := by
  rw [State.latchVoice, if_pos (by simpa using changed)]

theorem latchVoice_freq_ne (force : Bool) {v u : Voice} (ms semi : Word) (h : u ≠ v) :
    (s.latchVoice force v ms semi).freq u = s.freq u := by
  rw [State.latchVoice]
  split
  · rw [retune_freq, if_neg h]
  · rfl

theorem latchVoice_phasorAt_ne (force : Bool) {v u : Voice} (ms semi : Word) (c : Nat) (h : u ≠ v) :
    (s.latchVoice force v ms semi).phasorAt u c = s.phasorAt u c := by
  rw [State.latchVoice]
  split
  · exact phasorAt_retune_ne s _ c h
  · rfl

theorem latchVoice_semiEff (force : Bool) (v u : Voice) (ms semi : Word) :
    (s.latchVoice force v ms semi).semiEff u = s.semiEff u := by
  cases u
  · exact State.latchVoice_semi1Eff s force v ms semi
  · exact State.latchVoice_semi2Eff s force v ms semi

/-- APPLY leaves the frequency and the phasors of a voice that did not change. -/
theorem applyParams_voice_of_same {v : Voice} (window : s.msIn.1 = s.msEff)
    (transposition : (s.semiIn v).1 = s.semiEff v) :
    (s.applyParams false).freq v = s.freq v ∧ ∀ c, (s.applyParams false).phasorAt v c = s.phasorAt v c := by
  simp only [applyParams_freq, applyParams_phasorAt, latchBoth]
  cases v with
  | one =>
    rw [latchVoice_of_same s .one window transposition]
    exact ⟨latchVoice_freq_ne s _ _ _ (by decide), fun c => latchVoice_phasorAt_ne s _ _ _ c (by decide)⟩
  | two =>
    rw [latchVoice_of_same _ .two (window.trans (State.latchVoice_msEff ..).symm)
      (transposition.trans (latchVoice_semiEff ..).symm)]
    exact ⟨latchVoice_freq_ne s _ _ _ (by decide), fun c => latchVoice_phasorAt_ne s _ _ _ c (by decide)⟩

/-- APPLY tunes a voice that changed, whatever it does to the other. -/
theorem applyParams_voice_of_changed {v : Voice} (changed : s.msIn.1 ≠ s.msEff ∨ (s.semiIn v).1 ≠ s.semiEff v) :
    (s.applyParams false).freq v = mapFreq s.hw.map (s.semiIn v).1 s.msIn.1 ∧ ∀ c < (s.phasors v).length,
      ((s.applyParams false).phasorAt v c).inc = incOf s.sr (mapFreq s.hw.map (s.semiIn v).1 s.msIn.1) := by
  simp only [applyParams_freq, applyParams_phasorAt, latchBoth]
  cases v with
  | one =>
    rw [latchVoice_freq_ne _ _ _ _ (by decide), latchVoice_of_changed s .one changed, retune_freq]
    refine ⟨if_pos rfl, fun c hc => ?_⟩
    rw [latchVoice_phasorAt_ne _ _ _ _ _ (by decide), inc_retune_self s _ hc]
  | two =>
    rw [latchVoice_of_changed _ .two (by rwa [State.latchVoice_msEff, latchVoice_semiEff]), retune_freq,
      State.latchVoice_hw]
    refine ⟨if_pos rfl, fun c hc => ?_⟩
    rw [inc_retune_self _ _ (by rwa [Laws.phasors_length_latchVoice]), State.latchVoice_sr]

end Voices

/-- Settles O28: the latch takes the clamped parameters, tunes the voices that changed and leaves the others, and moves no
phase. -/
theorem applyLatchesAndRetunesChangedVoices : Obligations.ApplyLatchesAndRetunesChangedVoices := by
  intro s inv prepared
  have run : exec .apply s = .next (s.applyParams false) :=
    exec_of_commandError_none (by simp [commandError, prepared])
  have latched := latched_applyParams false (room_pos (inv.session prepared))
  refine ⟨_, run, latched, fun v changed => ?_, fun v window transposition => ?_, ph_applyParams s false, ?_⟩
  · rw [applyParams_msEff, applyParams_semiEff] at changed
    obtain ⟨freq, incs⟩ := applyParams_voice_of_changed s changed
    refine ⟨?_, fun c hc => ?_⟩
    · rw [freq, State.applyParams_hw, applyParams_semiEff, applyParams_msEff]
    · rw [State.applyParams_hw, ← length_phasors inv v] at hc
      rw [incs c hc, freq, State.applyParams_sr]
  · rw [applyParams_msEff] at window
    rw [applyParams_semiEff] at transposition
    obtain ⟨freq, phasors⟩ := applyParams_voice_of_same s window transposition
    exact ⟨freq, fun c => congrArg Phasor.inc (phasors c)⟩
  · obtain ⟨_, _, _, _, _, _, _, _, _, _, latch⟩ := applyParams_frame s false
    rw [latch]

end Sys2Proof.Proofs
end

section
/-! PROOF. The functions an implementation chooses (00_scope.md: R24, R25): the envelope and the mapping case by case, the
default ones as exact reals rounded once, then the two obligations. -/

namespace Sys2Proof.Proofs

open Sys2Proof.Machine Sys2Proof.Laws

/-! ### Rounded reals (R11) -/

/-- A real that rounds to a finite word lies below the overflow threshold. -/
theorem abs_lt_of_roundsTo {y : ℝ} {w : Word} (h : RoundsTo y w) (finite : isFinite w = true) :
    |y| < 2 ^ 128 - 2 ^ 103 := by
  by_contra beyond
  have inf := h.beyond (not_lt.1 beyond)
  rw [inf] at finite
  revert finite
  cases signBit w <;> decide

theorem roundsTo_zero : RoundsTo 0 0x00000000#32 := by
  have zero : rne32 0 1 = 0x00000000#32 := by decide
  simpa [zero] using rne32_roundsTo 0 one_pos

theorem roundsTo_one : RoundsTo 1 0x3F800000#32 := by
  have one : rne32 1 1 = 0x3F800000#32 := by decide
  simpa [one] using rne32_roundsTo 1 one_pos

theorem val_posZero : val 0x00000000#32 = 0 := isZero_iff_val.1 rfl

theorem val_one : val 0x3F800000#32 = 1 := by
  exact_mod_cast val_of_units (w := 0x3F800000#32) (k := 1) (by decide)

/-- A finite value that is not zero is the value of one word. -/
theorem eq_of_val_eq {a b : Word} (fa : isFinite a = true) (fb : isFinite b = true) (nonzero : isZero a = false)
    (h : val a = val b) : a = b := by
  have nonzero' : isZero b = false := by
    rw [Bool.eq_false_iff, Ne, isZero_iff_val, ← h, ← isZero_iff_val, nonzero]
    nofun
  have whole : ((units a : ℤ) : ℚ) / unitsOne = val a := by rw [val, unitsOne, Nat.cast_pow, Nat.cast_ofNat]
  rw [← rne32_exact fa nonzero unitsOne_pos whole, rne32_exact fb nonzero' unitsOne_pos (whole.trans h)]

/-! ### The envelope (R24) -/

/-- The half of the cycle that the envelope is computed on: a phase, or its mirror image. -/
def foldPhase (P : Word) : Word := if P.toNat < 2 ^ 31 then P else 0#32 - P

theorem foldPhase_toNat {P : Word} (h : P ≠ 0#32) : (foldPhase P).toNat = min P.toNat (2 ^ 32 - P.toNat) :=
  fold_toNat P h

theorem toNat_eq_half_iff {P : Word} : P = 0x80000000#32 ↔ P.toNat = 2 ^ 31 := by
  rw [← BitVec.toNat_inj]; rfl

theorem toNat_pos_iff {P : Word} : P ≠ 0#32 ↔ 0 < P.toNat := by
  rw [Ne, ← BitVec.toNat_inj, Nat.pos_iff_ne_zero]; rfl

/-- Off the two fixed phases, the folded phase lies strictly between them. -/
theorem foldPhase_range {P : Word} (zero : P ≠ 0#32) (half : P ≠ 0x80000000#32) :
    0 < (foldPhase P).toNat ∧ (foldPhase P).toNat < 2 ^ 31 := by
  have := toNat_pos_iff.1 zero
  have := mt toNat_eq_half_iff.2 half
  have := P.isLt
  rw [foldPhase_toNat zero]
  omega

theorem envFn_zero (f : FnChoice) : envFn f 0#32 = 0x00000000#32 := if_pos rfl

theorem envFn_half (f : FnChoice) : envFn f 0x80000000#32 = 0x3F800000#32 := by
  rw [envFn, if_neg (by decide), if_pos rfl]

theorem envFn_of_mid (f : FnChoice) {P : Word} (zero : P ≠ 0#32) (half : P ≠ 0x80000000#32) :
    envFn f P = envRaw f (foldPhase P) := by
  rw [envFn, if_neg zero, if_neg half, foldPhase]

/-- The envelope is the same on both sides of half a cycle. -/
theorem envFn_mirror (f : FnChoice) {P : Word} (zero : P ≠ 0#32) : envFn f P = envFn f (0#32 - P) := by
  have pos := toNat_pos_iff.1 zero
  have mirrored : (0#32 - P).toNat = 2 ^ 32 - P.toNat := by
    rw [BitVec.toNat_sub, BitVec.toNat_ofNat]; omega
  have zero' : 0#32 - P ≠ 0#32 := toNat_pos_iff.2 (by omega)
  by_cases half : P = 0x80000000#32
  · subst half; rfl
  · have half' : 0#32 - P ≠ 0x80000000#32 := by
      simp only [Ne, toNat_eq_half_iff] at half ⊢
      omega
    have same : foldPhase P = foldPhase (0#32 - P) := by
      refine BitVec.eq_of_toNat_eq ?_
      rw [foldPhase_toNat zero, foldPhase_toNat zero', mirrored]
      omega
    rw [envFn_of_mid f zero half, envFn_of_mid f zero' half', same]

/-- Between the fixed phases every envelope is finite and within `[0, 1]`. -/
theorem envRaw_range (f : FnChoice) {P : Word} (pos : 0 < P.toNat) (low : P.toNat < 2 ^ 31) :
    isFinite (envRaw f P) = true ∧ 0 ≤ val (envRaw f P) ∧ val (envRaw f P) ≤ 1 := by
  cases f with
  | default =>
    have phase : (0 : ℝ) < P.toNat := by exact_mod_cast pos
    have below : (P.toNat : ℝ) < 2 ^ 31 := by exact_mod_cast low
    refine roundsTo_unit (sinDefault_roundsTo _ pos low) (Real.sin_pos_of_pos_of_lt_pi ?_ ?_) (Real.sin_le_one _)
    · have := Real.pi_pos
      positivity
    · rw [div_lt_iff₀ (by positivity)]
      nlinarith [Real.pi_pos]
  | custom k =>
    have value := val_envOwn k P
    have one : magReal 0x3F800000 = 1 := by
      have := val_eq_magReal 0x3F800000#32
      rw [val_one] at this
      simpa [signBit] using this.symm
    have bound := magReal_le (min_le_right (Config.envCustom k P.toNat) 0x3F800000)
    rw [← value, one] at bound
    refine ⟨?_, ?_, by exact_mod_cast bound⟩
    · rw [envRaw, envOwn, isFinite_iff, (withSign_fields _ (by omega)).1]
      exact decide_eq_true (by omega)
    · exact_mod_cast value ▸ magReal_nonneg _

theorem envFn_range (f : FnChoice) (P : Word) :
    isFinite (envFn f P) = true ∧ 0 ≤ val (envFn f P) ∧ val (envFn f P) ≤ 1 := by
  by_cases zero : P = 0#32
  · subst zero
    rw [envFn_zero, val_posZero]
    exact ⟨rfl, le_rfl, zero_le_one⟩
  by_cases half : P = 0x80000000#32
  · subst half
    rw [envFn_half, val_one]
    exact ⟨rfl, zero_le_one, le_rfl⟩
  obtain ⟨pos, low⟩ := foldPhase_range zero half
  rw [envFn_of_mid f zero half]
  exact envRaw_range f pos low

/-- The sine rises over the first half of the cycle. -/
theorem sin_phase_lt {P Q : Word} (h : P.toNat < Q.toNat) (half : Q.toNat ≤ 2 ^ 31) :
    Real.sin (Real.pi * P.toNat / 2 ^ 32) < Real.sin (Real.pi * Q.toNat / 2 ^ 32) := by
  have pi := Real.pi_pos
  have lt : (P.toNat : ℝ) < Q.toNat := by exact_mod_cast h
  have le : (Q.toNat : ℝ) ≤ 2 ^ 31 := by exact_mod_cast half
  refine Real.sin_lt_sin_of_lt_of_le_pi_div_two ?_ ?_ (by gcongr)
  · have : 0 ≤ Real.pi * P.toNat / 2 ^ 32 := by positivity
    linarith
  · rw [div_le_div_iff₀ (by positivity) two_pos]
    nlinarith

theorem envRaw_mono (f : FnChoice) {P Q : Word} (pos : 0 < P.toNat) (le : P.toNat ≤ Q.toNat) (low : Q.toNat < 2 ^ 31) :
    val (envRaw f P) ≤ val (envRaw f Q) := by
  cases f with
  | default =>
    obtain lt | eq := le.lt_or_eq
    · have small (x : ℝ) : |Real.sin x| < 2 ^ 128 - 2 ^ 103 := (Real.abs_sin_le_one x).trans_lt (by norm_num)
      exact roundsTo_val_le (sinDefault_roundsTo _ pos (lt.trans low)) (sinDefault_roundsTo _ (pos.trans lt) low)
        (sin_phase_lt lt low.le) (small _) (small _)
    · rw [BitVec.eq_of_toNat_eq eq]
  | custom k =>
    have mags := magReal_le (min_le_min_right 0x3F800000 ((Config.envCustom k).monotone le))
    rw [← val_envOwn, ← val_envOwn] at mags
    exact_mod_cast mags

/-- No envelope falls from phase 0 to half a cycle. -/
theorem envFn_mono (f : FnChoice) {P Q : Word} (le : P.toNat ≤ Q.toNat) (half : Q.toNat ≤ 2 ^ 31) :
    val (envFn f P) ≤ val (envFn f Q) := by
  by_cases start : P = 0#32
  · rw [start, envFn_zero, val_posZero]
    exact (envFn_range f Q).2.1
  by_cases top : Q = 0x80000000#32
  · rw [top, envFn_half, val_one]
    exact (envFn_range f P).2.2
  have pos := toNat_pos_iff.1 start
  have low : Q.toNat < 2 ^ 31 := half.lt_of_ne (mt toNat_eq_half_iff.2 top)
  have mid (R : Word) (h0 : 0 < R.toNat) (h1 : R.toNat < 2 ^ 31) : envFn f R = envRaw f R := by
    rw [envFn_of_mid f (toNat_pos_iff.2 h0) (by rw [Ne, toNat_eq_half_iff]; omega), foldPhase, if_pos h1]
  rw [mid P pos (le.trans_lt low), mid Q (pos.trans_le le) low]
  exact envRaw_mono f pos le low

/-! ### The mapping (R25) -/

/-- R25's exact real, at a transposition of value `x` and a window of value `m`. -/
noncomputable def mapReal (x m : ℝ) : ℝ := ((2 : ℝ) ^ (x / 12) - 1) * 1000 / m

theorem mapReal_strictMono {m : ℝ} (pos : 0 < m) : StrictMono fun x => mapReal x m := by
  intro x y h
  have power : (2 : ℝ) ^ (x / 12) < 2 ^ (y / 12) := Real.rpow_lt_rpow_of_exponent_lt one_lt_two (by gcongr)
  simp only [mapReal]
  gcongr

/-- Within an octave either way the mapping is at most its value an octave up. -/
theorem abs_mapReal_le {x m : ℝ} (pos : 0 < m) (range : |x| ≤ 12) : |mapReal x m| ≤ 1000 / m := by
  obtain ⟨lower, upper⟩ := abs_le.1 range
  have up : (2 : ℝ) ^ (x / 12) ≤ 2 := by
    calc (2 : ℝ) ^ (x / 12) ≤ 2 ^ (1 : ℝ) := Real.rpow_le_rpow_of_exponent_le one_le_two (by linarith)
      _ = 2 := Real.rpow_one 2
  have down : (0 : ℝ) < 2 ^ (x / 12) := by positivity
  rw [mapReal, abs_div, abs_mul, abs_of_pos pos, abs_of_pos (by norm_num : (0 : ℝ) < 1000)]
  have : |(2 : ℝ) ^ (x / 12) - 1| ≤ 1 := abs_le.2 ⟨by linarith, by linarith⟩
  gcongr
  linarith

/-- The default mapping is the exact real rounded once, unison included. -/
theorem mapFreq_default_roundsTo {s m : Word} (range : |val s| ≤ 12) (window : isFinitePos m = true) :
    RoundsTo (mapReal (val s) (val m)) (mapFreq .default s m) := by
  unfold mapReal
  cases zero : isZero s with
  | true =>
    have unison : ((2 : ℝ) ^ ((val s : ℝ) / 12) - 1) * 1000 / (val m : ℝ) = 0 := by simp [isZero_iff_val.1 zero]
    rw [unison, mapFreq, if_pos zero]
    exact roundsTo_zero
  | false =>
    rw [mapFreq, if_neg (by rw [zero]; nofun)]
    exact mapDefault_roundsTo zero range window

/-- An own mapping is finite. -/
theorem isFinite_mapFreq_custom (k : Nat) (s m : Word) : isFinite (mapFreq (.custom k) s m) = true := by
  rw [mapFreq]
  split
  · rfl
  · exact (val_mapOwn k s m).1

/-- Away from unison an own mapping is its bounded magnitude on the side of the transposition. -/
theorem val_mapFreq_custom (k : Nat) {s : Word} (m : Word) (nonzero : isZero s = false) :
    (val (mapFreq (.custom k) s m) : ℝ) = (if signBit s then -1 else 1) *
      magReal (min (Config.mapCustom k (signBit s) m (magUnits s)) 0x7F7FFFFF) := by
  rw [mapFreq, if_neg (by rw [nonzero]; nofun)]
  exact (val_mapOwn k s m).2

/-- A word of negative value has its sign bit set, and its magnitude is the negative of its value. -/
theorem val_of_neg {w : Word} (neg : val w < 0) : signBit w = true ∧ val w = -(magUnits w / unitsOne) := by
  have sign : signBit w = true := by
    by_contra unsigned
    rw [val_of_signBit_false (Bool.eq_false_iff.2 unsigned)] at neg
    exact absurd neg (not_lt.2 (by positivity))
  refine ⟨sign, ?_⟩
  rw [val, units, if_pos sign, unitsOne]
  push_cast
  ring

/-- An own mapping has the sign of the transposition. -/
theorem mapFreq_custom_sign (k : Nat) (s m : Word) :
    (val s ≤ 0 → val (mapFreq (.custom k) s m) ≤ 0) ∧ (0 ≤ val s → 0 ≤ val (mapFreq (.custom k) s m)) := by
  cases zero : isZero s with
  | true =>
    rw [mapFreq, if_pos zero, val_posZero]
    exact ⟨fun _ => le_rfl, fun _ => le_rfl⟩
  | false =>
    have value := val_mapFreq_custom k m zero
    have size := magReal_nonneg (min (Config.mapCustom k (signBit s) m (magUnits s)) 0x7F7FFFFF)
    have nonzero : val s ≠ 0 := by rw [Ne, ← isZero_iff_val, zero]; nofun
    refine ⟨fun le => ?_, fun ge => ?_⟩
    · rw [if_pos (val_of_neg (le.lt_of_ne nonzero)).1, neg_one_mul] at value
      exact_mod_cast value.trans_le (neg_nonpos.2 size)
    · rw [if_neg (by rw [signBit_of_val_pos (ge.lt_of_ne' nonzero)]; nofun), one_mul] at value
      exact_mod_cast size.trans_eq value.symm

/-- No own mapping falls as the transposition rises: on either side of unison its magnitude is monotone in the size. -/
theorem mapFreq_custom_mono (k : Nat) {s t : Word} (m : Word) (le : val s ≤ val t) :
    val (mapFreq (.custom k) s m) ≤ val (mapFreq (.custom k) t m) := by
  have unit : (0 : ℚ) < unitsOne := by exact_mod_cast unitsOne_pos
  have mags {neg : Bool} {a b : ℕ} (h : a ≤ b) :=
    magReal_le (min_le_min_right 0x7F7FFFFF ((Config.mapCustom k neg m).monotone h))
  obtain pos | notPos := lt_or_ge 0 (val s)
  · have post := pos.trans_le le
    have size : magUnits s ≤ magUnits t := by
      rw [val_of_pos pos, val_of_pos post, div_le_div_iff_of_pos_right unit] at le
      exact_mod_cast le
    have values := mags (neg := false) size
    have vs := val_mapFreq_custom k m (isZero_of_val_pos pos)
    have vt := val_mapFreq_custom k m (isZero_of_val_pos post)
    rw [signBit_of_val_pos pos, if_neg nofun, one_mul] at vs
    rw [signBit_of_val_pos post, if_neg nofun, one_mul] at vt
    rw [← vs, ← vt] at values
    exact_mod_cast values
  obtain neg | notNeg := lt_or_ge (val t) 0
  · obtain ⟨signt, valt⟩ := val_of_neg neg
    obtain ⟨signs, vals⟩ := val_of_neg (le.trans_lt neg)
    have size : magUnits t ≤ magUnits s := by
      rw [vals, valt, neg_le_neg_iff, div_le_div_iff_of_pos_right unit] at le
      exact_mod_cast le
    have nonzero {w : Word} (h : val w < 0) : isZero w = false := by
      rw [Bool.eq_false_iff, Ne, isZero_iff_val]
      exact h.ne
    have values := neg_le_neg (mags (neg := true) size)
    have vs := val_mapFreq_custom k m (nonzero (le.trans_lt neg))
    have vt := val_mapFreq_custom k m (nonzero neg)
    rw [signs, if_pos rfl, neg_one_mul] at vs
    rw [signt, if_pos rfl, neg_one_mul] at vt
    rw [← vs, ← vt] at values
    exact_mod_cast values
  · exact ((mapFreq_custom_sign k s m).1 notPos).trans ((mapFreq_custom_sign k t m).2 notNeg)

theorem val_window_pos {m : Word} (window : isFinitePos m = true) : (0 : ℝ) < val m := by
  exact_mod_cast (isFinitePos_iff.1 window).2

/-- Nor does the default where it is finite: its exact real rises, and rounding keeps order. -/
theorem mapFreq_default_mono {s t m : Word} (fs : isFinite s = true) (ft : isFinite t = true) (rs : |val s| ≤ 12)
    (rt : |val t| ≤ 12) (window : isFinitePos m = true) (le : val s ≤ val t)
    (finite : isFinite (mapFreq .default s m) = true) (finite' : isFinite (mapFreq .default t m) = true) :
    val (mapFreq .default s m) ≤ val (mapFreq .default t m) := by
  have rounds := mapFreq_default_roundsTo rs window
  have rounds' := mapFreq_default_roundsTo rt window
  obtain lt | same := le.lt_or_eq
  · have reals : mapReal (val s) (val m) < mapReal (val t) (val m) :=
      mapReal_strictMono (val_window_pos window) (by exact_mod_cast lt)
    exact roundsTo_val_le rounds rounds' reals (abs_lt_of_roundsTo rounds finite) (abs_lt_of_roundsTo rounds' finite')
  · cases zero : isZero s with
    | true =>
      have zero' : isZero t = true := isZero_iff_val.2 (same ▸ isZero_iff_val.1 zero)
      rw [mapFreq, mapFreq, if_pos zero, if_pos zero']
    | false => rw [eq_of_val_eq fs ft zero same]

/-- The default is finite while its value an octave up is. -/
theorem isFinite_mapFreq_default {s m : Word} (range : |val s| ≤ 12) (window : isFinitePos m = true)
    (small : 1000 / val m < (2 ^ 128 - 2 ^ 103 : ℚ)) : isFinite (mapFreq .default s m) = true := by
  have range' : |(val s : ℝ)| ≤ 12 := by exact_mod_cast range
  have small' : 1000 / (val m : ℝ) < 2 ^ 128 - 2 ^ 103 := by exact_mod_cast small
  exact (mapFreq_default_roundsTo range window).finite
    ((abs_mapReal_le (val_window_pos window) range').trans_lt small')

/-! ### The obligations -/

/-- Settles O4: the envelope clause by clause, and the mapping by the implementation's choice of function. -/
theorem functionsMeetTheirContracts : Obligations.FunctionsMeetTheirContracts := by
  intro f
  refine ⟨⟨envFn_zero f, envFn_half f, fun P => envFn_mirror f, envFn_range f, fun P Q => envFn_mono f⟩,
    fun s m zero => if_pos zero, ?_, ?_, ?_⟩
  · intro s t m fs ft rs rt window le finite finite'
    cases f with
    | default => exact mapFreq_default_mono fs ft rs rt window le finite finite'
    | custom k => exact mapFreq_custom_mono k m le
  · rintro k s m rfl
    exact isFinite_mapFreq_custom k s m
  · intro s m _ range window small
    cases f with
    | default => exact isFinite_mapFreq_default range window small
    | custom k => exact isFinite_mapFreq_custom k s m

/-- Settles O5: half a cycle gives exactly 1, every other phase is folded onto the half that is computed, and the mapping is
`mapFreq_default_roundsTo`. -/
theorem defaultFunctionsRoundTheExactReals : Obligations.DefaultFunctionsRoundTheExactReals := by
  refine ⟨fun P zero => ?_, fun s m _ _ range window => mapFreq_default_roundsTo range window⟩
  by_cases half : P = 0x80000000#32
  · have quarter : Real.pi * (0x80000000#32 : Word).toNat / 2 ^ 32 = Real.pi / 2 := by
      rw [toNat_eq_half_iff.1 rfl]
      push_cast
      ring
    rw [half, quarter, Real.sin_pi_div_two, envFn_half]
    exact roundsTo_one
  · obtain ⟨pos, low⟩ := foldPhase_range zero half
    rw [envFn_of_mid .default zero half, ← sin_fold, ← foldPhase_toNat zero]
    exact sinDefault_roundsTo _ pos low

end Sys2Proof.Proofs
end

section
/-! PROOF. Silence and unison (45_dual_grain_mixer.md: R186, R187): the arithmetic of zeros and of the factor 1, the grains of
a silent channel and of phase 0, then the two obligations. -/

namespace Sys2Proof.Proofs

open Sys2Proof.Machine Sys2Proof.Laws

/-! ### Zeros and the factor 1 (R13) -/

theorem isFinite_of_isZero {w : Word} (h : isZero w = true) : isFinite w = true := by
  simp_all [isZero, isFinite]

theorem isZero_zeroWord (sign : Bool) : isZero (zeroWord sign) = true := by
  cases sign <;> rfl

theorem isZero_mul32 {a b : Word} (fa : isFinite a = true) (fb : isFinite b = true)
    (zero : isZero a = true ∨ isZero b = true) : isZero (mul32 a b) = true := by
  have product : val a * val b = 0 := mul_eq_zero.2 (zero.imp isZero_iff_val.1 isZero_iff_val.1)
  rw [mul32_zero_product fa fb product]
  exact isZero_zeroWord _

theorem isZero_add32 {a b : Word} (za : isZero a = true) (zb : isZero b = true) : isZero (add32 a b) = true := by
  have sum : val a + val b = 0 := by rw [isZero_iff_val.1 za, isZero_iff_val.1 zb, add_zero]
  rw [add32_zero_sum (isFinite_of_isZero za) (isFinite_of_isZero zb) sum]
  split <;> rfl

theorem isFinite_of_isNaN_isInf {w : Word} (number : isNaN w = false) (bounded : isInf w = false) :
    isFinite w = true := by
  obtain h | h | h := isNaN_or_isInf_or_isFinite w
  · exact nomatch number.symm.trans h
  · exact nomatch bounded.symm.trans h
  · exact h

/-- There is one infinity of each sign. -/
theorem eq_infinity_of_isInf {w : Word} (h : isInf w = true) : w = infinity (signBit w) := by
  have small := w.isLt
  simp [isInf, expField, fracField, BitVec.extractLsb'_toNat, Nat.shiftRight_eq_div_pow] at h
  refine BitVec.eq_of_toNat_eq ?_
  rw [signBit_iff]
  by_cases high : 2 ^ 31 ≤ w.toNat
  · rw [decide_eq_true high]
    show w.toNat = 0xFF800000
    omega
  · rw [decide_eq_false high]
    show w.toNat = 0x7F800000
    omega

theorem unitsOne_div (x : Word) : ((units x : ℤ) : ℚ) / unitsOne = val x := by
  rw [val, unitsOne, Nat.cast_pow, Nat.cast_ofNat]

section Number

variable {x : Word} (number : isNaN x = false) (nonzero : isZero x = false)

include number nonzero

/-- Adding a zero changes no word but a zero or a NaN. -/
theorem add32_of_isZero_left {z : Word} (zero : isZero z = true) : add32 z x = x := by
  have fz := isFinite_of_isZero zero
  cases inf : isInf x with
  | true => exact add32_inf_right (isNaN_of_isZero zero) number (isInf_of_isFinite fz) inf
  | false =>
    have fx := isFinite_of_isNaN_isInf number inf
    have sum : val z + val x = val x := by rw [isZero_iff_val.1 zero, zero_add]
    have some_value : val x ≠ 0 := by rw [Ne, ← isZero_iff_val, nonzero]; nofun
    rw [add32_rounds_sum fz fx (by rw [sum]; exact some_value) unitsOne_pos ((unitsOne_div x).trans sum.symm)]
    exact rne32_exact fx nonzero unitsOne_pos (unitsOne_div x)

/-- Neither does the factor 1. -/
theorem mul32_one : mul32 x 0x3F800000#32 = x := by
  cases inf : isInf x with
  | true =>
    rw [mul32_inf number rfl (.inl inf), nonzero, if_neg (by decide), show signBit 0x3F800000#32 = false from rfl,
      Bool.bne_false]
    exact (eq_infinity_of_isInf inf).symm
  | false =>
    have fx := isFinite_of_isNaN_isInf number inf
    have product : val x * val 0x3F800000#32 = val x := by rw [val_one, mul_one]
    have some_value : val x ≠ 0 := by rw [Ne, ← isZero_iff_val, nonzero]; nofun
    rw [mul32_rounds_product fx rfl (by rw [product]; exact some_value) unitsOne_pos ((unitsOne_div x).trans product.symm)]
    exact rne32_exact fx nonzero unitsOne_pos (unitsOne_div x)

end Number

/-! ### A silent channel (R186) -/

theorem readSlot_lt {s : State} (i d : Nat) (h : 0 < s.cap.toNat) : s.readSlot i d < s.cap.toNat := by
  have pos : (0 : ℤ) < s.cap.toNat := by exact_mod_cast h
  rw [State.readSlot, Int.toNat_lt (Int.emod_nonneg _ pos.ne')]
  exact Int.emod_lt_of_pos _ pos

section Silent

variable {s : State} {c : Nat} (capPos : 0 < s.cap.toNat) (silent : ∀ j < s.cap.toNat, s.dlAt c j = 0x00000000#32)

include capPos silent

/-- The interpolation between two zeros is a zero. -/
theorem isZero_interp_of_silent (i d : Nat) {fr : Word} (finite : isFinite fr = true) :
    isZero (s.interp c i d fr) = true := by
  have difference : sub32 0x00000000#32 0x00000000#32 = 0x00000000#32 := by decide
  simp only [State.interp, silent _ (readSlot_lt i _ capPos), difference]
  split
  · rfl
  · exact isZero_add32 rfl (isZero_mul32 finite rfl (.inr rfl))

theorem isZero_grain_of_silent (i : Nat) (P : Word) : isZero (s.grain c i P) = true := by
  have sample := isZero_interp_of_silent capPos silent i (s.grainInt P) (fracWord_range (grainFrac_lt s P)).1
  exact isZero_mul32 (isFinite_of_isZero sample) (envFn_range s.hw.env P).1 (.inl sample)

theorem isZero_voiceValue_of_silent (v : Voice) (i : Nat) : isZero (s.voiceValue v c i) = true :=
  isZero_add32 (isZero_grain_of_silent capPos silent i _) (isZero_grain_of_silent capPos silent i _)

end Silent

/-- A zero from each voice is trimmed to a zero. -/
theorem isZero_mixValue {s : State} {c i : Nat} (h : ∀ v, isZero (s.voiceValue v c i) = true) :
    isZero (s.mixValue c i) = true := by
  have sum := isZero_add32 (h .one) (h .two)
  rw [mixValue_eq]
  exact isZero_mul32 (isFinite_of_isZero sum) rfl (.inl sum)

/-- Settles O51: zeros stay zeros through the interpolation, the envelope, the sums and the trim. -/
theorem silentRamGivesSilentOutput : Obligations.SilentRamGivesSilentOutput := by
  intro s c k inv prepared silent
  have capPos : 0 < s.cap.toNat := Nat.zero_lt_of_lt (inv.session prepared).capMin
  exact isZero_mixValue fun v => isZero_voiceValue_of_silent capPos silent v k

/-! ### Unison (R187) -/

/-- A grain whose delay is whole reads one stored word. -/
theorem grain_of_whole {s : State} (c i : Nat) {P : Word} {d : Nat} (whole : s.grainD P = d * 2 ^ 32) :
    s.grain c i P = mul32 (s.dlAt c (s.readSlot i d)) (s.env P) := by
  have int : s.grainInt P = d := by rw [State.grainInt, whole, Nat.mul_div_cancel _ (Nat.two_pow_pos 32)]
  have frac : s.grainFrac P = 0 := by rw [State.grainFrac, whole, Nat.mul_mod_left]
  rw [State.grain, int, frac, interp_of_isZero s c i d (fr := fracWord 0) rfl]

/-- At phase 0 grain A is a whole window behind and closed, and grain B half a window behind and fully open. -/
theorem voiceValue_of_phase_zero {s : State} {v : Voice} {c : Nat} (i : Nat) (phase : (s.phasorAt v c).ph = 0#32)
    (even : s.winSamples.toNat % 2 = 0) :
    s.voiceValue v c i = add32 (mul32 (s.dlAt c (s.readSlot i s.winSamples.toNat)) 0x00000000#32)
      (mul32 (s.dlAt c (s.readSlot i (s.winSamples.toNat / 2))) 0x3F800000#32) := by
  have wholeA : s.grainD 0#32 = s.winSamples.toNat * 2 ^ 32 := rfl
  have wholeB : s.grainD (mirror 0#32) = s.winSamples.toNat / 2 * 2 ^ 32 := by
    show s.winSamples.toNat * 2 ^ 31 = _
    omega
  rw [State.voiceValue, phase, grain_of_whole c i wholeA, grain_of_whole c i wholeB]
  exact congrArg₂ _ (congrArg _ (envFn_zero _)) (congrArg _ (envFn_half _))

/-- Settles O52: grain A gives a zero and grain B the sample itself, so each voice gives the sample, a NaN in its canonical
form. -/
theorem unisonIsTwiceTheSampleHalfAWindowBehind : Obligations.UnisonIsTwiceTheSampleHalfAWindowBehind := by
  intro s c k phases even finite x
  have voice (v : Voice) := voiceValue_of_phase_zero k (phases v) even
  have closed := isZero_mul32 finite (b := 0x00000000#32) rfl (.inr rfl)
  refine ⟨fun nonzero => ?_, fun zero => isZero_mixValue fun v => ?_⟩
  · rw [mixValue_eq, voice, voice]
    cases nan : isNaN x with
    | true =>
      rw [mul32_of_isNaN (a := x) (.inl nan), add32_of_isNaN (b := canonNaN) (.inr rfl), add32_of_isNaN (a := x) (.inl nan)]
      rfl
    | false =>
      rw [mul32_one (x := x) nan nonzero, add32_of_isZero_left nan nonzero closed]
      rfl
  · rw [voice]
    exact isZero_add32 closed (isZero_mul32 (isFinite_of_isZero zero) rfl (.inl zero))

end Sys2Proof.Proofs
end
